-- ==== Sys2Proof/Word.lean ====
section
/-! DEFINITION. The element of every queue. An index (an unsigned integer below the capacity, R15, R21) and a
word of the index code (R103) are natural numbers: their width is a parameter of the instance (R8), and the
rules' arithmetic is on mathematical integers (R15); log 1. -/

namespace Sys2Proof

/-- One element of a queue: eight bits, never looked into (R9, R61). -/
abbrev Byte := BitVec 8

end Sys2Proof
end

