-- ==== Sys2Proof/Config.lean ====
section
/-! DEFINITION. What a realisation fixes (R12, R14) and the values the spec leaves open (R16: a `draw`, an
`unspecified` value). The free values are opaque: nothing can evaluate one or prove a value of it. -/

namespace Sys2Proof

/-- The four ring buffer instances of the machine: one `sync_fifo`, one `async_fifo`, TXQ and RXQ (R35, log 1). -/
inductive FifoId where
  | sync | async | tx | rx
  deriving DecidableEq, Repr

/-- FLAG_SYNC (R12): the stages between a condition flag and its request line, none or two. -/
inductive FlagSync where
  | none | two
  deriving DecidableEq, Repr

/-- RX_OVERRUN (R14, R246, D8): what a byte that arrives while `rx_cond` is 1 does. `none`: it does not
arrive (the base model). `keepOld` and `overwrite`: D8's two choices. `either`: R246's draw of the two. -/
inductive RxOverrun where
  | none | keepOld | overwrite | either
  deriving DecidableEq, Repr

/-- The parameters that are no instance's capacity; a capacity stands in its instance (log 1). -/
structure Params where
  flagSync : FlagSync
  rxOverrun : RxOverrun
  deriving DecidableEq, Repr

/-- The content of a storage cell that nothing has written since power-on: any value (U1, R26, log 4). -/
opaque Config.unwrittenByte : FifoId → Nat → Byte

/-- An unspecified byte on a data output (U3: `dout` while empty, `rdata` without a byte), log 5. -/
opaque Config.freeByte : Nat → Byte

/-- The outcome of a racing sample that the outside has not fixed (U17, R193): true draws the new value, log 5. -/
opaque Config.freeDraw : Nat → Bool

end Sys2Proof
end

