-- ==== Sys2Proof/Syntax.lean ====
section
/-! DEFINITION. The commands of the block: one constructor per row of the opcode table, and the ports a
command is presented on (R90). The length and the meaning of a word are fixed by its port (R107). -/

namespace Sys2Proof

/-- The status words a client can read (R97): `sync_fifo` has one, `async_fifo` has `wst` and `rst`. -/
inductive StatusPort where
  | sync | asyncWrite | asyncRead
  deriving DecidableEq, Repr

/-- The two interrupt sources (R265). -/
inductive IrqSource where
  | tx | rx
  deriving DecidableEq, Repr

/-- Where a word is presented (R90). Format S is answered through the status word: the query is selected by
which bit of which status word the client reads (R97), so that selection is the port. Format E carries
IRQ_ORDER's choice of the handler that runs first when both lines are 1 (R13, R101, log 10). The last three are the
steps that have no encoding (R243, R244, R249); `hwRxByte` takes the arriving byte as its word. -/
inductive Port where
  | x | w | r | a
  | sEmpty (p : StatusPort) | sFull (p : StatusPort)
  | t
  | e (first : IrqSource)
  | hwTxDone | hwRxByte | clk
  deriving DecidableEq, Repr

/-- The commands and steps of the block, one constructor per row of `opcode_table.json`. The only operand is
the byte of an enqueue, a send or an arrival (R102); a query names its status word (R97). -/
inductive Instr where
  -- format X, `sync_fifo` (R92)
  | nop
  | enq (d : Byte)
  | deq
  | enqdeq (d : Byte)
  | init
  -- format W, `async_fifo`'s producer (R94)
  | wNop
  | wEnq (d : Byte)
  -- format R, `async_fifo`'s consumer (R95)
  | rNop
  | rDeq
  -- format A, `async_fifo`'s reset (R96)
  | aRun
  | aInit
  -- format S, the queries (R97)
  | isEmpty (p : StatusPort)
  | isFull (p : StatusPort)
  -- format T, the foreground port (R100)
  | tNop
  | send (d : Byte)
  | receive
  | uartInit
  | prime
  | tReserved5
  | tReserved6
  | tReserved7
  -- format E, the handler runs (R101)
  | txIrq
  | rxIrq
  -- the steps without an encoding (R243, R244, R249)
  | hwTxDone
  | hwRxByte (b : Byte)
  | clk
  deriving DecidableEq, Repr

/-- What a word is on its port. `command`: one operation (R106). `noRun`: the word 0b00 of format E, which is legal
and is the empty set of handler runs (R101, R106). `tooWide`: a number with more bits than the port has, which no
client can present there (R107). -/
inductive Decoded where
  | command (i : Instr)
  | noRun
  | tooWide
  deriving DecidableEq, Repr

end Sys2Proof
end

