-- ==== Sys2Proof/WellFormed.lean ====
section
/-! DEFINITION. What a client may present (R106). Every operand is typed at its exact width, so the one check
on a command is that its `top` is not reserved; the check on a word is that it fits its port (R107). -/

namespace Sys2Proof

/-- The number of bits of a port's word (R90). A step without an encoding has no bits, but for the arriving
byte of `HW_RX_BYTE` (R244). -/
def Port.width : Port → Nat
  | .x => 11
  | .w => 9
  | .r => 1
  | .a => 1
  | .sEmpty _ => 2
  | .sFull _ => 2
  | .t => 11
  | .e _ => 2
  | .hwTxDone => 0
  | .hwRxByte => 8
  | .clk => 0

/-- The word has no bit above the port's width. -/
def Port.fits (p : Port) (w : Nat) : Bool := decide (w < 2 ^ p.width)

/-- R106: the three reserved values of `top` must not be presented; every other command may be. -/
def Instr.wellFormed : Instr → Bool
  | .tReserved5 => false
  | .tReserved6 => false
  | .tReserved7 => false
  | .nop => true
  | .enq _ => true
  | .deq => true
  | .enqdeq _ => true
  | .init => true
  | .wNop => true
  | .wEnq _ => true
  | .rNop => true
  | .rDeq => true
  | .aRun => true
  | .aInit => true
  | .isEmpty _ => true
  | .isFull _ => true
  | .tNop => true
  | .send _ => true
  | .receive => true
  | .uartInit => true
  | .prime => true
  | .txIrq => true
  | .rxIrq => true
  | .hwTxDone => true
  | .hwRxByte _ => true
  | .clk => true

end Sys2Proof
end

