-- ==== Sys2Proof/Decode.lean ====
section
/-! DEFINITION. The decoder of each port's words (R92, R94 to R96, R100, R101), total on every word, and the
encoder written from the same tables. Don't-care bits are ignored by the decoder (R106) and written as 0 by
the encoder (log 7). -/

namespace Sys2Proof

/-- `v[hi:lo]` (R15). -/
def bits (v hi lo : Nat) : Nat := (v >>> lo) % 2 ^ (hi - lo + 1)

/-- The operand `din[7:0]` or `tdata[7:0]`, eight bits taken as they stand (R102). -/
def dataField (w : Nat) : Byte := BitVec.ofNat 8 (bits w 7 0)

/-- Format X, `{init, deq, enq, din}` (R92). -/
def decodeX (w : Nat) : Instr :=
  match bits w 10 10, bits w 9 9, bits w 8 8 with
  | 0, 0, 0 => .nop
  | 0, 0, _ => .enq (dataField w)
  | 0, _, 0 => .deq
  | 0, _, _ => .enqdeq (dataField w)
  | _, _, _ => .init

/-- Format W, `{enq, din}` (R94). -/
def decodeW (w : Nat) : Instr :=
  match bits w 8 8 with
  | 0 => .wNop
  | _ => .wEnq (dataField w)

/-- Format R, `deq` (R95). -/
def decodeR (w : Nat) : Instr :=
  match bits w 0 0 with
  | 0 => .rNop
  | _ => .rDeq

/-- Format A, `arst` (R96). -/
def decodeA (w : Nat) : Instr :=
  match bits w 0 0 with
  | 0 => .aRun
  | _ => .aInit

/-- Format T, `{top, tdata}` (R100); the reserved values of `top` keep their own names (R106). -/
def decodeT (w : Nat) : Instr :=
  match bits w 10 8 with
  | 0 => .tNop
  | 1 => .send (dataField w)
  | 2 => .receive
  | 3 => .uartInit
  | 4 => .prime
  | 5 => .tReserved5
  | 6 => .tReserved6
  | _ => .tReserved7

/-- Format E, `{rx_req, tx_req}` (R101): with both lines at 1 both handler runs are enabled and `first` says
which comes first (R13, log 10); with both at 0 none is enabled, and the word is the empty set of runs (R106). -/
def decodeE (first : IrqSource) (w : Nat) : Decoded :=
  match bits w 1 1, bits w 0 0, first with
  | 0, 0, _ => .noRun
  | 0, _, _ => .command .txIrq
  | _, 0, _ => .command .rxIrq
  | _, _, .tx => .command .txIrq
  | _, _, .rx => .command .rxIrq

/-- The command a word is on a port; a word with a bit above the port's width is rejected. -/
def decode (p : Port) (w : Nat) : Decoded :=
  if p.fits w then
    match p with
    | .x => .command (decodeX w)
    | .w => .command (decodeW w)
    | .r => .command (decodeR w)
    | .a => .command (decodeA w)
    | .sEmpty q => .command (.isEmpty q)
    | .sFull q => .command (.isFull q)
    | .t => .command (decodeT w)
    | .e first => decodeE first w
    | .hwTxDone => .command .hwTxDone
    | .hwRxByte => .command (.hwRxByte (dataField w))
    | .clk => .command .clk
  else .tooWide

/-- `{code, d}`: a code above an eight-bit operand. -/
def codeWord (code : Nat) (d : Byte) : Nat := code * 2 ^ 8 + d.toNat

/-- The port and the word of a command, its don't-care bits 0 (R92, R94 to R96, R100, R101; log 7). -/
def encode : Instr → Port × Nat
  | .nop => (.x, 0x000)
  | .enq d => (.x, codeWord 1 d)
  | .deq => (.x, 0x200)
  | .enqdeq d => (.x, codeWord 3 d)
  | .init => (.x, 0x400)
  | .wNop => (.w, 0x000)
  | .wEnq d => (.w, codeWord 1 d)
  | .rNop => (.r, 0)
  | .rDeq => (.r, 1)
  | .aRun => (.a, 0)
  | .aInit => (.a, 1)
  | .isEmpty p => (.sEmpty p, 0)
  | .isFull p => (.sFull p, 0)
  | .tNop => (.t, 0x000)
  | .send d => (.t, codeWord 1 d)
  | .receive => (.t, 0x200)
  | .uartInit => (.t, 0x300)
  | .prime => (.t, 0x400)
  | .tReserved5 => (.t, 0x500)
  | .tReserved6 => (.t, 0x600)
  | .tReserved7 => (.t, 0x700)
  | .txIrq => (.e .tx, 0b01)
  | .rxIrq => (.e .rx, 0b10)
  | .hwTxDone => (.hwTxDone, 0)
  | .hwRxByte b => (.hwRxByte, b.toNat)
  | .clk => (.clk, 0)

/-- The port on which a bare table word is taken to stand. The table numbers a row's bits and not its port, and
rows of different ports share their words (R107): an 11-bit word, or one of two whole bytes, is taken as format
T, a 9-bit word as format W, a 1-bit word as format R, a 2-bit word as format E, and a word of one whole byte
as format R or, where it does not fit one bit, as format E. DESIGN CHOICE (log 8). -/
def tablePort (nbits w : Nat) : Option Port :=
  match nbits with
  | 16 => some .t
  | 11 => some .t
  | 9 => some .w
  | 8 => some (if w < 2 then .r else .e .tx)
  | 2 => some (.e .tx)
  | 1 => some .r
  | _ => none

/-- The command a bare table word decodes to, on the port `tablePort` takes it to stand on. -/
def decodeTableWord (nbits w : Nat) : Option Instr :=
  match tablePort nbits w with
  | none => none
  | some p =>
    match decode p w with
    | .command i => some i
    | .noRun => none
    | .tooWide => none

end Sys2Proof
end

