-- ==== Sys2Proof/Machine/Operands.lean ====
section
/-! DEFINITION. The values the operations compute with: the advance of an index (R126), the index code `gray_N`
and its inverse (R103, R105), and the sampling rule of a crossing (R193). The one operand a command carries is
its byte, which the decoder takes as it stands (R102). -/

namespace Sys2Proof.Machine

/-- `(i + 1) mod N` (R126): the only arithmetic of the block. -/
def next (n : Nat) (i : Nat) : Nat := (i + 1) % n

/-- `(i + N − 1) mod N`, the index one step back, which `full_r` compares with (R185). -/
def prev (n : Nat) (i : Nat) : Nat := (i + n - 1) % n

/-- `W = max(1, ceil(log2 N))` (R8). -/
def indexWidth (n : Nat) : Nat := Nat.log2 (n - 1) + 1

/-- `G(k) = k ^ (k >> 1)`, the reflected binary code (R103). -/
def reflected (k : Nat) : Nat := k ^^^ (k >>> 1)

/-- `o = (2^W − N) / 2` (R103). -/
def grayOffset (n : Nat) : Nat := (2 ^ indexWidth n - n) / 2

/-- `gray_N(i) = G(i + o)` (R103). -/
def gray (n : Nat) (i : Nat) : Nat := reflected (i + grayOffset n)

/-- `g ^ (g >> 1) ^ … ^ (g >> (k−1))`; with `k = W` this is `G⁻¹(g)` (R105). -/
def unreflected : Nat → Nat → Nat
  | 0, _ => 0
  | k + 1, g => unreflected k g ^^^ (g >>> k)

/-- `gray_N⁻¹(g) = G⁻¹(g) − o` (R105), meant for code words only. -/
def ungray (n : Nat) (g : Nat) : Nat := unreflected (indexWidth n) g - grayOffset n

/-- The word is `gray_N(i)` for some index `i` (R105). -/
def isCode (n : Nat) (g : Nat) : Bool := (List.range n).any fun i => gray n i == g

/-- `sample(s)` (R193): a racing edge draws the value before the latest change or the value after it; a
stable signal is sampled as it is. -/
def sample {α : Type} (fresh : Bool) (old cur : α) (drawNew : Bool) : α :=
  if fresh then (if drawNew then cur else old) else cur

end Sys2Proof.Machine
end

