-- ==== Sys2Proof/Machine/State.lean ====
section
/-! DEFINITION. The state of the machine as plain data (10_state.md), the reasons a step can stop, and the
state right after reset (R40). -/

namespace Sys2Proof.Machine

/-- The storage of one ring buffer instance (R60): its written cells, as (index, byte) pairs with strictly
rising indices. A cell that is not listed has not been written since power-on and holds no value of its own;
`Ring.cell` says what it reads as (U1, log 4). -/
abbrev Memory := List Host.Cell

/-- The canonical form of a storage: the indices rise strictly, so equal storages are equal lists. -/
abbrev Memory.wf (m : Memory) : Prop := (m.map Prod.fst).Pairwise (· < ·)

/-- A ring buffer instance (R20, R21), with its capacity N (R7) and its ghost counts of successful dequeues
`H` and enqueues `T` (R27). -/
structure Ring where
  cap : Nat
  storage : Memory
  head : Nat
  tail : Nat
  ghostH : Nat
  ghostT : Nat
  deriving DecidableEq, Repr

/-- The result wires of an enqueue request (R91, R93, R98). -/
structure EnqOut where
  ok : Bool
  err : Bool
  deriving DecidableEq, Repr

/-- The result wires of a dequeue request and the byte on `dout` (R91, R93, R98). -/
structure DeqOut where
  ok : Bool
  err : Bool
  dout : Byte
  deriving DecidableEq, Repr

/-- `sync_fifo` (R30): one ring buffer instance. `up`: its first reset event has happened (R303). `enqOut` and
`deqOut` are the outputs as they stood in the cycle of the last edge (R151, log 6). -/
structure SyncFifo where
  up : Bool
  ring : Ring
  enqOut : EnqOut
  deqOut : DeqOut
  deriving DecidableEq, Repr

/-- `async_fifo`: the registers of the write domain (R31) and of the read domain (R32), the auxiliaries of
its two crossings (R33), the level of `arst` (R93, log 9), and the outputs of the last edge of each clock. -/
structure AsyncFifo where
  up : Bool
  arst : Bool
  ring : Ring
  tailGray : Nat
  hs1 : Nat
  hs2 : Nat
  headGray : Nat
  ts1 : Nat
  ts2 : Nat
  tailPrev : Nat
  tailFresh : Bool
  headPrev : Nat
  headFresh : Bool
  enqOut : EnqOut
  deqOut : DeqOut
  deriving DecidableEq, Repr

/-- A condition flag of the hardware register layer (R36) with the auxiliaries of its crossing (R33) and the
two stages of its `flag_sync2` (R37, R205). -/
structure Crossing where
  cond : Bool
  old : Bool
  fresh : Bool
  f1 : Bool
  f2 : Bool
  deriving DecidableEq, Repr

/-- The state of the transmit path (R34). -/
inductive TxState where
  | idle | transmitting
  deriving DecidableEq, Repr

/-- Where FG stands in its operation: the micro-step it takes next, with the locals it holds across the
boundary (R69, R70, R232, R233, R234, R269). `idle`: no transaction is in progress. -/
inductive Fg where
  | idle
  | nop
  | uartInit
  | sendE1 (d : Byte)
  | sendE2 (d : Byte) (h : Nat)
  | sendE3 (d : Byte)
  | sendE4
  | sendS5
  | sendS6 (st : TxState)
  | primeP1
  | primeP2
  | primeP3 (t : Nat)
  | primeP4
  | primeP5 (b : Byte)
  | primeP6 (b : Byte)
  | primeP7 (b : Byte)
  | recvD1
  | recvD2 (t : Nat)
  | recvD3
  | recvD4 (b : Byte)
  deriving DecidableEq, Repr

/-- The transport controller (R34, R35), its request path (R37), the boundary of the hardware register layer
(R36, R38) and the response port (R99). `irqEnabled` is R265's "interrupts enabled", true from the completion
of the first UART_INIT on, so it also says that the controller has been reset. -/
structure Transport where
  txq : Ring
  rxq : Ring
  txState : TxState
  irqEnabled : Bool
  fg : Fg
  outReg : Option Byte
  inReg : Byte
  tx : Crossing
  rx : Crossing
  wireTx : List Byte
  wireRx : List Byte
  tres : BitVec 2
  rdata : Byte
  deriving DecidableEq, Repr

/-- What the outside presents to the machine (R108, R195, R250). `word`: a command word on a port, taken as
one whole operation. `startFg`: a format T word that FG runs micro-step by micro-step; `fgStep`: FG's next
micro-step. `holdReset`: `arst` rises and stays at 1 (R190, log 9). -/
inductive Event where
  | word (p : Port) (w : Nat)
  | startFg (w : Nat)
  | fgStep
  | holdReset
  deriving DecidableEq, Repr

/-- The whole machine. `query` is the answer of the last IS_EMPTY or IS_FULL (R97). The last three fields are
the model's own: the events presented and not yet taken (log 3), the outcomes fixed for coming racing samples,
true for the new value (R108, log 5), and the counter that picks the next free value (log 5). -/
structure State where
  sync : SyncFifo
  async : AsyncFifo
  uart : Transport
  query : Bool
  params : Params
  pending : List Event
  draws : List Bool
  free : Nat
  deriving DecidableEq, Repr

/-- The hardware has no trap (R260): the one fault is a stuck machine. -/
inductive Fault where
  /-- Raised by `step` alone, when no event is presented: the machine has nothing to do. Safe (log 3). -/
  | noEvent
  deriving DecidableEq, Repr

/-- Why the machine gives a step no meaning (R16, `refuse`). Every one of them is safe: the model stops. -/
inductive Refusal where
  /-- Raised by `exec`'s arm of an instruction that has no meaning in the model. -/
  | notModelled (mnemonic : String)
  /-- Raised by `runEvent` on a number with more bits than the port it is presented on (R107). -/
  | wordTooWide
  /-- Raised by T.RESERVED5, T.RESERVED6, T.RESERVED7: a reserved value of `top` (R106, R248). -/
  | reservedTop
  /-- Raised by every operation of a block whose capacity is below 2, or odd in `async_fifo` (R7, R183). -/
  | badCapacity
  /-- Raised by every operation of a block but its reset event, before that event (R303). -/
  | notReset
  /-- Raised by every operation of a block that finds an index register at or above N (R62). -/
  | corruptIndex
  /-- Raised by `async_fifo`'s operations on a code register or stage that holds no code word (R105). -/
  | corruptCode
  /-- Raised by W.ENQ and R.DEQ while `arst` is held at 1 (R190, R321). -/
  | resetUnderTraffic
  /-- Raised by a T transaction presented while another is in progress: two foreground threads (R310, U8). -/
  | fgBusy
  /-- Raised by a foreground micro-step when no transaction is in progress. -/
  | fgIdle
  /-- Raised by UART_INIT after the first one while the transmitter is not Idle (R231). -/
  | uartInitWhileTransmitting
  /-- Raised by the first UART_INIT when the boundary is not as R231 and R302 assume it (log 12). -/
  | boundaryNotIdle
  /-- Raised by `write_output_register` while `out_reg` holds a byte (R245). -/
  | outputBusy
  /-- Raised by `read_input_register` while `rx_cond` is 0 (R242). -/
  | inputEmpty
  /-- Raised by TXIRQ and RXIRQ when the run is not enabled (R250, R267). -/
  | irqNotEnabled
  /-- Raised by HW_TX_DONE when `out_reg` holds no byte (R243). -/
  | nothingToTransmit
  /-- Raised by HW_RX_BYTE while `rx_cond` is 1, with RX_OVERRUN = none (R244, R246). -/
  | rxOverrun
  /-- Raised by CLK with FLAG_SYNC = 0, where there is no such step (R249). -/
  | noClkStep
  deriving DecidableEq, Repr

/-- An instance right after its INIT (R40), with no cell written. -/
def Ring.fresh (n : Nat) : Ring :=
  { cap := n, storage := [], head := 0, tail := 0, ghostH := 0, ghostT := 0 }

/-- Reset values of a flag's crossing and of its two stages (R40). -/
def Crossing.reset : Crossing :=
  { cond := false, old := false, fresh := false, f1 := false, f2 := false }

/-- No request was presented: no result (R98). -/
def EnqOut.none : EnqOut := { ok := false, err := false }

/-- The capacity of every instance of the reset state (log 1). -/
def resetCap : Nat := 10

/-- The machine right after its reset events, INIT, A.INIT and the first UART_INIT (R40, R300 to R302; log 1
for the parameters, log 2, log 6 for `in_reg`, `rdata`, the `dout` latches and `query`). -/
def State.reset : State :=
  { sync :=
      { up := true, ring := Ring.fresh resetCap, enqOut := EnqOut.none,
        deqOut := { ok := false, err := false, dout := 0 } }
    async :=
      { up := true, arst := false, ring := Ring.fresh resetCap,
        tailGray := gray resetCap 0, hs1 := gray resetCap 0, hs2 := gray resetCap 0,
        headGray := gray resetCap 0, ts1 := gray resetCap 0, ts2 := gray resetCap 0,
        tailPrev := gray resetCap 0, tailFresh := false,
        headPrev := gray resetCap 0, headFresh := false,
        enqOut := EnqOut.none, deqOut := { ok := false, err := false, dout := 0 } }
    uart :=
      { txq := Ring.fresh resetCap, rxq := Ring.fresh resetCap, txState := .idle,
        irqEnabled := true, fg := .idle, outReg := none, inReg := 0,
        tx := Crossing.reset, rx := Crossing.reset, wireTx := [], wireRx := [],
        tres := 0, rdata := 0 }
    query := false
    params := { flagSync := .two, rxOverrun := .none }
    pending := []
    draws := []
    free := 0 }

end Sys2Proof.Machine
end

