-- ==== Sys2Proof/Machine/Flags.lean ====
section
/-! DEFINITION. The status bits of every block. None is stored: each is computed from the indices, or from the
code words of one side, whenever it is asked for (R29). -/

namespace Sys2Proof.Machine

/-- `empty(Q)`: `head == tail` (R22). -/
def Ring.empty (r : Ring) : Bool := r.head == r.tail

/-- `full(Q)`: `(tail + 1) mod N == head` (R23). -/
def Ring.full (r : Ring) : Bool := next r.cap r.tail == r.head

/-- `occ(Q) = (tail − head) mod N` (R24). -/
def Ring.occ (r : Ring) : Nat := (r.tail + r.cap - r.head) % r.cap

/-- `0 <= head < N` and `0 <= tail < N` (R21). -/
def Ring.inRange (r : Ring) : Bool := decide (r.head < r.cap) && decide (r.tail < r.cap)

/-- `full_w = (gray_N((tail + 1) mod N) == hs2)` (R184). -/
def AsyncFifo.fullW (a : AsyncFifo) : Bool := gray a.ring.cap (next a.ring.cap a.ring.tail) == a.hs2

/-- `empty_w = (tail_gray == hs2)` (R184). -/
def AsyncFifo.emptyW (a : AsyncFifo) : Bool := a.tailGray == a.hs2

/-- `empty_r = (head_gray == ts2)` (R185). -/
def AsyncFifo.emptyR (a : AsyncFifo) : Bool := a.headGray == a.ts2

/-- `full_r = (ts2 == gray_N((head + N − 1) mod N))` (R185). -/
def AsyncFifo.fullR (a : AsyncFifo) : Bool := a.ts2 == gray a.ring.cap (prev a.ring.cap a.ring.head)

/-- Every code register, stage and auxiliary of `async_fifo` holds a code word (R105). -/
def AsyncFifo.codesOk (a : AsyncFifo) : Bool :=
  [a.tailGray, a.hs1, a.hs2, a.headGray, a.ts1, a.ts2, a.tailPrev, a.headPrev].all (isCode a.ring.cap)

/-- A status word, `{full, empty}` (R97). -/
def statusWord (full empty : Bool) : BitVec 2 := BitVec.ofBool full ++ BitVec.ofBool empty

/-- The `empty` bit of a status word (R97). -/
def State.statusEmpty (s : State) : StatusPort → Bool
  | .sync => s.sync.ring.empty
  | .asyncWrite => s.async.emptyW
  | .asyncRead => s.async.emptyR

/-- The `full` bit of a status word (R97). -/
def State.statusFull (s : State) : StatusPort → Bool
  | .sync => s.sync.ring.full
  | .asyncWrite => s.async.fullW
  | .asyncRead => s.async.fullR

/-- The status word of a port (R97). -/
def State.status (s : State) (p : StatusPort) : BitVec 2 := statusWord (s.statusFull p) (s.statusEmpty p)

/-- The results of an operation (R98, R260 to R262). -/
inductive Answer where
  | ok | bufferFull | bufferEmpty
  deriving DecidableEq, Repr

/-- The codes of the results on the response port (R98). -/
def Answer.code : Answer → BitVec 2
  | .ok => 0
  | .bufferFull => 1
  | .bufferEmpty => 2

/-- A request line: the condition itself with FLAG_SYNC = 0, the second stage with FLAG_SYNC = 2 (R37). -/
def Crossing.req (c : Crossing) (f : FlagSync) : Bool :=
  match f with
  | .none => c.cond
  | .two => c.f2

/-- `tx_req` (R37). -/
def State.txReq (s : State) : Bool := s.uart.tx.req s.params.flagSync

/-- `rx_req` (R37). -/
def State.rxReq (s : State) : Bool := s.uart.rx.req s.params.flagSync

end Sys2Proof.Machine
end

