-- ==== Sys2Proof/Machine/Ops.lean ====
section
/-! DEFINITION. The operations every meaning is written over: storage (R60), the ring buffer (R121 to R125),
draws and free values (R16, R193), guards (R16's `refuse`), the boundary functions (R241), the response port
(R98, R99, R260) and the taking of an interrupt (R267, R269, R270). -/

namespace Sys2Proof.Machine

/-- What a meaning answers with. -/
abbrev Result := Host.Outcome State Fault Refusal

/-! ### Storage (R60) -/

/-- The byte written in a cell, if one was. -/
def Memory.read : Memory → Nat → Option Byte
  | [], _ => none
  | (k, v) :: m, a => if a = k then some v else Memory.read m a

/-- Writes one cell and keeps the list in order. -/
def Memory.write : Memory → Nat → Byte → Memory
  | [], a, b => [(a, b)]
  | (k, v) :: m, a, b =>
    if a < k then (a, b) :: (k, v) :: m
    else if a = k then (a, b) :: m
    else (k, v) :: Memory.write m a b

/-- MemRead(Q, i): the byte in cell `i`; a cell never written reads as a free value (U1, log 4). -/
def Ring.cell (q : FifoId) (r : Ring) (i : Nat) : Byte :=
  (Memory.read r.storage i).getD (Config.unwrittenByte q i)

/-! ### The ring buffer (R120 to R126) -/

/-- INIT(Q): both indices and both ghost counts to 0; storage is not written (R121). -/
def Ring.init (r : Ring) : Ring := { r with head := 0, tail := 0, ghostH := 0, ghostT := 0 }

/-- The accepting half of ENQUEUE: `storage[tail] ← b`, then `tail` advances (R124). -/
def Ring.push (r : Ring) (b : Byte) : Ring :=
  { r with storage := Memory.write r.storage r.tail b, tail := next r.cap r.tail, ghostT := r.ghostT + 1 }

/-- The accepting half of DEQUEUE: `head` advances, the cell is not cleared (R125, R26). -/
def Ring.pop (r : Ring) : Ring := { r with head := next r.cap r.head, ghostH := r.ghostH + 1 }

/-- ENQUEUE(Q, b) (R124): none is `Err(BufferFull)`, and then nothing has changed. -/
def Ring.enqueue (r : Ring) (b : Byte) : Option Ring := if r.full then none else some (r.push b)

/-- DEQUEUE(Q) (R125): none is `Err(BufferEmpty)`, and then nothing has changed. -/
def Ring.dequeue (q : FifoId) (r : Ring) : Option (Byte × Ring) :=
  if r.empty then none else some (r.cell q r.head, r.pop)

/-- The outstanding bytes, oldest first: the cells of the live range `head .. tail − 1` (R19, R127). -/
def Ring.contents (q : FifoId) (r : Ring) : List Byte :=
  (List.range r.occ).map fun k => r.cell q ((r.head + k) % r.cap)

/-! ### Free values and draws -/

/-- The outcome of a sample's draw (R193): none is taken unless the sample races; the outside's next fixed
outcome if there is one, else a free value (log 5). True draws the new value. -/
def takeDraw (racing : Bool) (s : State) : Bool × State :=
  if racing then
    match s.draws with
    | d :: ds => (d, { s with draws := ds })
    | [] => (Config.freeDraw s.free, { s with free := s.free + 1 })
  else (true, s)

/-! ### Guards (R16) -/

/-- The reason of the first check that fails. -/
def firstRefusal : List (Bool × Refusal) → Option Refusal
  | [] => none
  | (fails, r) :: rest => if fails then some r else firstRefusal rest

/-- Refuse for a reason, or go on. -/
def guarded (why : Option Refusal) (go : Result) : Result :=
  match why with
  | some r => .refused r
  | none => go

/-- Run one step and, if it answers a next state, go on from there. -/
def andThen (r : Result) (go : State → Result) : Result :=
  match r with
  | .next s => go s
  | .fault f => .fault f
  | .refused e => .refused e

/-- `N ≥ 2` (R7). -/
def Ring.capOk (r : Ring) : Bool := decide (2 ≤ r.cap)

/-- What every operation of `sync_fifo` but INIT checks: the capacity (R7), the first reset (R159, R303) and
the index registers (R62). -/
def syncGuard (s : State) : Option Refusal :=
  firstRefusal
    [(!s.sync.ring.capOk, .badCapacity), (!s.sync.up, .notReset), (!s.sync.ring.inRange, .corruptIndex)]

/-- `N` is even and at least 2 (R183). -/
def AsyncFifo.capOk (a : AsyncFifo) : Bool := a.ring.capOk && decide (a.ring.cap % 2 = 0)

/-- What every operation of `async_fifo` but A.INIT checks: the capacity (R7, R183), the first reset (R303),
the index registers (R62) and the code registers (R105). -/
def asyncGuard (s : State) : Option Refusal :=
  firstRefusal
    [(!s.async.capOk, .badCapacity), (!s.async.up, .notReset), (!s.async.ring.inRange, .corruptIndex),
      (!s.async.codesOk, .corruptCode)]

/-- What every operation and handler run of the transport controller but UART_INIT checks: the capacities
(R7, R10), the first UART_INIT (R303) and the index registers (R62). -/
def uartGuard (s : State) : Option Refusal :=
  firstRefusal
    [(!(s.uart.txq.capOk && s.uart.rxq.capOk), .badCapacity), (!s.uart.irqEnabled, .notReset),
      (!(s.uart.txq.inRange && s.uart.rxq.inRange), .corruptIndex)]

/-- FG is one thread: a transaction is presented only when none is in progress (R310, U8). -/
def fgGuard (s : State) : Option Refusal := firstRefusal [(decide (s.uart.fg ≠ .idle), .fgBusy)]

/-! ### `flag_sync2` (R205 to R207) -/

/-- One rising edge of the core clock at a `flag_sync2` (R205). -/
def Crossing.edge (clr drawNew : Bool) (c : Crossing) : Crossing :=
  if clr then { c with f1 := false, f2 := false, fresh := false }
  else { c with f2 := c.f1, f1 := sample c.fresh c.old c.cond drawNew, fresh := false }

/-- The core clears the condition: the flag falls, not as a racing change, and `clr` is 1 at the same edge
(R207, R249). `s_prev` takes the value before that change, 1, and stays where the flag was 0 already (R33). -/
def Crossing.clear (c : Crossing) : Crossing := { c.edge true true with cond := false, old := c.cond || c.old }

/-- The hardware sets the condition: a fresh change if the flag was 0 (R194, R249). A flag that is 1 already
does not change, and its freshness is left alone, which admits more runs (log 11). -/
def Crossing.rise (c : Crossing) : Crossing :=
  if c.cond then c else { c with cond := true, old := false, fresh := true }

/-- UART_INIT's part in the request path (R231): the stages to 0. -/
def Crossing.zeroStages (c : Crossing) : Crossing := { c with f1 := false, f2 := false }

/-! ### The boundary functions (R241) -/

/-- `write_output_register(b)`: `out_reg ← b`, `tx_cond ← 0`, refused while `out_reg` holds a byte (R245). -/
def writeOutputRegister (b : Byte) (s : State) : Result :=
  match s.uart.outReg with
  | some _ => .refused .outputBusy
  | none => .next { s with uart := { s.uart with outReg := some b, tx := s.uart.tx.clear } }

/-- `output_register_empty_interrupt_pending()`: `tx_cond` as the core sees it. -/
def outputRegisterEmptyInterruptPending (s : State) : Bool := s.txReq

/-- `output_register_empty_interrupt_clear()`: `tx_cond ← 0`. -/
def outputRegisterEmptyInterruptClear (s : State) : State :=
  { s with uart := { s.uart with tx := s.uart.tx.clear } }

/-- `read_input_register()`: the byte is `in_reg`; `rx_cond ← 0`; refused while `rx_cond` is 0 (R242). -/
def readInputRegister (s : State) (go : Byte → State → Result) : Result :=
  if s.uart.rx.cond then go s.uart.inReg { s with uart := { s.uart with rx := s.uart.rx.clear } }
  else .refused .inputEmpty

/-- `input_register_full_interrupt_pending()`: `rx_cond` as the core sees it. -/
def inputRegisterFullInterruptPending (s : State) : Bool := s.rxReq

/-- `input_register_full_interrupt_clear()`: `rx_cond ← 0`; no rule calls it. -/
def inputRegisterFullInterruptClear (s : State) : State :=
  { s with uart := { s.uart with rx := s.uart.rx.clear } }

/-! ### The response port (R98, R99): where an operation of FG returns, an error included (R260) -/

/-- FG's operation ends with an answer and no byte: `tres` takes its code, `rdata` is unspecified (U3). -/
def respond (a : Answer) (s : State) : State :=
  { s with
    uart := { s.uart with tres := a.code, rdata := Config.freeByte s.free, fg := .idle }
    free := s.free + 1 }

/-- RECEIVE ends with a byte: `tres ← 0`, `rdata ← b` (R234). -/
def respondByte (b : Byte) (s : State) : State :=
  { s with uart := { s.uart with tres := Answer.ok.code, rdata := b, fg := .idle } }

/-! ### Taking an interrupt (R267, R269, R270) -/

/-- A handler run: enabled iff interrupts are enabled, which `uartGuard` checks, and the request line is 1
(R267). The body is one atomic step; nothing is saved on entry and nothing restored on return (R269, R270). -/
def takeInterrupt (pending : Bool) (body : State → Result) (s : State) : Result :=
  guarded (uartGuard s) (if pending then body s else .refused .irqNotEnabled)

end Sys2Proof.Machine
end

