-- ==== Sys2Proof/Machine/AsyncFifo.lean ====
section
/-! DEFINITION. The operations of `async_fifo` (42_async_fifo_cdc.md): edges of `wclk` and of `rclk`, one at a
time (R195), and the asynchronous reset. -/

namespace Sys2Proof.Machine

/-- One rising edge of `wclk` (R186, R187): the synchroniser of `head_gray` shifts at every edge; a request is
accepted iff `full_w` was 0 before the edge. -/
def wEdge (enq : Bool) (d : Byte) (s : State) : State :=
  let a := s.async
  let v := takeDraw a.headFresh s
  let accept := enq && !a.fullW
  let shifted :=
    { a with
      hs2 := a.hs1
      hs1 := sample a.headFresh a.headPrev a.headGray v.1
      headFresh := false
      tailFresh := false
      enqOut := { ok := accept, err := enq && a.fullW } }
  { v.2 with
    async :=
      if accept then
        { shifted with
          ring := a.ring.push d
          tailPrev := a.tailGray
          tailGray := gray a.ring.cap (next a.ring.cap a.ring.tail)
          tailFresh := true }
      else shifted }

/-- `dout = storage[head]`, unspecified while `empty_r` is 1 (R185). -/
def asyncDout (free : Nat) (a : AsyncFifo) : Byte :=
  if a.emptyR then Config.freeByte free else a.ring.cell .async a.ring.head

/-- One rising edge of `rclk` (R188, R189): the synchroniser of `tail_gray` shifts at every edge; a request is
accepted iff `empty_r` was 0 before the edge. -/
def rEdge (deq : Bool) (s : State) : State :=
  let a := s.async
  let v := takeDraw a.tailFresh s
  let accept := deq && !a.emptyR
  let shifted :=
    { a with
      ts2 := a.ts1
      ts1 := sample a.tailFresh a.tailPrev a.tailGray v.1
      tailFresh := false
      headFresh := false
      deqOut := { ok := accept, err := deq && a.emptyR, dout := asyncDout v.2.free a } }
  { v.2 with
    async :=
      if accept then
        { shifted with
          ring := a.ring.pop
          headPrev := a.headGray
          headGray := gray a.ring.cap (next a.ring.cap a.ring.head)
          headFresh := true }
      else shifted
    free := v.2.free + 1 }

/-- An edge while `arst` is held at 1 leaves every register at its reset value, with the outputs `held` gives; a
request at such an edge is refused (R190, R321). -/
def unlessHeld (request : Bool) (held edge : State → State) (s : State) : Result :=
  if s.async.arst then (if request then .refused .resetUnderTraffic else .next (held s)) else .next (edge s)

/-- A `wclk` edge under a held `arst`: nothing changes (R190). -/
def heldWEdge (s : State) : State := s

/-- An `rclk` edge under a held `arst`: no register changes (R190), and `dout` is unspecified, since `empty_r` is 1
(R185, U3). -/
def heldREdge (s : State) : State :=
  { s with
    async := { s.async with deqOut := { s.async.deqOut with dout := Config.freeByte s.free } }
    free := s.free + 1 }

/-- W.NOP (R186). -/
def execWNop (s : State) : Result := guarded (asyncGuard s) (unlessHeld false heldWEdge (wEdge false 0) s)

/-- W.ENQ d (R187). -/
def execWEnq (d : Byte) (s : State) : Result := guarded (asyncGuard s) (unlessHeld true heldWEdge (wEdge true d) s)

/-- R.NOP (R188). -/
def execRNop (s : State) : Result := guarded (asyncGuard s) (unlessHeld false heldREdge (rEdge false) s)

/-- R.DEQ (R189). -/
def execRDeq (s : State) : Result := guarded (asyncGuard s) (unlessHeld true heldREdge (rEdge true) s)

/-- `arst` rises: every register of both domains takes its reset value, storage is not written (R190); `dout` is
unspecified from then on, since `empty_r` is 1 (R185, U3). -/
def asyncReset (arst : Bool) (free : Nat) (a : AsyncFifo) : AsyncFifo :=
  let g := gray a.ring.cap 0
  { a with
    up := true
    arst := arst
    ring := a.ring.init
    tailGray := g
    hs1 := g
    hs2 := g
    headGray := g
    ts1 := g
    ts2 := g
    tailPrev := g
    tailFresh := false
    headPrev := g
    headFresh := false
    enqOut := EnqOut.none
    deqOut := { ok := false, err := false, dout := Config.freeByte free } }

/-- The rise of `arst`, the level it keeps afterwards given (R190, R301). -/
def raiseReset (arst : Bool) (s : State) : Result :=
  guarded (firstRefusal [(!s.async.capOk, .badCapacity)])
    (.next { s with async := asyncReset arst s.free s.async, free := s.free + 1 })

/-- A.INIT: one event, the rise of `arst` and its fall (R190, log 9). -/
def execAInit (s : State) : Result := raiseReset false s

/-- A.RUN: `arst` is 0; no effect on a block that runs, and the release of an `arst` that was held (R190). -/
def execARun (s : State) : Result :=
  guarded (asyncGuard s) (.next { s with async := { s.async with arst := false } })

end Sys2Proof.Machine
end

