-- ==== Sys2Proof/Machine/Queries.lean ====
section
/-! DEFINITION. The two queries (R122, R123): the client reads one bit of a status word (R97); no state of a
block changes. -/

namespace Sys2Proof.Machine

/-- What a query of a status word checks: the block that drives it. -/
def statusGuard (p : StatusPort) (s : State) : Option Refusal :=
  match p with
  | .sync => syncGuard s
  | .asyncWrite => asyncGuard s
  | .asyncRead => asyncGuard s

/-- The query's answer (R97). -/
def answerQuery (b : Bool) (s : State) : State := { s with query := b }

/-- IS_EMPTY: bit 0 of the status word (R122). -/
def execIsEmpty (p : StatusPort) (s : State) : Result :=
  guarded (statusGuard p s) (.next (answerQuery (s.statusEmpty p) s))

/-- IS_FULL: bit 1 of the status word (R123). -/
def execIsFull (p : StatusPort) (s : State) : Result :=
  guarded (statusGuard p s) (.next (answerQuery (s.statusFull p) s))

end Sys2Proof.Machine
end

