-- ==== Sys2Proof/Machine/SyncFifo.lean ====
section
/-! DEFINITION. The five operations of `sync_fifo` (41_sync_fifo.md): one clock edge, everything decided on
pre-edge values (R150). -/

namespace Sys2Proof.Machine

/-- `dout = storage[head]`; unspecified while the buffer is empty, and before the first reset (R151, R159). -/
def syncDout (s : State) : Byte :=
  if s.sync.up && s.sync.ring.inRange && !s.sync.ring.empty then s.sync.ring.cell .sync s.sync.ring.head
  else Config.freeByte s.free

/-- One edge with `init == 0` (R151 to R155): each half is decided on the pre-edge flags and moves its own
index only. -/
def syncEdge (enq deq : Bool) (d : Byte) (s : State) : State :=
  let r := s.sync.ring
  let r1 := if enq && !r.full then r.push d else r
  let r2 := if deq && !r.empty then r1.pop else r1
  { s with
    sync :=
      { s.sync with
        ring := r2
        enqOut := { ok := enq && !r.full, err := enq && r.full }
        deqOut := { ok := deq && !r.empty, err := deq && r.empty, dout := syncDout s } }
    free := s.free + 1 }

/-- NOP: no register changes (R152). -/
def execNop (s : State) : Result := guarded (syncGuard s) (.next (syncEdge false false 0 s))

/-- ENQ d: ENQUEUE at one edge (R153). -/
def execEnq (d : Byte) (s : State) : Result := guarded (syncGuard s) (.next (syncEdge true false d s))

/-- DEQ: DEQUEUE at one edge; the byte returned is `dout` (R154). -/
def execDeq (s : State) : Result := guarded (syncGuard s) (.next (syncEdge false true 0 s))

/-- ENQDEQ d: both at one edge, each on the pre-edge flags (R155). -/
def execEnqdeq (d : Byte) (s : State) : Result := guarded (syncGuard s) (.next (syncEdge true true d s))

/-- INIT: both indices to 0, nothing stored, all four result wires 0 (R156); the reset event (R300). -/
def execInit (s : State) : Result :=
  guarded (firstRefusal [(!s.sync.ring.capOk, .badCapacity)])
    (.next
      { s with
        sync :=
          { up := true, ring := s.sync.ring.init, enqOut := EnqOut.none,
            deqOut := { ok := false, err := false, dout := syncDout s } }
        free := s.free + 1 })

end Sys2Proof.Machine
end

