-- ==== Sys2Proof/Machine/Transport.lean ====
section
/-! DEFINITION. The transport controller (43_transport_controller.md): the foreground operations as whole
operations, run with nothing between their micro-steps (log 14; Machine/Foreground.lean has the micro-steps),
the two handler runs, and the steps of the hardware register layer and of the core clock. -/

namespace Sys2Proof.Machine

/-- The boundary as R231 and R302 assume it at the first UART_INIT. -/
def Transport.boundaryIdle (u : Transport) : Bool := u.outReg.isNone && !u.tx.cond && !u.rx.cond

/-- The state UART_INIT leaves, but for its answer (R231). At the first one the auxiliaries of both crossings
and the observation lists take their reset values too (R40); at a later one they stay (log 12). -/
def Transport.initialised (u : Transport) : Transport :=
  { u with
    txq := u.txq.init
    rxq := u.rxq.init
    txState := .idle
    tx := if u.irqEnabled then u.tx.zeroStages else Crossing.reset
    rx := if u.irqEnabled then u.rx.zeroStages else Crossing.reset
    wireTx := if u.irqEnabled then u.wireTx else []
    wireRx := if u.irqEnabled then u.wireRx else []
    irqEnabled := true }

/-- What UART_INIT checks (R231): the capacities, that the transmitter is Idle or this is the first one, and
at the first one the assumed boundary. -/
def uartInitGuard (s : State) : Option Refusal :=
  firstRefusal
    [(!(s.uart.txq.capOk && s.uart.rxq.capOk), .badCapacity),
      (s.uart.irqEnabled && decide (s.uart.txState = .transmitting), .uartInitWhileTransmitting),
      (!s.uart.irqEnabled && !s.uart.boundaryIdle, .boundaryNotIdle)]

/-- UART_INIT's one atomic step (R231). -/
def uartInitBody (s : State) : Result :=
  guarded (uartInitGuard s) (.next (respond .ok { s with uart := s.uart.initialised }))

/-- UART_INIT (R231). -/
def execUartInit (s : State) : Result := guarded (fgGuard s) (uartInitBody s)

/-- P1 to P7 with nothing between them (R233, corner case 5). -/
def primeBody (s : State) : Result :=
  match s.uart.txState with
  | .transmitting => .next (respond .ok s)
  | .idle =>
    match s.uart.txq.dequeue .tx with
    | none => .next (respond .ok s)
    | some (b, q) =>
      andThen (writeOutputRegister b { s with uart := { s.uart with txq := q, txState := .transmitting } })
        fun t => .next (respond .ok t)

/-- SEND d: ENQUEUE(TXQ, d); on success the priming test on `tx_state`, made after the enqueue (R232). -/
def execSend (d : Byte) (s : State) : Result :=
  guarded (fgGuard s) <| guarded (uartGuard s) <|
    match s.uart.txq.enqueue d with
    | none => .next (respond .bufferFull s)
    | some q => primeBody { s with uart := { s.uart with txq := q } }

/-- PRIME (R233). -/
def execPrime (s : State) : Result := guarded (fgGuard s) <| guarded (uartGuard s) <| primeBody s

/-- RECEIVE: DEQUEUE(RXQ) (R234). -/
def execReceive (s : State) : Result :=
  guarded (fgGuard s) <| guarded (uartGuard s) <|
    match s.uart.rxq.dequeue .rx with
    | none => .next (respond .bufferEmpty s)
    | some (b, q) => .next (respondByte b { s with uart := { s.uart with rxq := q } })

/-- T.NOP: nothing changes, `tres = 0` (R248). -/
def execTNop (s : State) : Result := guarded (fgGuard s) <| guarded (uartGuard s) <| .next (respond .ok s)

/-- `top = 0b101` is refused (R106, R248). -/
def execTReserved5 (_ : State) : Result := .refused .reservedTop

/-- `top = 0b110` is refused (R106, R248). -/
def execTReserved6 (_ : State) : Result := .refused .reservedTop

/-- `top = 0b111` is refused (R106, R248). -/
def execTReserved7 (_ : State) : Result := .refused .reservedTop

/-- The body of TXH (R235): one byte of TXQ to the output register, or, with TXQ empty, the condition cleared
and the pause recorded. -/
def txHandler (s : State) : Result :=
  match s.uart.txq.dequeue .tx with
  | some (b, q) => writeOutputRegister b { s with uart := { s.uart with txq := q } }
  | none =>
    let t := outputRegisterEmptyInterruptClear s
    .next { t with uart := { t.uart with txState := .idle } }

/-- TXIRQ: one run of TXH (R235). -/
def execTxIrq (s : State) : Result := takeInterrupt (outputRegisterEmptyInterruptPending s) txHandler s

/-- The body of RXH (R236): the register is read first, always; a byte that finds RXQ full is dropped. -/
def rxHandler (s : State) : Result :=
  readInputRegister s fun b t =>
    match t.uart.rxq.enqueue b with
    | none => .next t
    | some q => .next { t with uart := { t.uart with rxq := q } }

/-- RXIRQ: one run of RXH (R236). -/
def execRxIrq (s : State) : Result := takeInterrupt (inputRegisterFullInterruptPending s) rxHandler s

/-- HW_TX_DONE: the hardware takes the byte of `out_reg` (R243). -/
def execHwTxDone (s : State) : Result :=
  match s.uart.outReg with
  | none => .refused .nothingToTransmit
  | some b =>
    .next
      { s with
        uart := { s.uart with wireTx := s.uart.wireTx ++ [b], outReg := none, tx := s.uart.tx.rise } }

/-- A byte enters `in_reg` and the condition rises (R244). -/
def deliver (b : Byte) (s : State) : State :=
  { s with
    uart := { s.uart with inReg := b, rx := s.uart.rx.rise, wireRx := s.uart.wireRx ++ [b] } }

/-- A byte arrives and is lost: it is seen on the line and `in_reg` keeps the unread byte (R246, D8). -/
def loseArrival (b : Byte) (s : State) : State :=
  { s with uart := { s.uart with wireRx := s.uart.wireRx ++ [b] } }

/-- A byte that arrives while the previous one is unread (R246): the four treatments of RX_OVERRUN. -/
def overrun (b : Byte) (s : State) : Result :=
  match s.params.rxOverrun with
  | .none => .refused .rxOverrun
  | .keepOld => .next (loseArrival b s)
  | .overwrite => .next (deliver b s)
  | .either =>
    let v := takeDraw true s
    .next (if v.1 then deliver b v.2 else loseArrival b v.2)

/-- HW_RX_BYTE b: enabled from the first UART_INIT on; with `rx_cond == 1` it is an overrun (R244, R246). -/
def execHwRxByte (b : Byte) (s : State) : Result :=
  guarded (firstRefusal [(!s.uart.irqEnabled, .notReset)])
    (if s.uart.rx.cond then overrun b s else .next (deliver b s))

/-- One core clock edge of both flag synchronisers with `clr == 0`, the draw of `tx` before that of `rx`
(R249, R205). -/
def clkEdge (s : State) : State :=
  let v := takeDraw s.uart.tx.fresh s
  let w := takeDraw s.uart.rx.fresh v.2
  { w.2 with uart := { s.uart with tx := s.uart.tx.edge false v.1, rx := s.uart.rx.edge false w.1 } }

/-- CLK: always enabled with FLAG_SYNC = 2; with FLAG_SYNC = 0 there is no such step (R249, R250). -/
def execClk (s : State) : Result :=
  match s.params.flagSync with
  | .none => .refused .noClkStep
  | .two => .next (clkEdge s)

end Sys2Proof.Machine
end

