-- ==== Sys2Proof/Machine/Dispatch.lean ====
section
/-! DEFINITION. The meaning of every instruction: one arm per constructor of Instr. -/

namespace Sys2Proof.Machine

def exec (i : Instr) (s : State) : Host.Outcome State Fault Refusal :=
  match i with
  | .nop => Sys2Proof.Machine.execNop s
  | .enq d => Sys2Proof.Machine.execEnq d s
  | .deq => Sys2Proof.Machine.execDeq s
  | .enqdeq d => Sys2Proof.Machine.execEnqdeq d s
  | .init => Sys2Proof.Machine.execInit s
  | .wNop => Sys2Proof.Machine.execWNop s
  | .wEnq d => Sys2Proof.Machine.execWEnq d s
  | .rNop => Sys2Proof.Machine.execRNop s
  | .rDeq => Sys2Proof.Machine.execRDeq s
  | .aRun => Sys2Proof.Machine.execARun s
  | .aInit => Sys2Proof.Machine.execAInit s
  | .isEmpty p => Sys2Proof.Machine.execIsEmpty p s
  | .isFull p => Sys2Proof.Machine.execIsFull p s
  | .tNop => Sys2Proof.Machine.execTNop s
  | .send d => Sys2Proof.Machine.execSend d s
  | .receive => Sys2Proof.Machine.execReceive s
  | .uartInit => Sys2Proof.Machine.execUartInit s
  | .prime => Sys2Proof.Machine.execPrime s
  | .tReserved5 => Sys2Proof.Machine.execTReserved5 s
  | .tReserved6 => Sys2Proof.Machine.execTReserved6 s
  | .tReserved7 => Sys2Proof.Machine.execTReserved7 s
  | .txIrq => Sys2Proof.Machine.execTxIrq s
  | .rxIrq => Sys2Proof.Machine.execRxIrq s
  | .hwTxDone => Sys2Proof.Machine.execHwTxDone s
  | .hwRxByte b => Sys2Proof.Machine.execHwRxByte b s
  | .clk => Sys2Proof.Machine.execClk s

end Sys2Proof.Machine
end

