-- ==== Sys2Proof/Machine/Foreground.lean ====
section
/-! DEFINITION. FG's operations as the micro-steps between which handler runs and hardware steps can fall
(R67, R69, R70, R232 to R234): the layer (b) of R3. -/

namespace Sys2Proof.Machine

/-- FG's progress moves on; nothing else changes. -/
def fgGoto (f : Fg) (s : State) : State := { s with uart := { s.uart with fg := f } }

/-- FG takes up a transaction: the micro-step it will take first. A command of another port is none of FG's. -/
def fgStart (i : Instr) : Option Fg :=
  match i with
  | .tNop => some .nop
  | .uartInit => some .uartInit
  | .send d => some (.sendE1 d)
  | .prime => some .primeP1
  | .receive => some .recvD1
  | .tReserved5 => none
  | .tReserved6 => none
  | .tReserved7 => none
  | .nop => none
  | .enq _ => none
  | .deq => none
  | .enqdeq _ => none
  | .init => none
  | .wNop => none
  | .wEnq _ => none
  | .rNop => none
  | .rDeq => none
  | .aRun => none
  | .aInit => none
  | .isEmpty _ => none
  | .isFull _ => none
  | .txIrq => none
  | .rxIrq => none
  | .hwTxDone => none
  | .hwRxByte _ => none
  | .clk => none

/-- FG presents a transaction to be run micro-step by micro-step (R250); a reserved `top` is refused (R106). Taking it
up checks nothing more: before the first UART_INIT it is refused at its first micro-step (R303), DESIGN CHOICE
(log 19). -/
def startForeground (i : Instr) (s : State) : Result :=
  guarded (fgGuard s)
    (match fgStart i with
    | some f => .next (fgGoto f s)
    | none => .refused .reservedTop)

/-- E2: the producer's check with the `h` read at E1 (R69). -/
def sendCheck (d : Byte) (h : Nat) (s : State) : State :=
  if next s.uart.txq.cap s.uart.txq.tail = h then respond .bufferFull s else fgGoto (.sendE3 d) s

/-- E3: `storage[t] ← b` (R69). -/
def sendStore (d : Byte) (s : State) : State :=
  { s with
    uart :=
      { s.uart with
        txq := { s.uart.txq with storage := Memory.write s.uart.txq.storage s.uart.txq.tail d }
        fg := .sendE4 } }

/-- E4: `tail ← (t + 1) mod N` (R69). -/
def sendAdvance (s : State) : State :=
  { s with
    uart :=
      { s.uart with
        txq :=
          { s.uart.txq with
            tail := next s.uart.txq.cap s.uart.txq.tail
            ghostT := s.uart.txq.ghostT + 1 }
        fg := .sendS5 } }

/-- S6: prime iff the state read at S5 was Idle (R232). -/
def sendTest (st : TxState) (s : State) : State :=
  match st with
  | .idle => fgGoto .primeP2 s
  | .transmitting => respond .ok s

/-- P1: nothing to do while Transmitting (R233). -/
def primeTest (s : State) : State :=
  match s.uart.txState with
  | .idle => fgGoto .primeP2 s
  | .transmitting => respond .ok s

/-- The second micro-step of a DEQUEUE, the check with the `t` read at the first (R70). -/
def primeCheck (t : Nat) (s : State) : State :=
  if s.uart.txq.head = t then respond .ok s else fgGoto .primeP4 s

/-- The last micro-step of PRIME's DEQUEUE: `head ← (h + 1) mod N` (R70). -/
def primeAdvance (b : Byte) (s : State) : State :=
  { s with uart := { s.uart with txq := s.uart.txq.pop, fg := .primeP6 b } }

/-- P6: `tx_state ← Transmitting`, before the write to the hardware (R233). -/
def primeMark (b : Byte) (s : State) : State :=
  { s with uart := { s.uart with txState := .transmitting, fg := .primeP7 b } }

/-- D2 of RECEIVE (R70, R234). -/
def receiveCheck (t : Nat) (s : State) : State :=
  if s.uart.rxq.head = t then respond .bufferEmpty s else fgGoto .recvD3 s

/-- D4 of RECEIVE (R70, R234). -/
def receiveAdvance (b : Byte) (s : State) : State :=
  respondByte b { s with uart := { s.uart with rxq := s.uart.rxq.pop } }

/-- FG's next micro-step, the checks of `uartGuard` made. -/
def fgMicroStep (s : State) : Result :=
  match s.uart.fg with
  | .idle => .refused .fgIdle
  | .nop => .next (respond .ok s)
  | .uartInit => uartInitBody s
  | .sendE1 d => .next (fgGoto (.sendE2 d s.uart.txq.head) s)
  | .sendE2 d h => .next (sendCheck d h s)
  | .sendE3 d => .next (sendStore d s)
  | .sendE4 => .next (sendAdvance s)
  | .sendS5 => .next (fgGoto (.sendS6 s.uart.txState) s)
  | .sendS6 st => .next (sendTest st s)
  | .primeP1 => .next (primeTest s)
  | .primeP2 => .next (fgGoto (.primeP3 s.uart.txq.tail) s)
  | .primeP3 t => .next (primeCheck t s)
  | .primeP4 => .next (fgGoto (.primeP5 (s.uart.txq.cell .tx s.uart.txq.head)) s)
  | .primeP5 b => .next (primeAdvance b s)
  | .primeP6 b => .next (primeMark b s)
  | .primeP7 b => andThen (writeOutputRegister b s) fun t => .next (respond .ok t)
  | .recvD1 => .next (fgGoto (.recvD2 s.uart.rxq.tail) s)
  | .recvD2 t => .next (receiveCheck t s)
  | .recvD3 => .next (fgGoto (.recvD4 (s.uart.rxq.cell .rx s.uart.rxq.head)) s)
  | .recvD4 b => .next (receiveAdvance b s)

/-- What a micro-step checks: UART_INIT is the reset event and is not held to the first reset (R303). -/
def fgStepGuard (s : State) : Option Refusal :=
  match s.uart.fg with
  | .idle => none
  | .uartInit => none
  | _ => uartGuard s

/-- FG takes its next micro-step (R250). -/
def foregroundStep (s : State) : Result := guarded (fgStepGuard s) (fgMicroStep s)

/-- FG's micro-steps taken one after another with nothing between them, until its operation ends or `fuel`
runs out. -/
def runForeground : Nat → State → Result
  | 0, s => .next s
  | k + 1, s => if s.uart.fg = .idle then .next s else andThen (foregroundStep s) (runForeground k)

end Sys2Proof.Machine
end

