-- ==== Sys2Proof/Machine/Events.lean ====
section
/-! DEFINITION. The events the outside presents (R195, R250): taking one, and placing one so that the next
step takes it (log 3). -/

namespace Sys2Proof.Machine

/-- The oldest event, and the state without it. -/
def fetch (s : State) : Option (Event × State) :=
  match s.pending with
  | [] => none
  | e :: rest => some (e, { s with pending := rest })

/-- What an event does. A word of format E that enables no handler run is taken and changes nothing (R101, R106). -/
def runEvent (e : Event) (s : State) : Result :=
  match e with
  | .word p w =>
    match decode p w with
    | .command i => exec i s
    | .noRun => .next s
    | .tooWide => .refused .wordTooWide
  | .startFg w =>
    match decode .t w with
    | .command i => startForeground i s
    | .noRun => .next s
    | .tooWide => .refused .wordTooWide
  | .fgStep => foregroundStep s
  | .holdReset => raiseReset true s

/-- A request line at 1, with the condition behind it (R249). -/
def Crossing.raised (c : Crossing) : Crossing := { c with cond := true, f1 := true, f2 := true }

/-- The request lines as the format E word says they are (R101): the word is the lines, so a bit that is 1 is
a line at 1. -/
def driveRequests (w : Nat) (u : Transport) : Transport :=
  { u with
    tx := if bits w 0 0 = 1 then u.tx.raised else u.tx
    rx := if bits w 1 1 = 1 then u.rx.raised else u.rx }

/-- A word placed on a port, to be taken by the next step; a format E word also is the request lines. -/
def placeWord (s : State) (p : Port) (w : Nat) : State :=
  let t := { s with pending := .word p w :: s.pending }
  match p with
  | .e _ => { t with uart := driveRequests w t.uart }
  | _ => t

/-- A bare table word placed on the port `tablePort` takes it to stand on (log 8). -/
def placeTableWord (s : State) (nbits w : Nat) : State :=
  match tablePort nbits w with
  | some p => placeWord s p w
  | none => s

end Sys2Proof.Machine
end

