-- ==== Sys2Proof/Safety.lean ====
section
/-! DEFINITION. The terms claims are stated in: when a block is ready, what an accepted enqueue or dequeue
does to an instance, which parts of the machine a step leaves alone, and the invariants of the spec
(R21, R27, R129, R197, R239). -/

namespace Sys2Proof.Machine

/-! ### One ring buffer instance -/

/-- The storage is in canonical form and lists only cells `0 .. N−1` (R60, R62). -/
def Ring.StorageOk (r : Ring) : Prop := Memory.wf r.storage ∧ ∀ c ∈ r.storage, c.1 < r.cap

/-- The ghost counts explain the indices, and at most N−1 elements are outstanding (R27). -/
def Ring.GhostOk (r : Ring) : Prop :=
  r.head = r.ghostH % r.cap ∧ r.tail = r.ghostT % r.cap ∧ r.ghostH ≤ r.ghostT ∧ r.ghostT ≤ r.ghostH + (r.cap - 1)

/-- Every cell of the live range has been written (R129). -/
def Ring.LiveWritten (r : Ring) : Prop :=
  ∀ k < r.occ, (Memory.read r.storage ((r.head + k) % r.cap)).isSome = true

/-- An instance as it is between operations after its INIT (R21, R27, R129). -/
def Ring.Inv (r : Ring) : Prop :=
  2 ≤ r.cap ∧ r.inRange = true ∧ r.StorageOk ∧ r.GhostOk ∧ r.LiveWritten

/-- An accepted ENQUEUE of `b` (R124): cell `tail` holds `b`, every other cell reads as before, `tail`
advances, `head` and its count stay. -/
def Ring.Accepts (q : FifoId) (r : Ring) (b : Byte) (r' : Ring) : Prop :=
  r'.cap = r.cap ∧ r'.head = r.head ∧ r'.ghostH = r.ghostH ∧
    r'.tail = (r.tail + 1) % r.cap ∧ r'.ghostT = r.ghostT + 1 ∧
    r'.cell q r.tail = b ∧ ∀ a, a ≠ r.tail → r'.cell q a = r.cell q a

/-- An accepted DEQUEUE (R125): `head` advances; storage, `tail` and its count stay. -/
def Ring.Releases (r r' : Ring) : Prop :=
  r'.cap = r.cap ∧ r'.storage = r.storage ∧ r'.tail = r.tail ∧ r'.ghostT = r.ghostT ∧
    r'.head = (r.head + 1) % r.cap ∧ r'.ghostH = r.ghostH + 1

/-- INIT(Q) (R121): indices and ghost counts 0, storage not written. -/
def Ring.Flushed (r r' : Ring) : Prop :=
  r'.cap = r.cap ∧ r'.storage = r.storage ∧ r'.head = 0 ∧ r'.tail = 0 ∧ r'.ghostH = 0 ∧ r'.ghostT = 0

/-! ### The operations of a block, its reset event aside -/

/-- The operations of `sync_fifo` (R92, R97). -/
def syncCommands (d : Byte) : List Instr := [.nop, .enq d, .deq, .enqdeq d, .isEmpty .sync, .isFull .sync]

/-- The operations of `async_fifo` (R94 to R97). -/
def asyncCommands (d : Byte) : List Instr :=
  [.wNop, .wEnq d, .rNop, .rDeq, .aRun, .isEmpty .asyncWrite, .isEmpty .asyncRead, .isFull .asyncWrite,
    .isFull .asyncRead]

/-- The operations of FG (R100). -/
def fgCommands (d : Byte) : List Instr := [.tNop, .send d, .receive, .prime]

/-- The handler runs (R101). -/
def handlerCommands : List Instr := [.txIrq, .rxIrq]

/-! ### Blocks that may be operated -/

/-- `sync_fifo` after its first reset, with a legal capacity and legal indices (R7, R62, R303). -/
def SyncReady (s : State) : Prop :=
  2 ≤ s.sync.ring.cap ∧ s.sync.up = true ∧ s.sync.ring.head < s.sync.ring.cap ∧ s.sync.ring.tail < s.sync.ring.cap

/-- `async_fifo` after its first reset, with an even capacity, legal indices and code words (R62, R105, R183). -/
def AsyncReady (s : State) : Prop :=
  2 ≤ s.async.ring.cap ∧ s.async.ring.cap % 2 = 0 ∧ s.async.up = true ∧
    s.async.ring.head < s.async.ring.cap ∧ s.async.ring.tail < s.async.ring.cap ∧
    ∀ g ∈ [s.async.tailGray, s.async.hs1, s.async.hs2, s.async.headGray, s.async.ts1, s.async.ts2,
        s.async.tailPrev, s.async.headPrev], ∃ i < s.async.ring.cap, g = gray s.async.ring.cap i

/-- The transport controller after the first UART_INIT, with legal capacities and indices (R7, R62, R303). -/
def UartReady (s : State) : Prop :=
  2 ≤ s.uart.txq.cap ∧ 2 ≤ s.uart.rxq.cap ∧ s.uart.irqEnabled = true ∧
    s.uart.txq.head < s.uart.txq.cap ∧ s.uart.txq.tail < s.uart.txq.cap ∧
    s.uart.rxq.head < s.uart.rxq.cap ∧ s.uart.rxq.tail < s.uart.rxq.cap

/-- The same, and FG has no operation in progress (R310). -/
def FgReady (s : State) : Prop := UartReady s ∧ s.uart.fg = .idle

/-! ### Frames: what a step of one block leaves alone -/

/-- Nothing outside `sync_fifo` changes; the free-value counter may advance. -/
def OnlySync (s t : State) : Prop :=
  t.async = s.async ∧ t.uart = s.uart ∧ t.query = s.query ∧ t.params = s.params ∧
    t.pending = s.pending ∧ t.draws = s.draws

/-- Nothing outside `async_fifo` changes; draws may be taken and the free-value counter may advance. -/
def OnlyAsync (s t : State) : Prop :=
  t.sync = s.sync ∧ t.uart = s.uart ∧ t.query = s.query ∧ t.params = s.params ∧ t.pending = s.pending

/-- Nothing outside the transport controller and its boundary changes; draws may be taken and the free-value
counter may advance. -/
def OnlyUart (s t : State) : Prop :=
  t.sync = s.sync ∧ t.async = s.async ∧ t.query = s.query ∧ t.params = s.params ∧ t.pending = s.pending

/-- The response port aside, nothing of the receive path changes (R230). -/
def RxPathSame (s t : State) : Prop :=
  t.uart.rxq = s.uart.rxq ∧ t.uart.inReg = s.uart.inReg ∧ t.uart.rx = s.uart.rx ∧ t.uart.wireRx = s.uart.wireRx

/-- The response port aside, nothing of the transmit path changes (R230). -/
def TxPathSame (s t : State) : Prop :=
  t.uart.txq = s.uart.txq ∧ t.uart.txState = s.uart.txState ∧ t.uart.outReg = s.uart.outReg ∧
    t.uart.tx = s.uart.tx ∧ t.uart.wireTx = s.uart.wireTx

/-! ### Crossings -/

/-- What a sample may have returned (R193): the current value, or, racing, the one before its latest change. -/
def Sampled {α : Type} (fresh : Bool) (old cur v : α) : Prop := v = cur ∨ (fresh = true ∧ v = old)

/-- The main invariant of `async_fifo` (R197) with what it rests on (R182, R196): the counts of the stages
exist, they are in order and less than N apart, every register is the code or the residue of its count, and
a fresh change is one step that the other side has not sampled. -/
def AsyncFifo.Cdc (a : AsyncFifo) : Prop :=
  ∃ hs2 hs1 ts2 ts1 : Nat,
    hs2 ≤ hs1 ∧ hs1 ≤ a.ring.ghostH ∧ a.ring.ghostH ≤ ts2 ∧ ts2 ≤ ts1 ∧ ts1 ≤ a.ring.ghostT ∧
      a.ring.ghostT ≤ hs2 + (a.ring.cap - 1) ∧
    a.ring.head = a.ring.ghostH % a.ring.cap ∧ a.ring.tail = a.ring.ghostT % a.ring.cap ∧
    a.headGray = gray a.ring.cap a.ring.head ∧ a.tailGray = gray a.ring.cap a.ring.tail ∧
    a.hs2 = gray a.ring.cap (hs2 % a.ring.cap) ∧ a.hs1 = gray a.ring.cap (hs1 % a.ring.cap) ∧
    a.ts2 = gray a.ring.cap (ts2 % a.ring.cap) ∧ a.ts1 = gray a.ring.cap (ts1 % a.ring.cap) ∧
    (∃ i < a.ring.cap, a.headPrev = gray a.ring.cap i) ∧ (∃ i < a.ring.cap, a.tailPrev = gray a.ring.cap i) ∧
    (a.headFresh = true → hs1 + 1 ≤ a.ring.ghostH ∧ a.headPrev = gray a.ring.cap ((a.ring.ghostH - 1) % a.ring.cap)) ∧
    (a.tailFresh = true → ts1 + 1 ≤ a.ring.ghostT ∧ a.tailPrev = gray a.ring.cap ((a.ring.ghostT - 1) % a.ring.cap))

/-- A condition flag's request path (R249): a stage at 1 means the condition is 1, and a fresh change is a
rise. -/
def Crossing.Inv (c : Crossing) : Prop :=
  (c.f1 = true → c.cond = true) ∧ (c.f2 = true → c.cond = true) ∧ (c.fresh = true → c.cond = true ∧ c.old = false)

/-- What every edge of `wclk` does with the crossing of `head_gray` (R186, R187, R192 to R194), and what it
leaves alone in the read domain. -/
def WShifts (s t : State) : Prop :=
  t.async.hs2 = s.async.hs1 ∧
    Sampled s.async.headFresh s.async.headPrev s.async.headGray t.async.hs1 ∧
    (∀ d ds, s.async.headFresh = true → s.draws = d :: ds →
      t.async.hs1 = (if d then s.async.headGray else s.async.headPrev) ∧ t.draws = ds) ∧
    (s.async.headFresh = false → t.draws = s.draws) ∧
    t.async.headFresh = false ∧ t.async.headPrev = s.async.headPrev ∧ t.async.headGray = s.async.headGray ∧
    t.async.ts1 = s.async.ts1 ∧ t.async.ts2 = s.async.ts2 ∧ t.async.deqOut = s.async.deqOut ∧
    t.async.up = s.async.up ∧ t.async.arst = s.async.arst

/-- What every edge of `rclk` does with the crossing of `tail_gray` (R188, R189, R192 to R194), and what it
leaves alone in the write domain. -/
def RShifts (s t : State) : Prop :=
  t.async.ts2 = s.async.ts1 ∧
    Sampled s.async.tailFresh s.async.tailPrev s.async.tailGray t.async.ts1 ∧
    (∀ d ds, s.async.tailFresh = true → s.draws = d :: ds →
      t.async.ts1 = (if d then s.async.tailGray else s.async.tailPrev) ∧ t.draws = ds) ∧
    (s.async.tailFresh = false → t.draws = s.draws) ∧
    t.async.tailFresh = false ∧ t.async.tailPrev = s.async.tailPrev ∧ t.async.tailGray = s.async.tailGray ∧
    t.async.hs1 = s.async.hs1 ∧ t.async.hs2 = s.async.hs2 ∧ t.async.enqOut = s.async.enqOut ∧
    t.async.up = s.async.up ∧ t.async.arst = s.async.arst

/-- Every register of both domains of `async_fifo` at its reset value (R40, R190). -/
def AsyncFifo.AtReset (a : AsyncFifo) : Prop :=
  a.up = true ∧ a.ring.head = 0 ∧ a.ring.tail = 0 ∧ a.ring.ghostH = 0 ∧ a.ring.ghostT = 0 ∧
    a.tailGray = gray a.ring.cap 0 ∧ a.headGray = gray a.ring.cap 0 ∧
    a.hs1 = gray a.ring.cap 0 ∧ a.hs2 = gray a.ring.cap 0 ∧
    a.ts1 = gray a.ring.cap 0 ∧ a.ts2 = gray a.ring.cap 0 ∧
    a.tailPrev = gray a.ring.cap 0 ∧ a.headPrev = gray a.ring.cap 0 ∧
    a.tailFresh = false ∧ a.headFresh = false

/-! ### The transport controller (R239) -/

/-- An operation of FG has ended with this answer; nothing outside the transport controller changed and no
draw was taken. -/
def FgAnswers (s t : State) (code : BitVec 2) : Prop :=
  t.uart.tres = code ∧ t.uart.fg = .idle ∧ t.uart.irqEnabled = true ∧ OnlyUart s t ∧ t.draws = s.draws

/-- The condition of a flag is cleared with both its stages, and not as a racing change (R207, R249); `s_prev` takes
the value before the change, if there was one (R33). -/
def Crossing.Clears (c c' : Crossing) : Prop :=
  c'.cond = false ∧ c'.f1 = false ∧ c'.f2 = false ∧ c'.fresh = false ∧
    (c.cond = true → c'.old = true) ∧ (c.cond = false → c'.old = c.old)

/-- What a handler run leaves alone: FG's progress, the response port, and everything outside the transport
controller (R269). -/
def HandlerFrame (s t : State) : Prop :=
  t.uart.fg = s.uart.fg ∧ t.uart.tres = s.uart.tres ∧ t.uart.rdata = s.uart.rdata ∧
    t.uart.irqEnabled = s.uart.irqEnabled ∧ OnlyUart s t ∧ t.draws = s.draws

/-- R239 items 1 to 4, with FG between operations or inside one, and what `Transmitting` means (R34): a byte is in
the output register, or its completion is pending, or FG is about to write one (R233, between P6 and P7). -/
def Transport.BoundaryInv (u : Transport) : Prop :=
  u.tx.Inv ∧ u.rx.Inv ∧ (u.txState = .idle → u.outReg = none ∧ u.tx.cond = false) ∧
    (u.tx.cond = true → u.outReg = none ∧ u.txState = .transmitting) ∧
    (u.outReg ≠ none → u.tx.cond = false ∧ u.txState = .transmitting) ∧
    (u.txState = .transmitting → u.outReg ≠ none ∨ u.tx.cond = true ∨ ∃ b, u.fg = .primeP7 b)

/-- At most one byte is outstanding. -/
def Ring.AtMostOne (r : Ring) : Prop := r.empty = true ∨ next r.cap r.head = r.tail

/-- What holds of FG's locals and of the transmit path at each micro-step boundary: R239 item 5 between
operations, its exception inside SEND, and R233's "before the write". -/
def Transport.FgInv (u : Transport) : Prop :=
  match u.fg with
  | .idle => u.txState = .idle → u.txq.empty = true
  | .nop => u.txState = .idle → u.txq.empty = true
  | .uartInit => u.txState = .idle → u.txq.empty = true
  | .sendE1 _ => u.txState = .idle → u.txq.empty = true
  | .sendE2 _ h =>
    (u.txState = .idle → u.txq.empty = true) ∧
      ∃ n, n ≤ u.txq.ghostH ∧ u.txq.ghostT ≤ n + (u.txq.cap - 1) ∧ h = n % u.txq.cap
  | .sendE3 _ => (u.txState = .idle → u.txq.empty = true) ∧ u.txq.full = false
  | .sendE4 =>
    (u.txState = .idle → u.txq.empty = true) ∧ u.txq.full = false ∧
      (Memory.read u.txq.storage u.txq.tail).isSome = true
  | .sendS5 => u.txState = .idle → u.txq.AtMostOne
  | .sendS6 .idle => u.txState = .idle ∧ u.txq.AtMostOne
  | .sendS6 .transmitting => u.txState = .idle → u.txq.empty = true
  | .primeP1 => u.txState = .idle → u.txq.empty = true
  | .primeP2 => u.txState = .idle ∧ u.txq.AtMostOne
  | .primeP3 t => u.txState = .idle ∧ u.txq.AtMostOne ∧ t = u.txq.tail
  | .primeP4 => u.txState = .idle ∧ u.txq.AtMostOne ∧ u.txq.empty = false
  | .primeP5 b => u.txState = .idle ∧ u.txq.AtMostOne ∧ u.txq.empty = false ∧ b = u.txq.cell .tx u.txq.head
  | .primeP6 _ => u.txState = .idle ∧ u.txq.empty = true
  | .primeP7 _ => u.txState = .transmitting ∧ u.outReg = none ∧ u.tx.cond = false
  | .recvD1 => u.txState = .idle → u.txq.empty = true
  | .recvD2 t =>
    (u.txState = .idle → u.txq.empty = true) ∧
      ∃ n, u.rxq.ghostH ≤ n ∧ n ≤ u.rxq.ghostT ∧ t = n % u.rxq.cap
  | .recvD3 => (u.txState = .idle → u.txq.empty = true) ∧ u.rxq.empty = false
  | .recvD4 b =>
    (u.txState = .idle → u.txq.empty = true) ∧ u.rxq.empty = false ∧ b = u.rxq.cell .rx u.rxq.head

/-- The transport machine after the first UART_INIT (R239). -/
def Transport.Inv (u : Transport) : Prop := u.txq.Inv ∧ u.rxq.Inv ∧ u.BoundaryInv ∧ u.FgInv

/-! ### The whole machine -/

/-- `sync_fifo`'s part of the invariant every step keeps: a legal capacity and a canonical storage always, the
instance's own invariant from the first reset on (R7, R21, R27, R60, R129). -/
def State.SyncInv (s : State) : Prop :=
  2 ≤ s.sync.ring.cap ∧ s.sync.ring.StorageOk ∧ (s.sync.up = true → s.sync.ring.Inv)

/-- `async_fifo`'s part (R129, R183, R197). -/
def State.AsyncInv (s : State) : Prop :=
  2 ≤ s.async.ring.cap ∧ s.async.ring.cap % 2 = 0 ∧ s.async.ring.StorageOk ∧
    (s.async.up = true → s.async.Cdc ∧ s.async.ring.LiveWritten)

/-- While `rx_cond` is 1, `in_reg` is the last byte of `wire_rx` (R239 item 9, R244): where an arrival never meets an
unread byte, or overwrites it (R246). -/
def State.UnreadIsLast (s : State) : Prop :=
  s.params.rxOverrun = .none ∨ s.params.rxOverrun = .overwrite → s.uart.rx.cond = true →
    s.uart.wireRx.getLast? = some s.uart.inReg

/-- The transport controller's part (R239). -/
def State.UartInv (s : State) : Prop :=
  2 ≤ s.uart.txq.cap ∧ 2 ≤ s.uart.rxq.cap ∧ s.uart.txq.StorageOk ∧ s.uart.rxq.StorageOk ∧
    (s.uart.irqEnabled = true → s.uart.Inv ∧ s.UnreadIsLast)

/-! ### What is sent and delivered -/

/-- The byte FG has taken out of TXQ and not yet written to the output register (R233, P6 and P7). -/
def Transport.inHand (u : Transport) : List Byte :=
  match u.fg with
  | .primeP6 b => [b]
  | .primeP7 b => [b]
  | _ => []

/-- Every byte the transmit path has been given, oldest first: taken by the hardware, in the output register,
in FG's hand, in TXQ (R239 item 7). -/
def Transport.stream (u : Transport) : List Byte :=
  u.wireTx ++ u.outReg.toList ++ u.inHand ++ u.txq.contents .tx

/-- The command a word event runs. -/
def Event.command : Event → Option Instr
  | .word p w =>
    match decode p w with
    | .command i => some i
    | .noRun => none
    | .tooWide => none
  | .startFg _ => none
  | .fgStep => none
  | .holdReset => none

/-- FG takes its next micro-step, and it is this one. -/
def fgTakes (e : Event) (s : State) (f : Fg) : Prop := e = .fgStep ∧ s.uart.fg = f

/-- The byte an event adds to the transmit path: an accepted SEND's, whole or at its step E4. -/
def acceptedBytes (e : Event) (s : State) : List Byte :=
  match e.command with
  | some (.send d) => if s.uart.txq.full then [] else [d]
  | _ => if e = .fgStep ∧ s.uart.fg = .sendE4 then [s.uart.txq.cell .tx s.uart.txq.tail] else []

/-- The byte an event adds to RXQ: `in_reg`'s, at a run of RXH that finds RXQ not full (R236). -/
def arrivedBytes (e : Event) (s : State) : List Byte :=
  match e.command with
  | some .rxIrq => if s.uart.rxq.full then [] else [s.uart.inReg]
  | _ => []

/-- The byte an event hands to FG, given the state after it: a successful RECEIVE's, whole or at its step D4
(R234). -/
def deliveredBytes (e : Event) (s t : State) : List Byte :=
  match e.command with
  | some .receive => if s.uart.rxq.empty then [] else [t.uart.rdata]
  | _ =>
    match e, s.uart.fg with
    | .fgStep, .recvD4 _ => [t.uart.rdata]
    | _, _ => []

/-- The byte that arrives on the line at an event (R244). -/
def lineBytes (e : Event) : List Byte :=
  match e.command with
  | some (.hwRxByte b) => [b]
  | _ => []

/-- The byte that has arrived and waits to be read by RXH (R36). -/
def Transport.unread (u : Transport) : List Byte := if u.rx.cond then [u.inReg] else []

/-- The unread byte an event loses: RXH's, when it finds RXQ full (R236), or the one an overrun replaces (R246). -/
def droppedBytes (e : Event) (s t : State) : List Byte :=
  match e.command with
  | some .rxIrq => if s.uart.rxq.full then [s.uart.inReg] else []
  | some (.hwRxByte _) => if s.uart.rx.cond && t.uart.inReg != s.uart.inReg then [s.uart.inReg] else []
  | _ => []

/-- The arriving byte an overrun loses, when the unread one stays (R246). -/
def lostArrivals (e : Event) (s t : State) : List Byte :=
  match e.command with
  | some (.hwRxByte b) => if s.uart.rx.cond && t.uart.inReg == s.uart.inReg then [b] else []
  | _ => []

/-- The event is a run of UART_INIT, which cuts the stream (R231 corner case 2). -/
def flushes (e : Event) (s : State) : Prop := e.command = some .uartInit ∨ fgTakes e s .uartInit

/-- The byte an event adds to `async_fifo`, given the state after it: a successful W.ENQ's (R187). -/
def asyncAccepted (e : Event) (t : State) : List Byte :=
  match e.command with
  | some (.wEnq d) => if t.async.enqOut.ok then [d] else []
  | _ => []

/-- The byte an event takes out of `async_fifo`, given the state after it: a successful R.DEQ's (R189). -/
def asyncDelivered (e : Event) (t : State) : List Byte :=
  match e.command with
  | some .rDeq => if t.async.deqOut.ok then [t.async.deqOut.dout] else []
  | _ => []

/-- The event resets `async_fifo` (R190, log 9). -/
def asyncResets (e : Event) : Prop := e.command = some .aInit ∨ e = .holdReset

/-- The byte an edge of `sync_fifo` has stored, given the state after the edge. -/
def storedAt (i : Instr) (t : State) : List Byte :=
  match i with
  | .enq d => if t.sync.enqOut.ok then [d] else []
  | .enqdeq d => if t.sync.enqOut.ok then [d] else []
  | _ => []

/-- The byte an edge of `sync_fifo` has returned, given the state after the edge. -/
def returnedAt (t : State) : List Byte := if t.sync.deqOut.ok then [t.sync.deqOut.dout] else []

/-- A run of commands with the bytes `sync_fifo` stored and the bytes it returned, in order; none where a
command stops. -/
def syncRun : List Instr → State → Option (List Byte × List Byte × State)
  | [], s => some ([], [], s)
  | i :: is, s =>
    match exec i s with
    | .next t =>
      match syncRun is t with
      | some (stored, returned, u) => some (storedAt i t ++ stored, returnedAt t ++ returned, u)
      | none => none
    | .fault _ => none
    | .refused _ => none

/-- From the condition at 1 to the run of TXH: with FLAG_SYNC = 2, three core clock edges bring it to the request
line whatever the draws, and with FLAG_SYNC = 0 it is the request line (R249, R235). -/
def requestRound : FlagSync → List Event
  | .none => [.word (.e .tx) 0b01]
  | .two => [.word .clk 0, .word .clk 0, .word .clk 0, .word (.e .tx) 0b01]

/-- One round of the transmit chain: the hardware takes the byte, and TXH runs (R243, R235). -/
def transmitRound (f : FlagSync) : List Event := .word .hwTxDone 0 :: requestRound f

/-- The rounds that empty the transmit path, none while Idle: the round of the byte in the output register, or only
its end where the byte has gone, then one for every byte of TXQ. -/
def drainSchedule (s : State) : List Event :=
  match s.uart.txState with
  | .idle => []
  | .transmitting =>
    (if s.uart.outReg.isSome then transmitRound s.params.flagSync else requestRound s.params.flagSync) ++
      (List.replicate s.uart.txq.occ (transmitRound s.params.flagSync)).flatten

/-- The event run on each state in turn; stops where one stops. -/
def runEvents : List Event → State → Result
  | [], s => .next s
  | e :: es, s => andThen (runEvent e s) (runEvents es)

end Sys2Proof.Machine
end

