-- ==== Sys2Proof/Certificates/Slice0/Obligations.lean ====
section
/-! DEFINITION. The statements for the provers. Free values (log 4, log 5) stand in them only through the
functions of Config, so each holds for every value. -/

open Sys2Proof Sys2Proof.Machine

/-! ### Encoding (30_encoding.md) -/

/-- The encoder and the decoder agree on every command that may be presented (R92, R94 to R97, R100, R101). -/
def Obligations.DecodeEncodeAgree : Prop :=
  ∀ i : Instr, i.wellFormed = true → decode (encode i).1 (encode i).2 = .command i

/-- R92: the five patterns of format X, by match and mask; every word of 11 bits is one of them. -/
def Obligations.FormatXByMatchAndMask : Prop :=
  ∀ w : Nat, w < 2048 →
    (w &&& 0x700 = 0x000 → decode .x w = .command .nop) ∧
    (w &&& 0x700 = 0x100 → decode .x w = .command (.enq (BitVec.ofNat 8 w))) ∧
    (w &&& 0x700 = 0x200 → decode .x w = .command .deq) ∧
    (w &&& 0x700 = 0x300 → decode .x w = .command (.enqdeq (BitVec.ofNat 8 w))) ∧
    (w &&& 0x400 = 0x400 → decode .x w = .command .init)

/-- R94, R95, R96, R100: the patterns of formats W, R, A and T, by match and mask, the reserved values of `top`
under their own names (R106). -/
def Obligations.FormatsWRATByMatchAndMask : Prop :=
  (∀ w : Nat, w < 512 →
    (w &&& 0x100 = 0x000 → decode .w w = .command .wNop) ∧
    (w &&& 0x100 = 0x100 → decode .w w = .command (.wEnq (BitVec.ofNat 8 w)))) ∧
  (decode .r 0 = .command .rNop ∧ decode .r 1 = .command .rDeq ∧ decode .a 0 = .command .aRun ∧ decode .a 1 = .command .aInit) ∧
  (∀ w : Nat, w < 2048 →
    (w &&& 0x700 = 0x000 → decode .t w = .command .tNop) ∧
    (w &&& 0x700 = 0x100 → decode .t w = .command (.send (BitVec.ofNat 8 w))) ∧
    (w &&& 0x700 = 0x200 → decode .t w = .command .receive) ∧
    (w &&& 0x700 = 0x300 → decode .t w = .command .uartInit) ∧
    (w &&& 0x700 = 0x400 → decode .t w = .command .prime) ∧
    (w &&& 0x700 = 0x500 → decode .t w = .command .tReserved5) ∧
    (w &&& 0x700 = 0x600 → decode .t w = .command .tReserved6) ∧
    (w &&& 0x700 = 0x700 → decode .t w = .command .tReserved7))

/-- R92, R94 to R96, R100, R101 and words of 95_test_vectors.md, written out: sanity. The word 0b00 of format E enables
no handler run (R101, R106). Which run the word 0b11 stands for is the choice that the port carries, the model's own
(log 10, IRQ_ORDER of R13). -/
def Obligations.SpelledOutWordsDecode : Prop :=
  decode .x 0b001_0101_0101 = .command (.enq 0x55) ∧ decode .x 0b011_1011_0010 = .command (.enqdeq 0xB2) ∧
  decode .x 0b111_1110_1110 = .command .init ∧ decode .w 0b1_0001_0001 = .command (.wEnq 0x11) ∧
  decode .r 0b1 = .command .rDeq ∧ decode .a 0b1 = .command .aInit ∧ decode .t 0b001_0011_0011 = .command (.send 0x33) ∧
  (∀ first, decode (.e first) 0b01 = .command .txIrq ∧ decode (.e first) 0b10 = .command .rxIrq ∧
    decode (.e first) 0b00 = .noRun) ∧
  decode (.e .tx) 0b11 = .command .txIrq ∧ decode (.e .rx) 0b11 = .command .rxIrq

/-! ### The step (R195, R250; log 3) -/

/-- A word that decodes to `i` on its port runs `i`; format E's 0b00 changes nothing (R101); a number too wide for its
port is refused (R107); a foreground operation is taken up by its word and goes on by its micro-steps. That a step
takes the oldest of a list of presented events, and is stuck with none presented, is the model's choice (log 3), as are
the events `holdReset` (log 9) and `startFg` (log 14). -/
def Obligations.StepRunsThePresentedEvent : Prop :=
  ∀ (s : State) (rest : List Event),
    (∀ p w i, s.pending = .word p w :: rest → decode p w = .command i → step s = exec i { s with pending := rest }) ∧
    (∀ p w, s.pending = .word p w :: rest → decode p w = .noRun → step s = .next { s with pending := rest }) ∧
    (∀ p w, s.pending = .word p w :: rest → decode p w = .tooWide → step s = .refused .wordTooWide) ∧
    (∀ w i, s.pending = .startFg w :: rest → decode .t w = .command i →
      step s = startForeground i { s with pending := rest }) ∧
    (s.pending = .fgStep :: rest → step s = foregroundStep { s with pending := rest }) ∧
    (s.pending = .holdReset :: rest → step s = raiseReset true { s with pending := rest }) ∧
    (s.pending = [] → step s = .fault .noEvent)

/-- A bare table word placed by `withFetchWord` is what the next step runs (log 8); of format E, which is the
request lines themselves, in the state with its lines at 1. -/
def Obligations.PlacedWordRunsNext : Prop :=
  ∀ (s : State) (nbits w : Nat) (i : Instr), decodeTableWord nbits w = some i →
    (i ≠ .txIrq → i ≠ .rxIrq → step (s.withFetchWord nbits w) = exec i s) ∧
    (i = .txIrq ∨ i = .rxIrq →
      step (s.withFetchWord nbits w) = exec i { s with uart := driveRequests w s.uart })

/-! ### Status and indices (R22 to R24, R126) -/

/-- R22, R23, R24: the flags as the spec defines them and as functions of the occupancy; never both. -/
def Obligations.FlagsFollowOccupancy : Prop :=
  ∀ r : Ring, 2 ≤ r.cap → r.head < r.cap → r.tail < r.cap →
    (r.empty = true ↔ r.head = r.tail) ∧ (r.full = true ↔ (r.tail + 1) % r.cap = r.head) ∧
    r.occ ≤ r.cap - 1 ∧ (r.empty = true ↔ r.occ = 0) ∧ (r.full = true ↔ r.occ = r.cap - 1) ∧
    ¬ (r.empty = true ∧ r.full = true) ∧ (r.occ : Int) = ((r.tail : Int) - (r.head : Int)) % (r.cap : Int)

/-! ### `sync_fifo` (41_sync_fifo.md) -/

/-- R152: NOP, its encoding with `din` ignored, changes no register and answers nothing. -/
def Obligations.SyncNopChangesNoRegister : Prop :=
  (∀ w < 2048, w &&& 0x700 = 0x000 → decode .x w = .command .nop) ∧
  ∀ s : State, SyncReady s →
    ∃ t, exec .nop s = .next t ∧ t.sync.ring = s.sync.ring ∧ t.sync.up = s.sync.up ∧
      t.sync.enqOut = ⟨false, false⟩ ∧ t.sync.deqOut.ok = false ∧ t.sync.deqOut.err = false ∧ OnlySync s t

/-- R153: ENQ d, with its encoding, stores the byte and advances `tail`, or answers BufferFull and changes no
register. -/
def Obligations.SyncEnqStoresOrReportsFull : Prop :=
  (∀ w < 2048, w &&& 0x700 = 0x100 → decode .x w = .command (.enq (BitVec.ofNat 8 w))) ∧
  ∀ (s : State) (d : Byte), SyncReady s →
    ∃ t, exec (.enq d) s = .next t ∧ OnlySync s t ∧ t.sync.up = s.sync.up ∧
      t.sync.deqOut.ok = false ∧ t.sync.deqOut.err = false ∧
      ((s.sync.ring.tail + 1) % s.sync.ring.cap = s.sync.ring.head →
        t.sync.ring = s.sync.ring ∧ t.sync.enqOut = ⟨false, true⟩) ∧
      ((s.sync.ring.tail + 1) % s.sync.ring.cap ≠ s.sync.ring.head →
        s.sync.ring.Accepts .sync d t.sync.ring ∧ t.sync.enqOut = ⟨true, false⟩ ∧
          t.sync.ring.empty = false ∧ (t.sync.ring.full = true ↔ t.sync.ring.occ = s.sync.ring.cap - 1))

/-- R154: DEQ, with its encoding, returns `storage[head]` and advances `head`, or answers BufferEmpty and changes
no register. -/
def Obligations.SyncDeqReturnsOrReportsEmpty : Prop :=
  (∀ w < 2048, w &&& 0x700 = 0x200 → decode .x w = .command .deq) ∧
  ∀ s : State, SyncReady s →
    ∃ t, exec .deq s = .next t ∧ OnlySync s t ∧ t.sync.up = s.sync.up ∧ t.sync.enqOut = ⟨false, false⟩ ∧
      (s.sync.ring.head = s.sync.ring.tail →
        t.sync.ring = s.sync.ring ∧ t.sync.deqOut.ok = false ∧ t.sync.deqOut.err = true) ∧
      (s.sync.ring.head ≠ s.sync.ring.tail →
        s.sync.ring.Releases t.sync.ring ∧
          t.sync.deqOut = ⟨true, false, s.sync.ring.cell .sync s.sync.ring.head⟩ ∧
          t.sync.ring.full = false ∧ (t.sync.ring.empty = true ↔ s.sync.ring.occ = 1) ∧
          (t.sync.ring.empty = false → syncDout t = t.sync.ring.cell .sync t.sync.ring.head))

/-- R155: ENQDEQ d, with its encoding, decides each half on the pre-edge flags, and each half moves its own index;
two successes leave the occupancy and both flags, and the two errors never come together. -/
def Obligations.SyncEnqdeqDecidesOnPreEdgeFlags : Prop :=
  (∀ w < 2048, w &&& 0x700 = 0x300 → decode .x w = .command (.enqdeq (BitVec.ofNat 8 w))) ∧
  ∀ (s : State) (d : Byte), SyncReady s →
    ∃ t, exec (.enqdeq d) s = .next t ∧ OnlySync s t ∧ t.sync.up = s.sync.up ∧ t.sync.ring.cap = s.sync.ring.cap ∧
      ((s.sync.ring.tail + 1) % s.sync.ring.cap = s.sync.ring.head →
        t.sync.ring.tail = s.sync.ring.tail ∧ t.sync.ring.ghostT = s.sync.ring.ghostT ∧
          t.sync.ring.storage = s.sync.ring.storage ∧ t.sync.enqOut = ⟨false, true⟩) ∧
      ((s.sync.ring.tail + 1) % s.sync.ring.cap ≠ s.sync.ring.head →
        t.sync.ring.tail = (s.sync.ring.tail + 1) % s.sync.ring.cap ∧
          t.sync.ring.ghostT = s.sync.ring.ghostT + 1 ∧
          t.sync.ring.cell .sync s.sync.ring.tail = d ∧
          (∀ a, a ≠ s.sync.ring.tail → t.sync.ring.cell .sync a = s.sync.ring.cell .sync a) ∧
          t.sync.enqOut = ⟨true, false⟩) ∧
      (s.sync.ring.head = s.sync.ring.tail →
        t.sync.ring.head = s.sync.ring.head ∧ t.sync.ring.ghostH = s.sync.ring.ghostH ∧
          t.sync.deqOut.ok = false ∧ t.sync.deqOut.err = true) ∧
      (s.sync.ring.head ≠ s.sync.ring.tail →
        t.sync.ring.head = (s.sync.ring.head + 1) % s.sync.ring.cap ∧
          t.sync.ring.ghostH = s.sync.ring.ghostH + 1 ∧
          t.sync.deqOut = ⟨true, false, s.sync.ring.cell .sync s.sync.ring.head⟩) ∧
      (t.sync.enqOut.ok = true → t.sync.deqOut.ok = true →
        t.sync.ring.occ = s.sync.ring.occ ∧ t.sync.ring.empty = s.sync.ring.empty ∧
          t.sync.ring.full = s.sync.ring.full) ∧
      ¬ (t.sync.enqOut.err = true ∧ t.sync.deqOut.err = true)

/-- R156, R300: INIT, with its encoding, at any edge, in any state of a legal capacity, reset or not. -/
def Obligations.SyncInitResetsBothIndices : Prop :=
  (∀ w < 2048, w &&& 0x400 = 0x400 → decode .x w = .command .init) ∧
  ∀ s : State, 2 ≤ s.sync.ring.cap →
    ∃ t, exec .init s = .next t ∧ OnlySync s t ∧ s.sync.ring.Flushed t.sync.ring ∧ t.sync.up = true ∧
      t.sync.enqOut = ⟨false, false⟩ ∧ t.sync.deqOut.ok = false ∧ t.sync.deqOut.err = false ∧
      t.sync.ring.empty = true ∧ t.sync.ring.full = false

/-- R157: an ENQDEQ edge is ENQUEUE then DEQUEUE unless the buffer is empty, and DEQUEUE then ENQUEUE unless it
is full; on a full or an empty buffer the opposite order gives another result. -/
def Obligations.EnqdeqIsTwoOperationsInOrder : Prop :=
  ∀ (s t : State) (d : Byte), SyncReady s → exec (.enqdeq d) s = .next t →
    (s.sync.ring.empty = false →
      ∃ u v, exec (.enq d) s = .next u ∧ exec .deq u = .next v ∧ v.sync.ring = t.sync.ring ∧
        u.sync.enqOut = t.sync.enqOut ∧ v.sync.deqOut = t.sync.deqOut) ∧
    (s.sync.ring.full = false →
      ∃ u v, exec .deq s = .next u ∧ exec (.enq d) u = .next v ∧ v.sync.ring = t.sync.ring ∧
        v.sync.enqOut = t.sync.enqOut ∧ u.sync.deqOut = t.sync.deqOut) ∧
    (s.sync.ring.full = true →
      ∃ u v, exec .deq s = .next u ∧ exec (.enq d) u = .next v ∧ v.sync.enqOut ≠ t.sync.enqOut) ∧
    (s.sync.ring.empty = true →
      ∃ u v, exec (.enq d) s = .next u ∧ exec .deq u = .next v ∧ v.sync.deqOut.ok ≠ t.sync.deqOut.ok)

/-- R128: what each operation of `sync_fifo` does to the occupancy, and exactly when it succeeds. -/
def Obligations.OccupancyLaw : Prop :=
  ∀ (s t : State) (d : Byte), SyncReady s →
    (exec (.enq d) s = .next t →
      (t.sync.enqOut.ok = true ↔ s.sync.ring.occ < s.sync.ring.cap - 1) ∧
      t.sync.ring.occ = s.sync.ring.occ + (if t.sync.enqOut.ok then 1 else 0)) ∧
    (exec .deq s = .next t →
      (t.sync.deqOut.ok = true ↔ 0 < s.sync.ring.occ) ∧
      s.sync.ring.occ = t.sync.ring.occ + (if t.sync.deqOut.ok then 1 else 0)) ∧
    (exec (.enqdeq d) s = .next t →
      (t.sync.enqOut.ok = true ↔ s.sync.ring.occ < s.sync.ring.cap - 1) ∧
      (t.sync.deqOut.ok = true ↔ 0 < s.sync.ring.occ) ∧
      t.sync.ring.occ + (if t.sync.deqOut.ok then 1 else 0) = s.sync.ring.occ + (if t.sync.enqOut.ok then 1 else 0)) ∧
    (exec .nop s = .next t → t.sync.ring.occ = s.sync.ring.occ) ∧
    (exec (.isEmpty .sync) s = .next t → t.sync.ring.occ = s.sync.ring.occ) ∧
    (exec (.isFull .sync) s = .next t → t.sync.ring.occ = s.sync.ring.occ) ∧
    (exec .init s = .next t → t.sync.ring.occ = 0)

/-- R127 (BBWS §8, S1): along every run of NOP, ENQ, DEQ, ENQDEQ the bytes that were outstanding, then those
stored, are those returned, then those outstanding at the end: nothing lost, duplicated or reordered; and from
an empty buffer the bytes returned are a prefix of the bytes stored. -/
def Obligations.FifoOrderAlongEveryRun : Prop :=
  ∀ (is : List Instr) (s t : State) (stored returned : List Byte), SyncReady s →
    (∀ i ∈ is, i = .nop ∨ i = .deq ∨ (∃ d, i = .enq d) ∨ ∃ d, i = .enqdeq d) →
    syncRun is s = some (stored, returned, t) →
    s.sync.ring.contents .sync ++ stored = returned ++ t.sync.ring.contents .sync ∧
      (s.sync.ring.empty = true → returned <+: stored)

/-- Such a run never stops (R131: bounded, non-blocking). -/
def Obligations.SyncRunsNeverStop : Prop :=
  ∀ (is : List Instr) (s : State), SyncReady s →
    (∀ i ∈ is, i = .nop ∨ i = .deq ∨ i = .init ∨ (∃ d, i = .enq d) ∨ ∃ d, i = .enqdeq d) →
    ∃ stored returned t, syncRun is s = some (stored, returned, t) ∧ SyncReady t

/-! ### The queries (R122, R123, R97) -/

/-- R122: IS_EMPTY answers the `empty` bit of the status word and changes nothing else. -/
def Obligations.IsEmptyAnswersTheEmptyBit : Prop :=
  ∀ s : State,
    (SyncReady s →
      exec (.isEmpty .sync) s = .next { s with query := decide (s.sync.ring.head = s.sync.ring.tail) }) ∧
    (AsyncReady s →
      exec (.isEmpty .asyncWrite) s = .next { s with query := decide (s.async.tailGray = s.async.hs2) } ∧
      exec (.isEmpty .asyncRead) s = .next { s with query := decide (s.async.headGray = s.async.ts2) })

/-- R123: IS_FULL answers the `full` bit of the status word and changes nothing else. -/
def Obligations.IsFullAnswersTheFullBit : Prop :=
  ∀ s : State,
    (SyncReady s →
      exec (.isFull .sync) s =
        .next { s with query := decide ((s.sync.ring.tail + 1) % s.sync.ring.cap = s.sync.ring.head) }) ∧
    (AsyncReady s →
      exec (.isFull .asyncWrite) s =
        .next { s with
          query := decide (gray s.async.ring.cap ((s.async.ring.tail + 1) % s.async.ring.cap) = s.async.hs2) } ∧
      exec (.isFull .asyncRead) s =
        .next { s with
          query := decide (s.async.ts2 =
            gray s.async.ring.cap ((s.async.ring.head + s.async.ring.cap - 1) % s.async.ring.cap)) })

/-! ### The index code (R103, R105) -/

/-- R103 (2): the codes of an index and of the next one, the wrap included, differ in exactly one bit; at the
wrap it is bit W − 1. -/
def Obligations.GrayStepFlipsOneBit : Prop :=
  ∀ n i : Nat, 2 ≤ n → n % 2 = 0 → i < n →
    (∃ k < indexWidth n, gray n i ^^^ gray n ((i + 1) % n) = 2 ^ k) ∧
    (i = n - 1 → gray n i ^^^ gray n ((i + 1) % n) = 2 ^ (indexWidth n - 1))

/-- R103 (1), R105: `gray_N` is injective below N, its words have W bits, and `ungray` inverts it. -/
def Obligations.GrayIsInvertible : Prop :=
  ∀ n i : Nat, 2 ≤ n → n % 2 = 0 → i < n →
    gray n i < 2 ^ indexWidth n ∧ ungray n (gray n i) = i ∧ ∀ j < n, gray n i = gray n j → i = j

/-! ### `async_fifo` (42_async_fifo_cdc.md) -/

/-- R186: W.NOP, with its encoding, shifts the synchroniser and nothing else. -/
def Obligations.WNopShiftsTheSynchroniser : Prop :=
  (∀ w < 512, w &&& 0x100 = 0x000 → decode .w w = .command .wNop) ∧
  ∀ s : State, AsyncReady s → s.async.arst = false →
    ∃ t, exec .wNop s = .next t ∧ OnlyAsync s t ∧ WShifts s t ∧ t.async.ring = s.async.ring ∧
      t.async.tailGray = s.async.tailGray ∧ t.async.tailPrev = s.async.tailPrev ∧ t.async.tailFresh = false ∧
      t.async.enqOut = ⟨false, false⟩

/-- R187: W.ENQ d against the pre-edge view `hs2`. -/
def Obligations.WEnqStoresOrReportsFull : Prop :=
  ∀ (s : State) (d : Byte), AsyncReady s → s.async.arst = false →
    ∃ t, exec (.wEnq d) s = .next t ∧ OnlyAsync s t ∧ WShifts s t ∧
      (gray s.async.ring.cap ((s.async.ring.tail + 1) % s.async.ring.cap) = s.async.hs2 →
        t.async.ring = s.async.ring ∧ t.async.tailGray = s.async.tailGray ∧
          t.async.tailPrev = s.async.tailPrev ∧ t.async.tailFresh = false ∧ t.async.enqOut = ⟨false, true⟩) ∧
      (gray s.async.ring.cap ((s.async.ring.tail + 1) % s.async.ring.cap) ≠ s.async.hs2 →
        s.async.ring.Accepts .async d t.async.ring ∧
          t.async.tailGray = gray s.async.ring.cap ((s.async.ring.tail + 1) % s.async.ring.cap) ∧
          t.async.tailPrev = s.async.tailGray ∧ t.async.tailFresh = true ∧ t.async.enqOut = ⟨true, false⟩)

/-- R188: R.NOP, with its encoding, shifts the synchroniser and nothing else. -/
def Obligations.RNopShiftsTheSynchroniser : Prop :=
  decode .r 0 = .command .rNop ∧
  ∀ s : State, AsyncReady s → s.async.arst = false →
    ∃ t, exec .rNop s = .next t ∧ OnlyAsync s t ∧ RShifts s t ∧ t.async.ring = s.async.ring ∧
      t.async.headGray = s.async.headGray ∧ t.async.headPrev = s.async.headPrev ∧ t.async.headFresh = false ∧
      t.async.deqOut.ok = false ∧ t.async.deqOut.err = false

/-- R189: R.DEQ against the pre-edge view `ts2`; the byte returned is `storage[head]`. -/
def Obligations.RDeqReturnsOrReportsEmpty : Prop :=
  ∀ s : State, AsyncReady s → s.async.arst = false →
    ∃ t, exec .rDeq s = .next t ∧ OnlyAsync s t ∧ RShifts s t ∧
      (s.async.headGray = s.async.ts2 →
        t.async.ring = s.async.ring ∧ t.async.headGray = s.async.headGray ∧
          t.async.headPrev = s.async.headPrev ∧ t.async.headFresh = false ∧
          t.async.deqOut.ok = false ∧ t.async.deqOut.err = true) ∧
      (s.async.headGray ≠ s.async.ts2 →
        s.async.ring.Releases t.async.ring ∧
          t.async.headGray = gray s.async.ring.cap ((s.async.ring.head + 1) % s.async.ring.cap) ∧
          t.async.headPrev = s.async.headGray ∧ t.async.headFresh = true ∧
          t.async.deqOut = ⟨true, false, s.async.ring.cell .async s.async.ring.head⟩)

/-- R190, R301: A.INIT in any state of a legal capacity sets every register of both domains to its reset value
and writes no cell; all four status bits then read "empty, not full". A.RUN has no effect on a block that runs. -/
def Obligations.AInitResetsBothDomains : Prop :=
  ∀ s : State, 2 ≤ s.async.ring.cap → s.async.ring.cap % 2 = 0 →
    (∃ t, exec .aInit s = .next t ∧ OnlyAsync s t ∧ t.draws = s.draws ∧ t.free = s.free + 1 ∧
      t.async.AtReset ∧ t.async.arst = false ∧ t.async.ring.storage = s.async.ring.storage ∧
      t.async.ring.cap = s.async.ring.cap ∧
      t.async.emptyW = true ∧ t.async.emptyR = true ∧ t.async.fullW = false ∧ t.async.fullR = false) ∧
    (AsyncReady s → s.async.arst = false → exec .aRun s = .next s)

/-- R190, R321 with `arst` held at 1 over several edges (the event `holdReset`, log 9): edges without a request
leave every register as it is (the byte on `dout` is unspecified, U3), a request is refused, and A.RUN releases. -/
def Obligations.HeldResetFreezesTheBlock : Prop :=
  ∀ (s : State) (d : Byte),
    (2 ≤ s.async.ring.cap → s.async.ring.cap % 2 = 0 →
      ∃ t, runEvent .holdReset s = .next t ∧ OnlyAsync s t ∧ t.async.AtReset ∧ t.async.arst = true ∧
        t.async.ring.storage = s.async.ring.storage) ∧
    (AsyncReady s → s.async.arst = true →
      exec .wNop s = .next s ∧
      (∃ t, exec .rNop s = .next t ∧ OnlyAsync s t ∧ t.draws = s.draws ∧
        t.async = { s.async with deqOut := { s.async.deqOut with dout := t.async.deqOut.dout } }) ∧
      exec (.wEnq d) s = .refused .resetUnderTraffic ∧ exec .rDeq s = .refused .resetUnderTraffic ∧
      exec .aRun s = .next { s with async := { s.async with arst := false } })

/-- R197 with R182, R196 and R129: the chain of the six counts, and what it rests on, is kept by every step. -/
def Obligations.AsyncInvariantKept : Prop :=
  ∀ s t : State, s.AsyncInv → step s = .next t → t.AsyncInv

/-- R182: outside reset each code register is the code of its index, and an edge changes it in at most one bit,
each domain only its own. -/
def Obligations.CodeRegistersChangeOneBit : Prop :=
  ∀ (s t : State) (i : Instr), s.AsyncInv → s.async.up = true → exec i s = .next t → i ≠ .aInit →
    s.async.tailGray = gray s.async.ring.cap s.async.ring.tail ∧
    s.async.headGray = gray s.async.ring.cap s.async.ring.head ∧
    t.async.tailGray = gray t.async.ring.cap t.async.ring.tail ∧
    t.async.headGray = gray t.async.ring.cap t.async.ring.head ∧
    (t.async.tailGray = s.async.tailGray ∨
      ((∃ d, i = .wEnq d) ∧ ∃ k, s.async.tailGray ^^^ t.async.tailGray = 2 ^ k)) ∧
    (t.async.headGray = s.async.headGray ∨
      (i = .rDeq ∧ ∃ k, s.async.headGray ^^^ t.async.headGray = 2 ^ k))

/-- R198: which way each status bit of `async_fifo` may be wrong. -/
def Obligations.AsyncStatusBitsAreConservative : Prop :=
  ∀ s : State, s.AsyncInv → s.async.up = true →
    (s.async.ring.occ = s.async.ring.cap - 1 → s.async.fullW = true) ∧
    (s.async.emptyW = true → s.async.ring.occ = 0) ∧
    (s.async.ring.occ = 0 → s.async.emptyR = true) ∧
    (s.async.fullR = true → s.async.ring.occ = s.async.ring.cap - 1)

/-- R201: at every event but a reset of it, the bytes of `async_fifo` that were outstanding, then the one accepted, are
the one delivered, then those outstanding afterwards, whatever the draws: nothing lost, duplicated or reordered. -/
def Obligations.AsyncKeepsFifoOrder : Prop :=
  ∀ (s t : State) (e : Event), s.AsyncInv → s.async.up = true → ¬ asyncResets e → runEvent e s = .next t →
    s.async.ring.contents .async ++ asyncAccepted e t = asyncDelivered e t ++ t.async.ring.contents .async

/-- R199: with the producer quiet the read side's view is exact after three `rclk` edges at most, after two if
the first does not race or draws the new value; and the same for the write side. -/
def Obligations.ViewsAreExactAfterThreeEdges : Prop :=
  ∀ s : State, AsyncReady s → s.async.arst = false →
    (∃ a b c, exec .rNop s = .next a ∧ exec .rNop a = .next b ∧ exec .rNop b = .next c ∧
      c.async.ts2 = s.async.tailGray ∧ (a.async.ts1 = s.async.tailGray → b.async.ts2 = s.async.tailGray) ∧
      (s.async.tailFresh = false → a.async.ts1 = s.async.tailGray)) ∧
    (∃ a b c, exec .wNop s = .next a ∧ exec .wNop a = .next b ∧ exec .wNop b = .next c ∧
      c.async.hs2 = s.async.headGray ∧ (a.async.hs1 = s.async.headGray → b.async.hs2 = s.async.headGray) ∧
      (s.async.headFresh = false → a.async.hs1 = s.async.headGray))

/-! ### The transport controller (43_transport_controller.md) -/

/-- R248: T.NOP, with its encoding, changes nothing and answers 0; a reserved `top` is refused. -/
def Obligations.TNopAnswersOk : Prop :=
  (∀ w < 2048, w &&& 0x700 = 0x000 → decode .t w = .command .tNop) ∧
  (∀ (s : State) (w : Nat), w < 2048 → w &&& 0x700 = 0x500 ∨ w &&& 0x700 = 0x600 ∨ w &&& 0x700 = 0x700 →
    runEvent (.word .t w) s = .refused .reservedTop) ∧
  ∀ s : State, FgReady s →
    ∃ t, exec .tNop s = .next t ∧ FgAnswers s t 0 ∧ TxPathSame s t ∧ RxPathSame s t

/-- R106: a reserved value of `top` is refused in every state. -/
def Obligations.ReservedTopIsRefused : Prop :=
  ∀ s : State, exec .tReserved5 s = .refused .reservedTop ∧ exec .tReserved6 s = .refused .reservedTop ∧
    exec .tReserved7 s = .refused .reservedTop

/-- R231, R302, R40: UART_INIT, the first and a later one, and its refusal while Transmitting. That the first one
resets the auxiliaries of both crossings, and a later one keeps the conditions and their freshness, is the model's
reading (log 12, DEDUCED). -/
def Obligations.UartInitFlushesBothQueues : Prop :=
  ∀ s : State, 2 ≤ s.uart.txq.cap → 2 ≤ s.uart.rxq.cap → s.uart.fg = .idle →
    (s.uart.irqEnabled = false → s.uart.outReg = none → s.uart.tx.cond = false → s.uart.rx.cond = false →
      ∃ t, exec .uartInit s = .next t ∧ FgAnswers s t 0 ∧
        s.uart.txq.Flushed t.uart.txq ∧ s.uart.rxq.Flushed t.uart.rxq ∧ t.uart.txState = .idle ∧
        t.uart.outReg = none ∧ t.uart.inReg = s.uart.inReg ∧ t.uart.wireTx = [] ∧ t.uart.wireRx = [] ∧
        t.uart.tx = Crossing.reset ∧ t.uart.rx = Crossing.reset) ∧
    (s.uart.irqEnabled = true → s.uart.txState = .idle →
      ∃ t, exec .uartInit s = .next t ∧ FgAnswers s t 0 ∧
        s.uart.txq.Flushed t.uart.txq ∧ s.uart.rxq.Flushed t.uart.rxq ∧ t.uart.txState = .idle ∧
        t.uart.outReg = s.uart.outReg ∧ t.uart.inReg = s.uart.inReg ∧
        t.uart.wireTx = s.uart.wireTx ∧ t.uart.wireRx = s.uart.wireRx ∧
        t.uart.tx = { s.uart.tx with f1 := false, f2 := false } ∧
        t.uart.rx = { s.uart.rx with f1 := false, f2 := false }) ∧
    (s.uart.irqEnabled = true → s.uart.txState = .transmitting →
      exec .uartInit s = .refused .uartInitWhileTransmitting)

/-- R232: SEND d on a full TXQ drops the byte; while Transmitting it only enqueues; while Idle it primes with
the oldest byte of TXQ; it is refused where priming would write a busy output register (R245). -/
def Obligations.SendEnqueuesAndPrimes : Prop :=
  ∀ (s : State) (d : Byte), FgReady s →
    ((s.uart.txq.tail + 1) % s.uart.txq.cap = s.uart.txq.head →
      ∃ t, exec (.send d) s = .next t ∧ FgAnswers s t 1 ∧ TxPathSame s t ∧ RxPathSame s t) ∧
    ((s.uart.txq.tail + 1) % s.uart.txq.cap ≠ s.uart.txq.head → s.uart.txState = .transmitting →
      ∃ t, exec (.send d) s = .next t ∧ FgAnswers s t 0 ∧ RxPathSame s t ∧
        s.uart.txq.Accepts .tx d t.uart.txq ∧ t.uart.txState = .transmitting ∧
        t.uart.outReg = s.uart.outReg ∧ t.uart.tx = s.uart.tx ∧ t.uart.wireTx = s.uart.wireTx) ∧
    ((s.uart.txq.tail + 1) % s.uart.txq.cap ≠ s.uart.txq.head → s.uart.txState = .idle → s.uart.outReg = none →
      ∃ t m, exec (.send d) s = .next t ∧ FgAnswers s t 0 ∧ RxPathSame s t ∧
        s.uart.txq.Accepts .tx d m ∧ m.Releases t.uart.txq ∧ t.uart.txState = .transmitting ∧
        t.uart.outReg =
          some (if s.uart.txq.head = s.uart.txq.tail then d else s.uart.txq.cell .tx s.uart.txq.head) ∧
        s.uart.tx.Clears t.uart.tx ∧ t.uart.wireTx = s.uart.wireTx) ∧
    ((s.uart.txq.tail + 1) % s.uart.txq.cap ≠ s.uart.txq.head → s.uart.txState = .idle → s.uart.outReg ≠ none →
      exec (.send d) s = .refused .outputBusy)

/-- R233: PRIME starts the chain iff Idle with a byte to send; otherwise it changes nothing; it answers Ok. -/
def Obligations.PrimeStartsTheChain : Prop :=
  ∀ s : State, FgReady s →
    (s.uart.txState = .transmitting ∨ s.uart.txq.head = s.uart.txq.tail →
      ∃ t, exec .prime s = .next t ∧ FgAnswers s t 0 ∧ TxPathSame s t ∧ RxPathSame s t) ∧
    (s.uart.txState = .idle → s.uart.txq.head ≠ s.uart.txq.tail → s.uart.outReg = none →
      ∃ t, exec .prime s = .next t ∧ FgAnswers s t 0 ∧ RxPathSame s t ∧ s.uart.txq.Releases t.uart.txq ∧
        t.uart.txState = .transmitting ∧ t.uart.outReg = some (s.uart.txq.cell .tx s.uart.txq.head) ∧
        s.uart.tx.Clears t.uart.tx ∧ t.uart.wireTx = s.uart.wireTx) ∧
    (s.uart.txState = .idle → s.uart.txq.head ≠ s.uart.txq.tail → s.uart.outReg ≠ none →
      exec .prime s = .refused .outputBusy)

/-- R234: RECEIVE returns the oldest byte of RXQ, or BufferEmpty and changes nothing. -/
def Obligations.ReceiveReturnsOrReportsEmpty : Prop :=
  ∀ s : State, FgReady s →
    (s.uart.rxq.head = s.uart.rxq.tail →
      ∃ t, exec .receive s = .next t ∧ FgAnswers s t 2 ∧ TxPathSame s t ∧ RxPathSame s t) ∧
    (s.uart.rxq.head ≠ s.uart.rxq.tail →
      ∃ t, exec .receive s = .next t ∧ FgAnswers s t 0 ∧ TxPathSame s t ∧ s.uart.rxq.Releases t.uart.rxq ∧
        t.uart.rdata = s.uart.rxq.cell .rx s.uart.rxq.head ∧ t.uart.inReg = s.uart.inReg ∧
        t.uart.rx = s.uart.rx ∧ t.uart.wireRx = s.uart.wireRx)

/-- R235, R267: a run of TXH, enabled iff `tx_req` is 1. -/
def Obligations.TxIrqSendsOneByteOrPauses : Prop :=
  ∀ s : State, UartReady s →
    (s.txReq = true → s.uart.txq.head ≠ s.uart.txq.tail → s.uart.outReg = none →
      ∃ t, exec .txIrq s = .next t ∧ HandlerFrame s t ∧ RxPathSame s t ∧ s.uart.txq.Releases t.uart.txq ∧
        t.uart.outReg = some (s.uart.txq.cell .tx s.uart.txq.head) ∧ s.uart.tx.Clears t.uart.tx ∧
        t.uart.txState = s.uart.txState ∧ t.uart.wireTx = s.uart.wireTx) ∧
    (s.txReq = true → s.uart.txq.head = s.uart.txq.tail →
      ∃ t, exec .txIrq s = .next t ∧ HandlerFrame s t ∧ RxPathSame s t ∧ t.uart.txq = s.uart.txq ∧
        t.uart.outReg = s.uart.outReg ∧ s.uart.tx.Clears t.uart.tx ∧ t.uart.txState = .idle ∧
        t.uart.wireTx = s.uart.wireTx) ∧
    (s.txReq = false → exec .txIrq s = .refused .irqNotEnabled)

/-- R236, R263: a run of RXH, enabled iff `rx_req` is 1; the register is read even when the byte is dropped. -/
def Obligations.RxIrqStoresOrDropsOneByte : Prop :=
  ∀ s : State, UartReady s →
    (s.rxReq = true → s.uart.rx.cond = true →
      ∃ t, exec .rxIrq s = .next t ∧ HandlerFrame s t ∧ TxPathSame s t ∧ s.uart.rx.Clears t.uart.rx ∧
        t.uart.inReg = s.uart.inReg ∧ t.uart.wireRx = s.uart.wireRx ∧
        ((s.uart.rxq.tail + 1) % s.uart.rxq.cap = s.uart.rxq.head → t.uart.rxq = s.uart.rxq) ∧
        ((s.uart.rxq.tail + 1) % s.uart.rxq.cap ≠ s.uart.rxq.head →
          s.uart.rxq.Accepts .rx s.uart.inReg t.uart.rxq)) ∧
    (s.rxReq = false → exec .rxIrq s = .refused .irqNotEnabled)

/-- R243: HW_TX_DONE takes the byte of `out_reg`, is enabled iff there is one, and is the only step that sets
`tx_cond`. -/
def Obligations.HwTxDoneTakesTheByte : Prop :=
  ∀ s : State,
    (∀ b, s.uart.outReg = some b →
      ∃ t, exec .hwTxDone s = .next t ∧ HandlerFrame s t ∧ RxPathSame s t ∧ t.uart.txq = s.uart.txq ∧
        t.uart.txState = s.uart.txState ∧ t.uart.wireTx = s.uart.wireTx ++ [b] ∧ t.uart.outReg = none ∧
        t.uart.tx.cond = true ∧ t.uart.tx.f1 = s.uart.tx.f1 ∧ t.uart.tx.f2 = s.uart.tx.f2 ∧
        (s.uart.tx.cond = false → t.uart.tx.fresh = true ∧ t.uart.tx.old = false)) ∧
    (s.uart.outReg = none → exec .hwTxDone s = .refused .nothingToTransmit) ∧
    (∀ e t, runEvent e s = .next t → s.uart.tx.cond = false → t.uart.tx.cond = true → e = .word .hwTxDone 0)

/-- R244: HW_RX_BYTE b puts the byte into `in_reg` and raises the condition, is enabled as the rule says (R246 with
RX_OVERRUN = none), and is the only step that sets `rx_cond`. -/
def Obligations.HwRxByteArrives : Prop :=
  ∀ (s : State) (b : Byte),
    (s.uart.irqEnabled = true → s.uart.rx.cond = false →
      ∃ t, exec (.hwRxByte b) s = .next t ∧ HandlerFrame s t ∧ TxPathSame s t ∧ t.uart.rxq = s.uart.rxq ∧
        t.uart.inReg = b ∧ t.uart.wireRx = s.uart.wireRx ++ [b] ∧ t.uart.rx.cond = true ∧
        t.uart.rx.fresh = true ∧ t.uart.rx.old = false ∧
        t.uart.rx.f1 = s.uart.rx.f1 ∧ t.uart.rx.f2 = s.uart.rx.f2) ∧
    (s.uart.irqEnabled = false → exec (.hwRxByte b) s = .refused .notReset) ∧
    (s.uart.irqEnabled = true → s.uart.rx.cond = true → s.params.rxOverrun = .none →
      exec (.hwRxByte b) s = .refused .rxOverrun) ∧
    (∀ e t, runEvent e s = .next t → s.uart.rx.cond = false → t.uart.rx.cond = true → ∃ w, e = .word .hwRxByte w)

/-- R246: a byte that arrives while the previous one is unread, under each value of RX_OVERRUN. The model's own
(log 11): the names of the values, `either` being R246's draw, and that such an arrival leaves the crossing of
`rx_cond` as it is, its freshness included. -/
def Obligations.ReceiveOverrunFollowsTheParameter : Prop :=
  ∀ (s : State) (b : Byte), s.uart.irqEnabled = true → s.uart.rx.cond = true →
    (s.params.rxOverrun = .none → exec (.hwRxByte b) s = .refused .rxOverrun) ∧
    (s.params.rxOverrun ≠ .none →
      ∃ t, exec (.hwRxByte b) s = .next t ∧ OnlyUart s t ∧ TxPathSame s t ∧ t.uart.rxq = s.uart.rxq ∧
        t.uart.rx = s.uart.rx ∧ t.uart.wireRx = s.uart.wireRx ++ [b] ∧ t.uart.fg = s.uart.fg ∧
        (s.params.rxOverrun = .keepOld → t.uart.inReg = s.uart.inReg) ∧
        (s.params.rxOverrun = .overwrite → t.uart.inReg = b) ∧
        (s.params.rxOverrun = .either → t.uart.inReg = s.uart.inReg ∨ t.uart.inReg = b) ∧
        (∀ d ds, s.params.rxOverrun = .either → s.draws = d :: ds →
          t.uart.inReg = (if d then b else s.uart.inReg) ∧ t.draws = ds))

/-- R249, R205: CLK shifts both flag synchronisers, and there is no such step with FLAG_SYNC = 0. -/
def Obligations.ClkShiftsTheFlagSynchronisers : Prop :=
  ∀ s : State,
    (s.params.flagSync = .two →
      ∃ t, exec .clk s = .next t ∧ OnlyUart s t ∧
        t.uart = { s.uart with tx := t.uart.tx, rx := t.uart.rx } ∧
        t.uart.tx.f2 = s.uart.tx.f1 ∧ Sampled s.uart.tx.fresh s.uart.tx.old s.uart.tx.cond t.uart.tx.f1 ∧
        t.uart.tx.fresh = false ∧ t.uart.tx.cond = s.uart.tx.cond ∧
        t.uart.rx.f2 = s.uart.rx.f1 ∧ Sampled s.uart.rx.fresh s.uart.rx.old s.uart.rx.cond t.uart.rx.f1 ∧
        t.uart.rx.fresh = false ∧ t.uart.rx.cond = s.uart.rx.cond ∧
        (∀ d ds, s.uart.tx.fresh = true → s.draws = d :: ds →
          t.uart.tx.f1 = (if d then s.uart.tx.cond else s.uart.tx.old)) ∧
        (∀ d ds, s.uart.tx.fresh = false → s.uart.rx.fresh = true → s.draws = d :: ds →
          t.uart.rx.f1 = (if d then s.uart.rx.cond else s.uart.rx.old))) ∧
    (s.params.flagSync = .none → exec .clk s = .refused .noClkStep)

/-- R268: TXIRQ then RXIRQ gives the same as RXIRQ then TXIRQ, wherever both can run. -/
def Obligations.HandlerOrderIsUnobservable : Prop :=
  ∀ s t u : State, exec .txIrq s = .next t → exec .rxIrq s = .next u →
    ∃ v, exec .rxIrq t = .next v ∧ exec .txIrq u = .next v

/-- R233 (corner case 5), R67, R69, R70, R232, R234: a foreground operation run micro-step by micro-step with
nothing between is the whole operation, in every state and with every result. That a whole operation is such a run is
the model's reading (log 14, DEDUCED). -/
def Obligations.MicroStepsMakeTheOperation : Prop :=
  ∀ (s : State) (i : Instr),
    (i = .tNop ∨ i = .receive ∨ i = .uartInit ∨ i = .prime ∨ ∃ d, i = .send d) →
    andThen (startForeground i s) (runForeground 12) = exec i s

/-- R239 items 1 to 5, the meaning of Transmitting (R34), what each micro-step of FG rests on (R74, R233), and that the
unread byte is the last one on the line (item 9): kept by every step. -/
def Obligations.TransportInvariantKept : Prop :=
  ∀ s t : State, s.UartInv → step s = .next t → t.UartInv

/-- R239 item 6, R245, R242: no step ever writes a busy output register or reads an empty input register. -/
def Obligations.BusyWriteAndEmptyReadAreUnreachable : Prop :=
  ∀ s : State, s.UartInv → step s ≠ .refused .outputBusy ∧ step s ≠ .refused .inputEmpty

/-- R239 item 7: no step but UART_INIT loses, duplicates or reorders a byte of the transmit path; each adds
exactly the byte whose SEND is accepted, whole or at its step E4. -/
def Obligations.TransmissionLosesNothing : Prop :=
  ∀ (s t : State) (e : Event), s.UartInv → s.uart.irqEnabled = true → ¬ flushes e s → runEvent e s = .next t →
    t.uart.stream = s.uart.stream ++ acceptedBytes e s

/-- R239 item 9, R246: RXQ gains only `in_reg`'s byte at a run of RXH that finds room, and FG is handed its oldest bytes
in order. Against the line: RXQ, the unread byte and the byte that arrives are, in this order, what is delivered, what
RXQ and `in_reg` hold afterwards, and the bytes dropped at a full RXQ or, with RX_OVERRUN other than `none`, overrun;
`wire_rx` grows by the arriving byte, and where no unread byte is kept at an overrun it ends with the unread one. -/
def Obligations.ReceptionKeepsOrder : Prop :=
  ∀ (s t : State) (e : Event), s.UartInv → s.uart.irqEnabled = true → ¬ flushes e s → runEvent e s = .next t →
    s.uart.rxq.contents .rx ++ arrivedBytes e s = deliveredBytes e s t ++ t.uart.rxq.contents .rx ∧
    t.uart.wireRx = s.uart.wireRx ++ lineBytes e ∧
    s.uart.rxq.contents .rx ++ s.uart.unread ++ lineBytes e =
      deliveredBytes e s t ++ t.uart.rxq.contents .rx ++ droppedBytes e s t ++ t.uart.unread ++ lostArrivals e s t ∧
    (s.params.rxOverrun = .none →
      lostArrivals e s t = [] ∧ (droppedBytes e s t ≠ [] → e.command = some .rxIrq ∧ s.uart.rxq.full = true)) ∧
    t.UnreadIsLast

/-- R239 item 8, R249, along one schedule: from every state of the invariant between foreground operations, with either
FLAG_SYNC, the byte in the output register or its completion pending, one round of the transmit chain for each byte
brings every accepted byte onto the wire in order, whatever the draws, and leaves the path Idle. -/
def Obligations.TransmitterDrains : Prop :=
  ∀ s : State, s.UartInv → s.uart.irqEnabled = true → s.uart.fg = .idle →
    ∃ t, runEvents (drainSchedule s) s = .next t ∧
      t.uart.wireTx = s.uart.stream ∧ t.uart.txq.empty = true ∧ t.uart.outReg = none ∧ t.uart.txState = .idle

/-! ### The whole machine -/

/-- R303, R159: before a block's first reset event every operation of it but that event is refused, the NOPs and the
queries included (log 2). -/
def Obligations.NothingRunsBeforeTheFirstReset : Prop :=
  ∀ (s : State) (d : Byte),
    (2 ≤ s.sync.ring.cap → s.sync.up = false → ∀ i ∈ syncCommands d, exec i s = .refused .notReset) ∧
    (2 ≤ s.async.ring.cap → s.async.ring.cap % 2 = 0 → s.async.up = false →
      ∀ i ∈ asyncCommands d, exec i s = .refused .notReset) ∧
    (2 ≤ s.uart.txq.cap → 2 ≤ s.uart.rxq.cap → s.uart.irqEnabled = false →
      (∀ i ∈ Instr.hwRxByte d :: handlerCommands, exec i s = .refused .notReset) ∧
      (s.uart.fg = .idle → ∀ i ∈ fgCommands d, exec i s = .refused .notReset))

/-- The reset values the spec gives: R40, with `tres` = 0 as UART_INIT leaves it (R231) and the interrupts enabled and
FG in no operation at its end (R302, R265). The model's own: State.reset is the state after the reset events (log 2),
and no storage cell is written (log 4). The values the model chose (log 1, log 6) are not stated. -/
def Obligations.ResetValues : Prop :=
  ∀ r ∈ [State.reset.sync.ring, State.reset.async.ring, State.reset.uart.txq, State.reset.uart.rxq],
    (r.head = 0 ∧ r.tail = 0 ∧ r.ghostH = 0 ∧ r.ghostT = 0 ∧ r.storage = [] ∧ r.empty = true ∧ r.full = false) ∧
    State.reset.async.AtReset ∧ State.reset.uart.txState = .idle ∧
    State.reset.uart.tx = Crossing.reset ∧ State.reset.uart.rx = Crossing.reset ∧
    State.reset.uart.outReg = none ∧ State.reset.uart.wireTx = [] ∧ State.reset.uart.wireRx = [] ∧
    State.reset.uart.fg = .idle ∧ State.reset.uart.irqEnabled = true ∧ State.reset.uart.tres = 0

/-- The three invariants hold at reset. -/
def Obligations.ResetMeetsTheInvariants : Prop :=
  State.reset.SyncInv ∧ State.reset.AsyncInv ∧ State.reset.UartInv

/-- R21, R27, R60, R129 of `sync_fifo`: canonical storage within the cells, indices in range, ghost counts,
every live cell written: kept by every step. -/
def Obligations.SyncInvariantKept : Prop :=
  ∀ s t : State, s.SyncInv → step s = .next t → t.SyncInv

/-- R62, R105 (U5): in states of the invariants no step is refused for a corrupted register or a bad capacity. -/
def Obligations.CorruptRegistersAreUnreachable : Prop :=
  ∀ s : State, s.SyncInv → s.AsyncInv → s.UartInv →
    step s ≠ .refused .corruptIndex ∧ step s ≠ .refused .corruptCode ∧ step s ≠ .refused .badCapacity

/-- R62, R105, R7, R183: a corrupted register or an illegal capacity is refused, not run, by every operation of the block
that owns it. The model's own (log 15): that the whole block is checked at each of its operations, `s_prev` with the
stages, that the reset events check the capacities alone, and that HW_TX_DONE, HW_RX_BYTE and CLK check none. -/
def Obligations.CorruptStatesAreRefused : Prop :=
  ∀ (s : State) (d : Byte),
    (s.sync.ring.cap < 2 → ∀ i ∈ Instr.init :: syncCommands d, exec i s = .refused .badCapacity) ∧
    (2 ≤ s.sync.ring.cap → s.sync.up = true → s.sync.ring.cap ≤ s.sync.ring.head ∨ s.sync.ring.cap ≤ s.sync.ring.tail →
      ∀ i ∈ syncCommands d, exec i s = .refused .corruptIndex) ∧
    (s.async.ring.cap < 2 ∨ s.async.ring.cap % 2 = 1 →
      (∀ i ∈ Instr.aInit :: asyncCommands d, exec i s = .refused .badCapacity) ∧
      runEvent .holdReset s = .refused .badCapacity) ∧
    (2 ≤ s.async.ring.cap → s.async.ring.cap % 2 = 0 → s.async.up = true →
      s.async.ring.cap ≤ s.async.ring.head ∨ s.async.ring.cap ≤ s.async.ring.tail →
      ∀ i ∈ asyncCommands d, exec i s = .refused .corruptIndex) ∧
    (2 ≤ s.async.ring.cap → s.async.ring.cap % 2 = 0 → s.async.up = true →
      s.async.ring.head < s.async.ring.cap → s.async.ring.tail < s.async.ring.cap →
      (∃ g ∈ [s.async.tailGray, s.async.hs1, s.async.hs2, s.async.headGray, s.async.ts1, s.async.ts2,
        s.async.tailPrev, s.async.headPrev], ∀ i < s.async.ring.cap, g ≠ gray s.async.ring.cap i) →
      ∀ i ∈ asyncCommands d, exec i s = .refused .corruptCode) ∧
    (s.uart.txq.cap < 2 ∨ s.uart.rxq.cap < 2 →
      (∀ i ∈ handlerCommands, exec i s = .refused .badCapacity) ∧
      (s.uart.fg = .idle → ∀ i ∈ Instr.uartInit :: fgCommands d, exec i s = .refused .badCapacity) ∧
      (s.uart.fg ≠ .idle → runEvent .fgStep s = .refused .badCapacity)) ∧
    (2 ≤ s.uart.txq.cap → 2 ≤ s.uart.rxq.cap → s.uart.irqEnabled = true →
      s.uart.txq.cap ≤ s.uart.txq.head ∨ s.uart.txq.cap ≤ s.uart.txq.tail ∨
        s.uart.rxq.cap ≤ s.uart.rxq.head ∨ s.uart.rxq.cap ≤ s.uart.rxq.tail →
      (∀ i ∈ handlerCommands, exec i s = .refused .corruptIndex) ∧
      (s.uart.fg = .idle → ∀ i ∈ fgCommands d, exec i s = .refused .corruptIndex) ∧
      (s.uart.fg ≠ .idle → s.uart.fg ≠ .uartInit → runEvent .fgStep s = .refused .corruptIndex))

/-- R180, R230, R35: a command of one block changes nothing of the others. -/
def Obligations.BlocksAreIndependent : Prop :=
  ∀ (i : Instr) (s t : State), exec i s = .next t →
    ((encode i).1 = .x → OnlySync s t) ∧
    ((encode i).1 = .w ∨ (encode i).1 = .r ∨ (encode i).1 = .a → OnlyAsync s t) ∧
    ((∃ p, i = .isEmpty p) ∨ (∃ p, i = .isFull p) → t = { s with query := t.query }) ∧
    ((encode i).1 = .t ∨ (∃ f, (encode i).1 = .e f) ∨ i = .hwTxDone ∨ (∃ b, i = .hwRxByte b) ∨ i = .clk →
      OnlyUart s t)

/-- R21, R181, R34, R273: which events may move each index and the state of the transmit path, FG's micro-steps (R69,
R70, R233) and the held reset included. -/
def Obligations.RolesMoveTheirOwnIndex : Prop :=
  ∀ (e : Event) (s t : State), runEvent e s = .next t →
    (t.sync.ring.tail ≠ s.sync.ring.tail →
      e.command = some .init ∨ (∃ d, e.command = some (.enq d)) ∨ ∃ d, e.command = some (.enqdeq d)) ∧
    (t.sync.ring.head ≠ s.sync.ring.head →
      e.command = some .init ∨ e.command = some .deq ∨ ∃ d, e.command = some (.enqdeq d)) ∧
    (t.async.ring.tail ≠ s.async.ring.tail → asyncResets e ∨ ∃ d, e.command = some (.wEnq d)) ∧
    (t.async.ring.head ≠ s.async.ring.head → asyncResets e ∨ e.command = some .rDeq) ∧
    (t.uart.txq.tail ≠ s.uart.txq.tail →
      flushes e s ∨ (∃ d, e.command = some (.send d)) ∨ fgTakes e s .sendE4) ∧
    (t.uart.txq.head ≠ s.uart.txq.head →
      flushes e s ∨ e.command = some .txIrq ∨ e.command = some .prime ∨ (∃ d, e.command = some (.send d)) ∨
        ∃ b, fgTakes e s (.primeP5 b)) ∧
    (t.uart.rxq.tail ≠ s.uart.rxq.tail → flushes e s ∨ e.command = some .rxIrq) ∧
    (t.uart.rxq.head ≠ s.uart.rxq.head →
      flushes e s ∨ e.command = some .receive ∨ ∃ b, fgTakes e s (.recvD4 b)) ∧
    (t.uart.txState ≠ s.uart.txState →
      flushes e s ∨ e.command = some .txIrq ∨ e.command = some .prime ∨ (∃ d, e.command = some (.send d)) ∨
        ∃ b, fgTakes e s (.primeP6 b)) ∧
    (t.uart.irqEnabled ≠ s.uart.irqEnabled → flushes e s)

/-- R7, R10, R12, R265: no step changes a capacity or a parameter, and none disables the interrupts again. -/
def Obligations.ParametersAreFixed : Prop :=
  ∀ s t : State, step s = .next t →
    t.params = s.params ∧ t.sync.ring.cap = s.sync.ring.cap ∧ t.async.ring.cap = s.async.ring.cap ∧
      t.uart.txq.cap = s.uart.txq.cap ∧ t.uart.rxq.cap = s.uart.rxq.cap ∧
      (s.uart.irqEnabled = true → t.uart.irqEnabled = true) ∧
      (s.sync.up = true → t.sync.up = true) ∧ (s.async.up = true → t.async.up = true)

/-- R310: a second foreground transaction is refused while one is in progress. That a T word presented then is a second
foreground thread is the model's reading (log 16, DEDUCED). -/
def Obligations.OneForegroundThread : Prop :=
  ∀ (s : State) (d : Byte), s.uart.fg ≠ .idle →
    (∀ i ∈ [Instr.tNop, .send d, .receive, .uartInit, .prime],
      exec i s = .refused .fgBusy ∧ startForeground i s = .refused .fgBusy)
end

