-- ==== Sys2Proof/Laws/State.lean ====
section
/-! SUPPORT. One lemma per field per named update of the state, true by rfl, so that no later proof unfolds a
record update. -/

namespace Sys2Proof.Machine

variable (s : State) (a : Answer) (b : Byte) (f : Fg) (q : Bool)

@[simp] theorem respond_sync : (respond a s).sync = s.sync := rfl
@[simp] theorem respond_async : (respond a s).async = s.async := rfl
@[simp] theorem respond_query : (respond a s).query = s.query := rfl
@[simp] theorem respond_params : (respond a s).params = s.params := rfl
@[simp] theorem respond_pending : (respond a s).pending = s.pending := rfl
@[simp] theorem respond_draws : (respond a s).draws = s.draws := rfl
@[simp] theorem respond_free : (respond a s).free = s.free + 1 := rfl
@[simp] theorem respond_txq : (respond a s).uart.txq = s.uart.txq := rfl
@[simp] theorem respond_rxq : (respond a s).uart.rxq = s.uart.rxq := rfl
@[simp] theorem respond_txState : (respond a s).uart.txState = s.uart.txState := rfl
@[simp] theorem respond_irqEnabled : (respond a s).uart.irqEnabled = s.uart.irqEnabled := rfl
@[simp] theorem respond_fg : (respond a s).uart.fg = .idle := rfl
@[simp] theorem respond_outReg : (respond a s).uart.outReg = s.uart.outReg := rfl
@[simp] theorem respond_inReg : (respond a s).uart.inReg = s.uart.inReg := rfl
@[simp] theorem respond_tx : (respond a s).uart.tx = s.uart.tx := rfl
@[simp] theorem respond_rx : (respond a s).uart.rx = s.uart.rx := rfl
@[simp] theorem respond_wireTx : (respond a s).uart.wireTx = s.uart.wireTx := rfl
@[simp] theorem respond_wireRx : (respond a s).uart.wireRx = s.uart.wireRx := rfl
@[simp] theorem respond_tres : (respond a s).uart.tres = a.code := rfl
@[simp] theorem respond_rdata : (respond a s).uart.rdata = Config.freeByte s.free := rfl

@[simp] theorem respondByte_sync : (respondByte b s).sync = s.sync := rfl
@[simp] theorem respondByte_async : (respondByte b s).async = s.async := rfl
@[simp] theorem respondByte_query : (respondByte b s).query = s.query := rfl
@[simp] theorem respondByte_params : (respondByte b s).params = s.params := rfl
@[simp] theorem respondByte_pending : (respondByte b s).pending = s.pending := rfl
@[simp] theorem respondByte_draws : (respondByte b s).draws = s.draws := rfl
@[simp] theorem respondByte_free : (respondByte b s).free = s.free := rfl
@[simp] theorem respondByte_txq : (respondByte b s).uart.txq = s.uart.txq := rfl
@[simp] theorem respondByte_rxq : (respondByte b s).uart.rxq = s.uart.rxq := rfl
@[simp] theorem respondByte_txState : (respondByte b s).uart.txState = s.uart.txState := rfl
@[simp] theorem respondByte_irqEnabled : (respondByte b s).uart.irqEnabled = s.uart.irqEnabled := rfl
@[simp] theorem respondByte_fg : (respondByte b s).uart.fg = .idle := rfl
@[simp] theorem respondByte_outReg : (respondByte b s).uart.outReg = s.uart.outReg := rfl
@[simp] theorem respondByte_inReg : (respondByte b s).uart.inReg = s.uart.inReg := rfl
@[simp] theorem respondByte_tx : (respondByte b s).uart.tx = s.uart.tx := rfl
@[simp] theorem respondByte_rx : (respondByte b s).uart.rx = s.uart.rx := rfl
@[simp] theorem respondByte_wireTx : (respondByte b s).uart.wireTx = s.uart.wireTx := rfl
@[simp] theorem respondByte_wireRx : (respondByte b s).uart.wireRx = s.uart.wireRx := rfl
@[simp] theorem respondByte_tres : (respondByte b s).uart.tres = 0 := rfl
@[simp] theorem respondByte_rdata : (respondByte b s).uart.rdata = b := rfl

@[simp] theorem fgGoto_sync : (fgGoto f s).sync = s.sync := rfl
@[simp] theorem fgGoto_async : (fgGoto f s).async = s.async := rfl
@[simp] theorem fgGoto_query : (fgGoto f s).query = s.query := rfl
@[simp] theorem fgGoto_params : (fgGoto f s).params = s.params := rfl
@[simp] theorem fgGoto_pending : (fgGoto f s).pending = s.pending := rfl
@[simp] theorem fgGoto_draws : (fgGoto f s).draws = s.draws := rfl
@[simp] theorem fgGoto_free : (fgGoto f s).free = s.free := rfl
@[simp] theorem fgGoto_fg : (fgGoto f s).uart.fg = f := rfl
@[simp] theorem fgGoto_txq : (fgGoto f s).uart.txq = s.uart.txq := rfl
@[simp] theorem fgGoto_rxq : (fgGoto f s).uart.rxq = s.uart.rxq := rfl
@[simp] theorem fgGoto_txState : (fgGoto f s).uart.txState = s.uart.txState := rfl
@[simp] theorem fgGoto_irqEnabled : (fgGoto f s).uart.irqEnabled = s.uart.irqEnabled := rfl
@[simp] theorem fgGoto_outReg : (fgGoto f s).uart.outReg = s.uart.outReg := rfl
@[simp] theorem fgGoto_inReg : (fgGoto f s).uart.inReg = s.uart.inReg := rfl
@[simp] theorem fgGoto_tx : (fgGoto f s).uart.tx = s.uart.tx := rfl
@[simp] theorem fgGoto_rx : (fgGoto f s).uart.rx = s.uart.rx := rfl
@[simp] theorem fgGoto_wireTx : (fgGoto f s).uart.wireTx = s.uart.wireTx := rfl
@[simp] theorem fgGoto_wireRx : (fgGoto f s).uart.wireRx = s.uart.wireRx := rfl
@[simp] theorem fgGoto_tres : (fgGoto f s).uart.tres = s.uart.tres := rfl
@[simp] theorem fgGoto_rdata : (fgGoto f s).uart.rdata = s.uart.rdata := rfl

@[simp] theorem answerQuery_sync : (answerQuery q s).sync = s.sync := rfl
@[simp] theorem answerQuery_async : (answerQuery q s).async = s.async := rfl
@[simp] theorem answerQuery_uart : (answerQuery q s).uart = s.uart := rfl
@[simp] theorem answerQuery_query : (answerQuery q s).query = q := rfl
@[simp] theorem answerQuery_params : (answerQuery q s).params = s.params := rfl
@[simp] theorem answerQuery_pending : (answerQuery q s).pending = s.pending := rfl
@[simp] theorem answerQuery_draws : (answerQuery q s).draws = s.draws := rfl
@[simp] theorem answerQuery_free : (answerQuery q s).free = s.free := rfl

variable (r : Ring) (c : Crossing)

@[simp] theorem push_cap : (r.push b).cap = r.cap := rfl
@[simp] theorem push_head : (r.push b).head = r.head := rfl
@[simp] theorem push_ghostH : (r.push b).ghostH = r.ghostH := rfl
@[simp] theorem push_tail : (r.push b).tail = next r.cap r.tail := rfl
@[simp] theorem push_ghostT : (r.push b).ghostT = r.ghostT + 1 := rfl
@[simp] theorem push_storage : (r.push b).storage = Memory.write r.storage r.tail b := rfl
@[simp] theorem pop_cap : r.pop.cap = r.cap := rfl
@[simp] theorem pop_tail : r.pop.tail = r.tail := rfl
@[simp] theorem pop_ghostT : r.pop.ghostT = r.ghostT := rfl
@[simp] theorem pop_head : r.pop.head = next r.cap r.head := rfl
@[simp] theorem pop_ghostH : r.pop.ghostH = r.ghostH + 1 := rfl
@[simp] theorem pop_storage : r.pop.storage = r.storage := rfl
@[simp] theorem init_cap : r.init.cap = r.cap := rfl
@[simp] theorem init_storage : r.init.storage = r.storage := rfl
@[simp] theorem init_head : r.init.head = 0 := rfl
@[simp] theorem init_tail : r.init.tail = 0 := rfl
@[simp] theorem init_ghostH : r.init.ghostH = 0 := rfl
@[simp] theorem init_ghostT : r.init.ghostT = 0 := rfl

@[simp] theorem clear_cond : c.clear.cond = false := rfl
@[simp] theorem clear_old : c.clear.old = (c.cond || c.old) := rfl
@[simp] theorem clear_fresh : c.clear.fresh = false := rfl
@[simp] theorem clear_f1 : c.clear.f1 = false := rfl
@[simp] theorem clear_f2 : c.clear.f2 = false := rfl

variable (d : Bool)

@[simp] theorem edge_cond : (c.edge false d).cond = c.cond := rfl
@[simp] theorem edge_old : (c.edge false d).old = c.old := rfl
@[simp] theorem edge_fresh : (c.edge false d).fresh = false := rfl
@[simp] theorem edge_f1 : (c.edge false d).f1 = sample c.fresh c.old c.cond d := rfl
@[simp] theorem edge_f2 : (c.edge false d).f2 = c.f1 := rfl

end Sys2Proof.Machine
end

