-- ==== Sys2Proof/Laws/Ring.lean ====
section
/-! SUPPORT. What each operation of a ring buffer instance can do, said once: its effect in the terms of
Safety.lean, and its effect on the list of outstanding bytes. -/

namespace Sys2Proof.Machine

theorem next_lt {n : Nat} (h : 2 ≤ n) (i : Nat) : next n i < n := Nat.mod_lt _ (by omega)

theorem next_eq {n i : Nat} (h : i < n) : next n i = if i + 1 = n then 0 else i + 1 := by
  unfold next
  split
  · rename_i h1; rw [h1, Nat.mod_self]
  · exact Nat.mod_eq_of_lt (by omega)

theorem inRange_iff (r : Ring) : r.inRange = true ↔ r.head < r.cap ∧ r.tail < r.cap := by
  simp [Ring.inRange]

theorem empty_iff (r : Ring) : r.empty = true ↔ r.head = r.tail := by simp [Ring.empty]

theorem full_iff (r : Ring) : r.full = true ↔ next r.cap r.tail = r.head := by simp [Ring.full]

/-- The two flags exclude each other (R23). -/
theorem not_empty_of_full {r : Ring} (hc : 2 ≤ r.cap) (ht : r.tail < r.cap) (h : r.full = true) :
    r.empty = false := by
  rw [full_iff, next_eq ht] at h
  by_contra he
  have he : r.head = r.tail := (empty_iff r).1 (by simpa using he)
  split at h <;> omega

theorem push_accepts (q : FifoId) (r : Ring) (b : Byte) : r.Accepts q b (r.push b) := by
  refine ⟨rfl, rfl, rfl, rfl, rfl, ?_, ?_⟩
  · simp [Ring.cell, read_write_same]
  · intro a ha
    simp [Ring.cell, read_write_other _ _ ha]

theorem pop_releases (r : Ring) : r.Releases r.pop := ⟨rfl, rfl, rfl, rfl, rfl, rfl⟩

theorem init_flushed (r : Ring) : r.Flushed r.init := ⟨rfl, rfl, rfl, rfl, rfl, rfl⟩

theorem enqueue_eq_none_iff (r : Ring) (b : Byte) : r.enqueue b = none ↔ r.full = true := by
  unfold Ring.enqueue; split <;> simp_all

theorem enqueue_eq_some_iff (r r' : Ring) (b : Byte) :
    r.enqueue b = some r' ↔ r.full = false ∧ r' = r.push b := by
  unfold Ring.enqueue
  cases r.full <;> simp [eq_comm]

theorem dequeue_eq_none_iff (q : FifoId) (r : Ring) : r.dequeue q = none ↔ r.empty = true := by
  unfold Ring.dequeue; split <;> simp_all

theorem dequeue_eq_some_iff (q : FifoId) (r r' : Ring) (b : Byte) :
    r.dequeue q = some (b, r') ↔ r.empty = false ∧ b = r.cell q r.head ∧ r' = r.pop := by
  unfold Ring.dequeue
  cases r.empty <;> simp [eq_comm (b := b), eq_comm (b := r')]

/-- `occ` without the remainder: the two ways the indices can lie. -/
theorem occ_cases {r : Ring} (hh : r.head < r.cap) (ht : r.tail < r.cap) :
    (r.head ≤ r.tail ∧ r.occ = r.tail - r.head) ∨ (r.tail < r.head ∧ r.occ = r.tail + r.cap - r.head) := by
  unfold Ring.occ
  rcases Nat.lt_or_ge r.tail r.head with h | h
  · exact .inr ⟨h, Nat.mod_eq_of_lt (by omega)⟩
  · refine .inl ⟨h, ?_⟩
    rw [show r.tail + r.cap - r.head = (r.tail - r.head) + r.cap by omega, Nat.add_mod_right,
      Nat.mod_eq_of_lt (by omega)]

theorem occ_push {r : Ring} (b : Byte) (hc : 2 ≤ r.cap) (hr : r.inRange = true) (hf : r.full = false) :
    (r.push b).occ = r.occ + 1 := by
  obtain ⟨hh, ht⟩ := (inRange_iff r).1 hr
  have hne : next r.cap r.tail ≠ r.head := fun h => by simp [(full_iff r).2 h] at hf
  have hn := next_eq ht
  have h1 := occ_cases hh ht
  have h2 := occ_cases (r := r.push b) hh (next_lt hc _)
  simp only [push_head, push_tail, push_cap] at h2
  split at hn <;> omega

theorem occ_pop {r : Ring} (hc : 2 ≤ r.cap) (hr : r.inRange = true) (he : r.empty = false) :
    r.occ = r.pop.occ + 1 := by
  obtain ⟨hh, ht⟩ := (inRange_iff r).1 hr
  have hne : r.head ≠ r.tail := fun h => by simp [(empty_iff r).2 h] at he
  have hn := next_eq hh
  have h1 := occ_cases hh ht
  have h2 := occ_cases (r := r.pop) (next_lt hc _) ht
  simp only [pop_head, pop_tail, pop_cap] at h2
  split at hn <;> omega

theorem occ_eq_zero_iff {r : Ring} (hr : r.inRange = true) : r.occ = 0 ↔ r.empty = true := by
  obtain ⟨hh, ht⟩ := (inRange_iff r).1 hr
  have h := occ_cases hh ht
  rw [empty_iff]
  omega

/-- A live cell is not the cell `tail`. -/
theorem live_ne_tail {r : Ring} (hr : r.inRange = true) {k : Nat} (hk : k < r.occ) :
    (r.head + k) % r.cap ≠ r.tail := by
  obtain ⟨hh, ht⟩ := (inRange_iff r).1 hr
  have h := occ_cases hh ht
  rcases Nat.lt_or_ge (r.head + k) r.cap with h' | h'
  · rw [Nat.mod_eq_of_lt h']; omega
  · rw [Nat.mod_eq_sub_mod h', Nat.mod_eq_of_lt (by omega)]; omega

theorem head_add_occ {r : Ring} (hr : r.inRange = true) : (r.head + r.occ) % r.cap = r.tail := by
  obtain ⟨hh, ht⟩ := (inRange_iff r).1 hr
  rcases occ_cases hh ht with ⟨_, h⟩ | ⟨_, h⟩
  · rw [show r.head + r.occ = r.tail by omega, Nat.mod_eq_of_lt ht]
  · rw [show r.head + r.occ = r.tail + r.cap by omega, Nat.add_mod_right, Nat.mod_eq_of_lt ht]

theorem next_add (n h k : Nat) : (next n h + k) % n = (h + (k + 1)) % n := by
  unfold next
  rw [Nat.mod_add_mod]
  congr 1
  omega

theorem contents_length (q : FifoId) (r : Ring) : (r.contents q).length = r.occ := by
  simp [Ring.contents]

/-- An accepted ENQUEUE puts its byte behind the outstanding ones. -/
theorem contents_push (q : FifoId) {r : Ring} (b : Byte) (hc : 2 ≤ r.cap) (hr : r.inRange = true)
    (hf : r.full = false) : (r.push b).contents q = r.contents q ++ [b] := by
  obtain ⟨-, -, -, -, -, hb, hother⟩ := push_accepts q r b
  unfold Ring.contents
  rw [occ_push b hc hr hf, List.range_succ, List.map_append]
  congr 1
  · apply List.map_congr_left
    intro k hk
    exact hother _ (live_ne_tail hr (List.mem_range.1 hk))
  · simp only [List.map_cons, List.map_nil, push_head, push_cap, head_add_occ hr, hb]

/-- An accepted DEQUEUE takes the oldest outstanding byte. -/
theorem contents_pop (q : FifoId) {r : Ring} (hc : 2 ≤ r.cap) (hr : r.inRange = true) (he : r.empty = false) :
    r.contents q = r.cell q r.head :: r.pop.contents q := by
  obtain ⟨hh, ht⟩ := (inRange_iff r).1 hr
  unfold Ring.contents
  rw [occ_pop hc hr he, List.range_succ_eq_map, List.map_cons, List.map_map]
  simp only [Nat.add_zero, Nat.mod_eq_of_lt hh]
  congr 1
  apply List.map_congr_left
  intro k _
  simp only [Function.comp, pop_head, pop_cap, next_add]
  rfl

theorem contents_init (q : FifoId) (r : Ring) : r.init.contents q = [] := by
  simp [Ring.contents, Ring.occ, Ring.init]

end Sys2Proof.Machine
end

