-- ==== Sys2Proof/Laws/Ops.lean ====
section
/-! SUPPORT. What the guards, the draws, the boundary functions and the taking of an interrupt can do, said
once: each lemma is an inversion ("if it answers next, then …") that later proofs cite. -/

namespace Sys2Proof.Machine

@[simp] theorem guarded_none (go : Result) : guarded none go = go := rfl

@[simp] theorem guarded_some (r : Refusal) (go : Result) : guarded (some r) go = .refused r := rfl

theorem guarded_next {why : Option Refusal} {go : Result} {t : State} :
    guarded why go = .next t ↔ why = none ∧ go = .next t := by
  cases why <;> simp

@[simp] theorem andThen_next (s : State) (go : State → Result) : andThen (.next s) go = go s := rfl

@[simp] theorem andThen_refused (e : Refusal) (go : State → Result) : andThen (.refused e) go = .refused e := rfl

@[simp] theorem andThen_fault (f : Fault) (go : State → Result) : andThen (.fault f) go = .fault f := rfl

theorem andThen_eq_next {r : Result} {go : State → Result} {t : State} :
    andThen r go = .next t ↔ ∃ s, r = .next s ∧ go s = .next t := by
  cases r <;> simp

@[simp] theorem firstRefusal_nil : firstRefusal [] = none := rfl

theorem firstRefusal_cons (b : Bool) (r : Refusal) (l : List (Bool × Refusal)) :
    firstRefusal ((b, r) :: l) = if b then some r else firstRefusal l := rfl

theorem firstRefusal_cons_none (b : Bool) (r : Refusal) (l : List (Bool × Refusal)) :
    firstRefusal ((b, r) :: l) = none ↔ b = false ∧ firstRefusal l = none := by
  cases b <;> simp [firstRefusal_cons]

theorem syncGuard_iff (s : State) : syncGuard s = none ↔ SyncReady s := by
  simp [syncGuard, firstRefusal_cons_none, Ring.capOk, SyncReady, inRange_iff, -decide_not]

theorem isCode_iff (n : Nat) (g : Nat) : isCode n g = true ↔ ∃ i < n, g = gray n i := by
  simp [isCode, eq_comm (a := g)]

theorem asyncGuard_iff (s : State) : asyncGuard s = none ↔ AsyncReady s := by
  simp [asyncGuard, firstRefusal_cons_none, AsyncFifo.capOk, Ring.capOk, AsyncReady, inRange_iff,
    AsyncFifo.codesOk, isCode_iff, and_assoc, -decide_not]

theorem uartGuard_iff (s : State) : uartGuard s = none ↔ UartReady s := by
  simp [uartGuard, firstRefusal_cons_none, Ring.capOk, UartReady, inRange_iff, and_assoc, -decide_not]

theorem fgGuard_iff (s : State) : fgGuard s = none ↔ s.uart.fg = .idle := by
  simp [fgGuard, firstRefusal_cons_none]

/-- A draw leaves everything but the two fields it is taken from. -/
theorem takeDraw_frame (racing : Bool) (s : State) :
    (takeDraw racing s).2 = { s with draws := (takeDraw racing s).2.draws, free := (takeDraw racing s).2.free } := by
  unfold takeDraw
  split
  · split <;> rfl
  · rfl

@[simp] theorem takeDraw_sync (c : Bool) (s : State) : (takeDraw c s).2.sync = s.sync := by rw [takeDraw_frame]
@[simp] theorem takeDraw_async (c : Bool) (s : State) : (takeDraw c s).2.async = s.async := by rw [takeDraw_frame]
@[simp] theorem takeDraw_uart (c : Bool) (s : State) : (takeDraw c s).2.uart = s.uart := by rw [takeDraw_frame]
@[simp] theorem takeDraw_query (c : Bool) (s : State) : (takeDraw c s).2.query = s.query := by rw [takeDraw_frame]
@[simp] theorem takeDraw_params (c : Bool) (s : State) : (takeDraw c s).2.params = s.params := by rw [takeDraw_frame]
@[simp] theorem takeDraw_pending (c : Bool) (s : State) : (takeDraw c s).2.pending = s.pending := by
  rw [takeDraw_frame]

/-- No draw is taken for a stable signal. -/
@[simp] theorem takeDraw_stable (s : State) : takeDraw false s = (true, s) := rfl

/-- A racing sample takes the outcome the outside has fixed. -/
theorem takeDraw_fixed {s : State} {d : Bool} {ds : List Bool} (h : s.draws = d :: ds) :
    takeDraw true s = (d, { s with draws := ds }) := by
  simp [takeDraw, h]

/-- The sampling rule (R193). -/
theorem sample_sampled {α : Type} (fresh d : Bool) (old cur : α) : Sampled fresh old cur (sample fresh old cur d) := by
  unfold Sampled sample
  cases fresh <;> cases d <;> simp

/-- What the core's clearing of a condition does to its crossing. -/
theorem clear_clears (c : Crossing) : c.Clears c.clear := by
  refine ⟨rfl, rfl, rfl, rfl, fun h => ?_, fun h => ?_⟩ <;> simp [h]

theorem writeOutputRegister_next {b : Byte} {s t : State} :
    writeOutputRegister b s = .next t ↔
      s.uart.outReg = none ∧
        t = { s with uart := { s.uart with outReg := some b, tx := s.uart.tx.clear } } := by
  unfold writeOutputRegister
  cases s.uart.outReg <;> simp [eq_comm]

theorem readInputRegister_next {s t : State} {go : Byte → State → Result} :
    readInputRegister s go = .next t ↔
      s.uart.rx.cond = true ∧
        go s.uart.inReg { s with uart := { s.uart with rx := s.uart.rx.clear } } = .next t := by
  unfold readInputRegister
  cases s.uart.rx.cond <;> simp

/-- A handler run that answers a next state was enabled (R267), and its body answered. -/
theorem takeInterrupt_next {pending : Bool} {body : State → Result} {s t : State} :
    takeInterrupt pending body s = .next t ↔ UartReady s ∧ pending = true ∧ body s = .next t := by
  unfold takeInterrupt
  rw [guarded_next, uartGuard_iff]
  cases pending <;> simp

/-- A draw's outcome depends on the fields it is taken from alone. -/
theorem takeDraw_congr {racing : Bool} {s t : State} (hd : s.draws = t.draws) (hf : s.free = t.free) :
    (takeDraw racing s).1 = (takeDraw racing t).1 := by
  unfold takeDraw
  rw [hd, hf]
  cases racing
  · rfl
  · cases t.draws <;> rfl

/-! ### Events -/

theorem command_eq_some_iff (e : Event) (i : Instr) :
    e.command = some i ↔ ∃ p w, e = .word p w ∧ decode p w = .command i := by
  cases e with
  | word p w => cases h : decode p w <;> simp [Event.command, h]
  | startFg w => simp [Event.command]
  | fgStep => simp [Event.command]
  | holdReset => simp [Event.command]

/-- A word event that runs a command is that command's meaning. -/
theorem runEvent_command {e : Event} {i : Instr} (h : e.command = some i) (s : State) :
    runEvent e s = exec i s := by
  obtain ⟨p, w, rfl, hd⟩ := (command_eq_some_iff e i).1 h
  simp [runEvent, hd]

/-- What an event that answers a next state has been: a command, the empty set of handler runs, a transaction taken
up, a micro-step of FG, or the rise of a held `arst`. -/
theorem runEvent_next {e : Event} {s t : State} (h : runEvent e s = .next t) :
    (∃ i, e.command = some i ∧ exec i s = .next t) ∨ (e.command = none ∧ t = s) ∨
      (∃ w i, e = .startFg w ∧ decode .t w = .command i ∧ startForeground i s = .next t) ∨
      (e = .fgStep ∧ foregroundStep s = .next t) ∨ (e = .holdReset ∧ raiseReset true s = .next t) := by
  cases e with
  | word p w => cases hd : decode p w <;> simp_all [runEvent, Event.command]
  | startFg w => cases hd : decode .t w <;> simp_all [runEvent, Event.command]
  | fgStep => exact .inr (.inr (.inr (.inl ⟨rfl, h⟩)))
  | holdReset => exact .inr (.inr (.inr (.inr ⟨rfl, h⟩)))

end Sys2Proof.Machine
end

