-- ==== Sys2Proof/Laws/PerInstr.lean ====
section
/-! SUPPORT. A family of statements about every instruction as syntax: the word the encoder writes fits the
port it is presented on (R90, R107). -/

namespace Sys2Proof.Laws.EncodedWordFits

/-- The encoder's word has no bit above its port's width. -/
def Statement (i : Instr) : Prop := (encode i).1.fits (encode i).2 = true

/-- A code of three bits above a byte fits a port of eleven bits, one of one bit a port of nine. -/
theorem codeWord_lt (code : Nat) (d : Byte) {k : Nat} (h : code < 2 ^ k) : codeWord code d < 2 ^ (k + 8) := by
  have := d.isLt
  unfold codeWord
  rw [Nat.pow_add]
  omega

theorem nop : Statement .nop := rfl
theorem enq (d : Byte) : Statement (.enq d) := decide_eq_true (codeWord_lt 1 d (k := 3) (by decide))
theorem deq : Statement .deq := rfl
theorem enqdeq (d : Byte) : Statement (.enqdeq d) := decide_eq_true (codeWord_lt 3 d (k := 3) (by decide))
theorem init : Statement .init := rfl
theorem wNop : Statement .wNop := rfl
theorem wEnq (d : Byte) : Statement (.wEnq d) := decide_eq_true (codeWord_lt 1 d (k := 1) (by decide))
theorem rNop : Statement .rNop := rfl
theorem rDeq : Statement .rDeq := rfl
theorem aRun : Statement .aRun := rfl
theorem aInit : Statement .aInit := rfl
theorem isEmpty (p : StatusPort) : Statement (.isEmpty p) := rfl
theorem isFull (p : StatusPort) : Statement (.isFull p) := rfl
theorem tNop : Statement .tNop := rfl
theorem send (d : Byte) : Statement (.send d) := decide_eq_true (codeWord_lt 1 d (k := 3) (by decide))
theorem receive : Statement .receive := rfl
theorem uartInit : Statement .uartInit := rfl
theorem prime : Statement .prime := rfl
theorem tReserved5 : Statement .tReserved5 := rfl
theorem tReserved6 : Statement .tReserved6 := rfl
theorem tReserved7 : Statement .tReserved7 := rfl
theorem txIrq : Statement .txIrq := rfl
theorem rxIrq : Statement .rxIrq := rfl
theorem hwTxDone : Statement .hwTxDone := rfl
theorem hwRxByte (b : Byte) : Statement (.hwRxByte b) := decide_eq_true b.isLt
theorem clk : Statement .clk := rfl

end Sys2Proof.Laws.EncodedWordFits
end

