-- ==== Sys2Proof/Tests/Slice0.lean ====
section
/-! SUPPORT. The model's own tests. Every expected result is a line of 95_test_vectors.md, or is worked out by
hand from the rule named. The last part shows, for every statement with hypotheses, states and operands that meet
them. -/

namespace Sys2Proof.Tests

open Sys2Proof Sys2Proof.Machine

/-! ### Helpers -/

/-- One part of the state a step answers with; none if it stops. -/
def after {α : Type} (r : Result) (part : State → α) : Option α :=
  match r with
  | .next t => some (part t)
  | .fault _ => none
  | .refused _ => none

/-- Why a step is refused, if it is. -/
def refusal (r : Result) : Option Refusal :=
  match r with
  | .next _ => none
  | .fault _ => none
  | .refused e => some e

/-- An instance after `h` dequeues and `t` enqueues. -/
def ringAt (n h t : Nat) (cells : Memory) : Ring :=
  { cap := n, storage := cells, head := h % n, tail := t % n, ghostH := h, ghostT := t }

/-- The reset machine with this instance in `sync_fifo`. -/
def syncAt (r : Ring) : State :=
  { State.reset with sync := { State.reset.sync with ring := r } }

/-- The reset machine with an `async_fifo` of N = 4 that has seen `t` enqueues and `h` dequeues, with these code
words in `hs1`, `hs2`, `ts1`, `ts2`. -/
def asyncAt (h t hs1 hs2 ts1 ts2 : Nat) (cells : Memory) : State :=
  { State.reset with
    async :=
      { State.reset.async with
        ring := ringAt 4 h t cells
        headGray := gray 4 (h % 4)
        tailGray := gray 4 (t % 4)
        headPrev := gray 4 (h % 4)
        tailPrev := gray 4 (t % 4)
        hs1 := hs1
        hs2 := hs2
        ts1 := ts1
        ts2 := ts2 } }

/-- A condition flag at 1 whose request has reached both stages. -/
def pendingFlag : Crossing := { cond := true, old := false, fresh := false, f1 := true, f2 := true }

/-- A condition flag that has just risen. -/
def risenFlag : Crossing := { cond := true, old := false, fresh := true, f1 := false, f2 := false }

/-- The reset machine with these queues, transmit state and output register. -/
def uartAt (txq rxq : Ring) (st : TxState) (out : Option Byte) : State :=
  { State.reset with
    uart := { State.reset.uart with txq := txq, rxq := rxq, txState := st, outReg := out } }

/-- The same machine with another transmit flag. -/
def withTx (c : Crossing) (s : State) : State := { s with uart := { s.uart with tx := c } }

/-- The same machine with a byte in `in_reg` and another receive flag. -/
def withRx (c : Crossing) (b : Byte) (s : State) : State :=
  { s with uart := { s.uart with rx := c, inReg := b } }

/-- The same machine with these bytes seen on the receive line. -/
def onLine (bs : List Byte) (s : State) : State := { s with uart := { s.uart with wireRx := bs } }

/-- The same machine with FG at this micro-step. -/
def withFg (f : Fg) (s : State) : State := { s with uart := { s.uart with fg := f } }

/-- The same machine with another RX_OVERRUN. -/
def withOverrun (o : RxOverrun) (s : State) : State := { s with params := { s.params with rxOverrun := o } }

/-- The same machine with another FLAG_SYNC. -/
def withFlagSync (f : FlagSync) (s : State) : State := { s with params := { s.params with flagSync := f } }

/-- The indices of an instance. -/
def ends (r : Ring) : Nat × Nat := (r.head, r.tail)

/-! ### Well-formedness (R106, R107): each ill-formed term is refused -/

theorem test_wellFormed_refuses_reserved5 : Instr.wellFormed .tReserved5 = false := by decide
theorem test_wellFormed_refuses_reserved6 : Instr.wellFormed .tReserved6 = false := by decide
theorem test_wellFormed_refuses_reserved7 : Instr.wellFormed .tReserved7 = false := by decide
theorem test_wellFormed_admits_prime : Instr.wellFormed .prime = true := by decide
theorem test_fits_refuses_12_bits_on_x : Port.fits .x 0x800 = false := by decide
theorem test_fits_refuses_10_bits_on_w : Port.fits .w 0x200 = false := by decide
theorem test_fits_refuses_2_bits_on_r : Port.fits .r 2 = false := by decide
theorem test_fits_refuses_2_bits_on_a : Port.fits .a 2 = false := by decide
theorem test_fits_refuses_3_bits_on_e : Port.fits (.e .tx) 4 = false := by decide
theorem test_fits_refuses_12_bits_on_t : Port.fits .t 0x800 = false := by decide
theorem test_fits_admits_all_ones : Port.fits .x 0x7FF = true ∧ Port.fits .w 0x1FF = true := by decide

/-! ### Decoding: words written out from R92, R94 to R97, R100, R101 -/

theorem test_decode_nop : decode .x 0b000_1111_1111 = .command .nop := by decide
theorem test_decode_enq : decode .x 0b001_0101_0101 = .command (.enq 0x55) := by decide
theorem test_decode_deq : decode .x 0b010_1111_1111 = .command .deq := by decide
theorem test_decode_enqdeq : decode .x 0b011_1011_0010 = .command (.enqdeq 0xB2) := by decide
theorem test_decode_init :
    decode .x 0b100_0000_0000 = .command .init ∧ decode .x 0b101_1010_1010 = .command .init ∧
      decode .x 0b110_0101_0101 = .command .init ∧ decode .x 0b111_1110_1110 = .command .init := by decide
theorem test_decode_wNop : decode .w 0b0_1111_1111 = .command .wNop := by decide
theorem test_decode_wEnq : decode .w 0b1_0001_0001 = .command (.wEnq 0x11) := by decide
theorem test_decode_rNop : decode .r 0b0 = .command .rNop := by decide
theorem test_decode_rDeq : decode .r 0b1 = .command .rDeq := by decide
theorem test_decode_aRun : decode .a 0b0 = .command .aRun := by decide
theorem test_decode_aInit : decode .a 0b1 = .command .aInit := by decide
theorem test_decode_isEmpty : decode (.sEmpty .sync) 0b01 = .command (.isEmpty .sync) := by decide
theorem test_decode_isFull : decode (.sFull .asyncRead) 0b10 = .command (.isFull .asyncRead) := by decide
theorem test_decode_tNop : decode .t 0b000_1100_0011 = .command .tNop := by decide
theorem test_decode_send : decode .t 0b001_1111_1111 = .command (.send 0xFF) := by decide
theorem test_decode_receive : decode .t 0b010_1111_1111 = .command .receive := by decide
theorem test_decode_uartInit : decode .t 0b011_0000_0000 = .command .uartInit := by decide
theorem test_decode_prime : decode .t 0b100_0000_0000 = .command .prime := by decide
theorem test_decode_tReserved5 : decode .t 0b101_1111_1111 = .command .tReserved5 := by decide
theorem test_decode_tReserved6 : decode .t 0b110_0000_0000 = .command .tReserved6 := by decide
theorem test_decode_tReserved7 : decode .t 0b111_1111_1111 = .command .tReserved7 := by decide
theorem test_decode_txIrq : decode (.e .rx) 0b01 = .command .txIrq ∧ decode (.e .tx) 0b11 = .command .txIrq := by decide
theorem test_decode_rxIrq : decode (.e .tx) 0b10 = .command .rxIrq ∧ decode (.e .rx) 0b11 = .command .rxIrq := by decide
theorem test_decode_noRun : decode (.e .tx) 0b00 = .noRun := by decide
theorem test_decode_hwTxDone : decode .hwTxDone 0 = .command .hwTxDone := by decide
theorem test_decode_hwRxByte : decode .hwRxByte 0b0100_0001 = .command (.hwRxByte 0x41) := by decide
theorem test_decode_clk : decode .clk 0 = .command .clk := by decide
theorem test_decode_too_wide : decode .t 0x955 = .tooWide := by decide

/-- Vectors 2.7: "`0b00` no handler enabled", so nothing runs, whatever is pending. -/
theorem test_noRun_changes_nothing :
    after (step { withRx risenFlag 0x41 State.reset with pending := [.word (.e .tx) 0b00] })
      (fun t => (t.uart, t.pending)) = some ((withRx risenFlag 0x41 State.reset).uart, []) := by decide

/-! ### Indices, occupancy and the code (vectors 2.1, 2.4) -/

theorem test_next_wraps_at_n : next 10 9 = 0 ∧ next 10 8 = 9 ∧ next 2 1 = 0 ∧ next 256 255 = 0 := by decide
theorem test_occupancy :
    (ringAt 10 9 10 []).occ = 1 ∧ (ringAt 10 7 12 []).occ = 5 ∧ (ringAt 10 5 14 []).occ = 9 := by decide
theorem test_status_word :
    (syncAt (ringAt 10 1 10 [])).status .sync = 0b10 ∧ (syncAt (ringAt 10 4 4 [])).status .sync = 0b01 ∧
      (syncAt (ringAt 4 1 3 [])).status .sync = 0b00 := by decide
theorem test_gray_values :
    gray 4 3 = 0b10 ∧ gray 6 0 = 0b001 ∧ gray 6 5 = 0b101 ∧ gray 10 0 = 0b0010 ∧ gray 10 4 = 0b0100 ∧
      gray 10 5 = 0b1100 ∧ gray 10 9 = 0b1010 ∧ gray 12 11 = 0b1011 ∧ gray 256 128 = 0xC0 := by decide
theorem test_ungray : ungray 10 0b1101 = 6 ∧ isCode 10 0b1000 = false := by decide

/-! ### `sync_fifo` (vectors 2.2, 2.3) -/

theorem test_nop_on_full :
    after (exec .nop (syncAt (ringAt 4 2 5 []))) (fun t => (ends t.sync.ring, t.sync.enqOut)) =
      some ((2, 1), ⟨false, false⟩) := by decide
theorem test_enq_wraps :
    after (exec (.enq 0xFF) (syncAt (ringAt 10 3 9 [])))
      (fun t => (ends t.sync.ring, t.sync.ring.cell .sync 9, t.sync.enqOut)) =
      some ((3, 0), 0xFF, ⟨true, false⟩) := by decide
theorem test_enq_full :
    after (exec (.enq 0xAB) (syncAt (ringAt 10 5 14 [(4, 0x10)])))
      (fun t => (ends t.sync.ring, t.sync.ring.cell .sync 4, t.sync.enqOut)) =
      some ((5, 4), 0x10, ⟨false, true⟩) := by decide
theorem test_deq_wraps :
    after (exec .deq (syncAt (ringAt 10 9 11 [(9, 0x7E)]))) (fun t => (ends t.sync.ring, t.sync.deqOut)) =
      some ((0, 1), ⟨true, false, 0x7E⟩) := by decide
theorem test_deq_empty :
    after (exec .deq (syncAt (ringAt 2 1 1 []))) (fun t => (ends t.sync.ring, t.sync.deqOut.ok, t.sync.deqOut.err)) =
      some ((1, 1), false, true) := by decide
theorem test_enqdeq_on_full :
    after (exec (.enqdeq 0xC3) (syncAt (ringAt 4 1 4 [(0, 0x77), (1, 0xA1)])))
      (fun t => (ends t.sync.ring, t.sync.ring.cell .sync 0, t.sync.enqOut, t.sync.deqOut)) =
      some ((2, 0), 0x77, ⟨false, true⟩, ⟨true, false, 0xA1⟩) := by decide
theorem test_enqdeq_on_empty :
    after (exec (.enqdeq 0xD4) (syncAt (ringAt 4 2 2 [])))
      (fun t => (ends t.sync.ring, t.sync.ring.cell .sync 2, t.sync.enqOut, t.sync.deqOut.ok, t.sync.deqOut.err)) =
      some ((2, 3), 0xD4, ⟨true, false⟩, false, true) := by decide
theorem test_init_keeps_cells :
    after (exec .init (syncAt (ringAt 4 1 3 [(1, 0xA1)])))
      (fun t => (ends t.sync.ring, t.sync.ring.storage, t.sync.enqOut)) =
      some ((0, 0), [(1, 0xA1)], ⟨false, false⟩) := by decide
theorem test_isEmpty :
    after (exec (.isEmpty .sync) (syncAt (ringAt 10 4 4 []))) (fun t => t.query) = some true ∧
      after (exec (.isEmpty .sync) (syncAt (ringAt 10 0 9 []))) (fun t => t.query) = some false := by decide
theorem test_isFull :
    after (exec (.isFull .sync) (syncAt (ringAt 2 0 1 []))) (fun t => t.query) = some true ∧
      after (exec (.isFull .asyncWrite) (asyncAt 1 4 0b01 0b01 0b11 0b11 [])) (fun t => t.query) = some true := by
  decide

/-! ### `async_fifo` (vectors 2.5) -/

theorem test_wNop_shifts :
    after (exec .wNop (asyncAt 1 1 0b01 0b00 0b01 0b01 [])) (fun t => (t.async.hs1, t.async.hs2)) =
      some (0b01, 0b01) := by decide
theorem test_wEnq_against_stale_view :
    after (exec (.wEnq 0x44) (asyncAt 1 3 0b01 0b00 0b11 0b11 [(3, 0x09)]))
      (fun t => (t.async.ring.tail, t.async.ring.cell .async 3, t.async.hs1, t.async.hs2, t.async.enqOut)) =
      some (3, 0x09, 0b01, 0b01, ⟨false, true⟩) := by decide
theorem test_wEnq_wraps :
    after (exec (.wEnq 0x44) (asyncAt 1 3 0b01 0b01 0b11 0b11 []))
      (fun t =>
        (t.async.ring.tail, t.async.ring.cell .async 3, t.async.tailGray, t.async.tailPrev, t.async.tailFresh)) =
      some (0, 0x44, 0b00, 0b10, true) := by decide
theorem test_rNop_draws_old :
    after
      (exec .rNop
        { asyncAt 0 1 0 0 0b00 0b00 [(0, 0x11)] with
          draws := [false]
          async := { (asyncAt 0 1 0 0 0b00 0b00 [(0, 0x11)]).async with tailPrev := 0b00, tailFresh := true } })
      (fun t => (t.async.ts1, t.async.ts2, t.async.tailFresh, t.draws)) =
      some (0b00, 0b00, false, []) := by decide
theorem test_rDeq_returns :
    after (exec .rDeq (asyncAt 0 1 0 0 0b01 0b01 [(0, 0x11)]))
      (fun t => (t.async.ring.head, t.async.headGray, t.async.headPrev, t.async.headFresh, t.async.deqOut)) =
      some (1, 0b01, 0b00, true, ⟨true, false, 0x11⟩) := by decide
theorem test_rDeq_in_flight :
    after (exec .rDeq (asyncAt 0 1 0 0 0b01 0b00 [(0, 0x11)]))
      (fun t => (t.async.ring.head, t.async.ts1, t.async.ts2, t.async.deqOut.ok, t.async.deqOut.err)) =
      some (0, 0b01, 0b01, false, true) := by decide
theorem test_aInit_ten :
    after (exec .aInit { State.reset with async := { State.reset.async with ring := ringAt 10 1 3 [(1, 0x22)] } })
      (fun t => (ends t.async.ring, t.async.ring.cell .async 1, t.async.tailGray, t.async.hs2, t.async.ts1)) =
      some ((0, 0), 0x22, 0b0010, 0b0010, 0b0010) := by decide
theorem test_aRun : after (exec .aRun (asyncAt 1 3 0b01 0b01 0b11 0b11 [])) (fun t => ends t.async.ring) =
    some (1, 3) := by decide

/-! ### The transport controller (vectors 2.6, 2.7; N = 10, FLAG_SYNC = 2) -/

theorem test_uartInit_flushes :
    after (exec .uartInit (uartAt (ringAt 10 3 7 []) (ringAt 10 2 2 []) .idle none))
      (fun t => (ends t.uart.txq, ends t.uart.rxq, t.uart.txState, t.uart.tres)) =
      some ((0, 0), (0, 0), .idle, 0) := by decide
theorem test_uartInit_refused_while_transmitting :
    refusal (exec .uartInit (uartAt (ringAt 10 1 3 []) (ringAt 10 0 0 []) .transmitting none)) =
      some .uartInitWhileTransmitting := by decide
theorem test_send_primes :
    after (exec (.send 0x0A) (uartAt (ringAt 10 9 9 []) (ringAt 10 0 0 []) .idle none))
      (fun t => (ends t.uart.txq, t.uart.txq.cell .tx 9, t.uart.txState, t.uart.outReg, t.uart.tres)) =
      some ((0, 0), 0x0A, .transmitting, some 0x0A, 0) := by decide
theorem test_send_full :
    after (exec (.send 0x99) (uartAt (ringAt 4 1 4 []) (ringAt 10 0 0 []) .transmitting (some 0x10)))
      (fun t => (ends t.uart.txq, t.uart.txq.storage, t.uart.outReg, t.uart.tres)) =
      some ((1, 0), [], some 0x10, 1) := by decide
theorem test_prime_starts :
    after (exec .prime (uartAt (ringAt 10 4 5 [(4, 0xA7)]) (ringAt 10 0 0 []) .idle none))
      (fun t => (ends t.uart.txq, t.uart.txState, t.uart.outReg)) =
      some ((5, 5), .transmitting, some 0xA7) := by decide
theorem test_prime_nothing_to_send :
    after (exec .prime (uartAt (ringAt 10 2 2 []) (ringAt 10 0 0 []) .idle none))
      (fun t => (ends t.uart.txq, t.uart.txState, t.uart.outReg, t.uart.tres)) =
      some ((2, 2), .idle, none, 0) := by decide
theorem test_receive_returns :
    after (exec .receive (uartAt (ringAt 10 0 0 []) (ringAt 10 0 1 [(0, 0x41)]) .idle none))
      (fun t => (ends t.uart.rxq, t.uart.rdata, t.uart.tres)) = some ((1, 1), 0x41, 0) := by decide
theorem test_receive_empty :
    after (exec .receive (uartAt (ringAt 10 0 0 []) (ringAt 10 1 1 []) .idle none))
      (fun t => (ends t.uart.rxq, t.uart.tres)) = some ((1, 1), 2) := by decide
theorem test_tNop :
    after (exec .tNop (uartAt (ringAt 10 1 3 []) (ringAt 10 0 0 []) .transmitting none))
      (fun t => (ends t.uart.txq, t.uart.txState, t.uart.tres)) = some ((1, 3), .transmitting, 0) := by decide
theorem test_reserved_refused : refusal (exec .tReserved5 State.reset) = some .reservedTop := by decide
theorem test_txIrq_sends_one :
    after (exec .txIrq (withTx pendingFlag
        (uartAt (ringAt 10 2 5 [(2, 0x01), (3, 0x02), (4, 0x03)]) (ringAt 10 0 0 []) .transmitting none)))
      (fun t => (ends t.uart.txq, t.uart.outReg, t.uart.tx.cond, t.txReq, t.uart.txState)) =
      some ((3, 5), some 0x01, false, false, .transmitting) := by decide
theorem test_txIrq_pauses :
    after (exec .txIrq (withTx pendingFlag (uartAt (ringAt 10 2 2 []) (ringAt 10 0 0 []) .transmitting none)))
      (fun t => (ends t.uart.txq, t.uart.outReg, t.uart.tx.cond, t.txReq, t.uart.txState)) =
      some ((2, 2), none, false, false, .idle) := by decide
/-- R33: after the clearing, `s_prev` is the value before it. -/
theorem test_clear_keeps_previous_value : pendingFlag.clear = { Crossing.reset with old := true } := by decide
theorem test_rxIrq_stores :
    after (exec .rxIrq (withRx pendingFlag 0x41 State.reset))
      (fun t => (ends t.uart.rxq, t.uart.rxq.cell .rx 0, t.uart.rx.cond, t.rxReq)) =
      some ((0, 1), 0x41, false, false) := by decide
theorem test_rxIrq_drops :
    after (exec .rxIrq (withRx pendingFlag 0x7E (uartAt (ringAt 10 0 0 []) (ringAt 10 0 9 []) .idle none)))
      (fun t => (ends t.uart.rxq, t.uart.rxq.storage, t.uart.rx.cond, t.uart.tres)) =
      some ((0, 9), [], false, 0) := by decide
theorem test_hwTxDone :
    after (exec .hwTxDone (uartAt (ringAt 10 1 1 []) (ringAt 10 0 0 []) .transmitting (some 0x55)))
      (fun t => (t.uart.outReg, t.uart.wireTx, t.uart.tx)) = some (none, [0x55], risenFlag) := by decide
theorem test_hwTxDone_not_enabled : refusal (exec .hwTxDone State.reset) = some .nothingToTransmit := by decide
theorem test_hwRxByte :
    after (exec (.hwRxByte 0x41) State.reset) (fun t => (t.uart.inReg, t.uart.wireRx, t.uart.rx)) =
      some (0x41, [0x41], risenFlag) := by decide
theorem test_hwRxByte_overrun :
    refusal (exec (.hwRxByte 0x42) (withRx pendingFlag 0x41 State.reset)) = some .rxOverrun := by decide
theorem test_clk_draws_new :
    after (exec .clk { withTx risenFlag State.reset with draws := [true] })
      (fun t => (t.uart.tx.f1, t.uart.tx.f2, t.uart.tx.fresh, t.txReq)) = some (true, false, false, false) := by
  decide
theorem test_clk_second_edge :
    after (exec .clk (withTx { pendingFlag with f2 := false } State.reset))
      (fun t => (t.uart.tx.f1, t.uart.tx.f2, t.txReq)) = some (true, true, true) := by decide

/-- P8 (b), variant A, its step E4 to S6: the handler ran inside SEND, and the priming test finds Idle. -/
theorem test_send_micro_step_after_handler :
    after (foregroundStep
        { uartAt (ringAt 10 2 2 [(2, 0x77)]) (ringAt 10 0 0 []) .idle none with
          uart := { (uartAt (ringAt 10 2 2 [(2, 0x77)]) (ringAt 10 0 0 []) .idle none).uart with fg := .sendE4 } })
      (fun t => (ends t.uart.txq, t.uart.fg)) = some ((2, 3), .sendS5) := by decide

/-! ### Witnesses: states and operands that meet the hypotheses of each statement, clause by clause -/

/-- A step answers a next state. -/
def goesOn (r : Result) : Prop := ∃ t, r = .next t

def syncBusy : State := syncAt (ringAt 4 1 3 [(1, 0xA1), (2, 0xA2)])
def syncFull : State := syncAt (ringAt 4 1 4 [(1, 0xA1), (2, 0xA2), (3, 0xA3)])
def syncEmpty : State := syncAt (ringAt 4 3 3 [])

/-- Two bytes outstanding, both code registers fresh, two outcomes fixed. -/
def asyncBusy : State :=
  { asyncAt 2 4 0b01 0b01 0b10 0b11 [(2, 0x22), (3, 0x33)] with
    draws := [true, false]
    async :=
      { (asyncAt 2 4 0b01 0b01 0b10 0b11 [(2, 0x22), (3, 0x33)]).async with
        headPrev := 0b01, headFresh := true, tailPrev := 0b10, tailFresh := true } }
def asyncFull : State := asyncAt 1 4 0b01 0b01 0b00 0b00 [(1, 0x11), (2, 0x22), (3, 0x33)]
def asyncEmpty : State := asyncAt 4 4 0b00 0b00 0b00 0b00 []

/-- The machine with `arst` held. -/
def asyncHeld : State := { asyncEmpty with async := { asyncEmpty.async with arst := true } }

/-- A byte in the output register and two more in TXQ. -/
def uartBusy : State :=
  uartAt (ringAt 4 2 4 [(2, 0x33), (3, 0x44)]) (ringAt 4 0 1 [(0, 0x41)]) .transmitting (some 0x55)

/-- The byte has gone, and a byte has arrived: both requests are pending. -/
def uartPending : State :=
  onLine [0x41, 0x42] (withRx pendingFlag 0x42
    (withTx pendingFlag (uartAt (ringAt 4 2 4 [(2, 0x33), (3, 0x44)]) (ringAt 4 0 1 [(0, 0x41)]) .transmitting none)))

/-- Idle, with nothing to send. -/
def uartIdle : State := uartAt (ringAt 4 3 3 []) (ringAt 4 2 2 []) .idle none

/-- Idle with a byte to send, as inside SEND only. -/
def uartUnprimed : State := uartAt (ringAt 4 3 4 [(3, 0x99)]) (ringAt 4 2 2 []) .idle none

/-- No block has been reset. -/
def notReset : State :=
  { State.reset with
    sync := { State.reset.sync with up := false }
    async := { State.reset.async with up := false }
    uart := { State.reset.uart with irqEnabled := false } }

/-- With this event presented. -/
def offered (e : Event) (s : State) : State := { s with pending := [e] }

theorem witness_syncReady : SyncReady syncBusy ∧ SyncReady syncFull ∧ SyncReady syncEmpty := by
  unfold SyncReady; decide

theorem witness_asyncReady : AsyncReady asyncBusy ∧ AsyncReady asyncFull ∧ AsyncReady asyncEmpty ∧ AsyncReady asyncHeld := by
  unfold AsyncReady; decide

theorem witness_uartReady : UartReady uartBusy ∧ UartReady uartPending ∧ UartReady uartIdle ∧ UartReady uartUnprimed := by
  unfold UartReady; decide

theorem witness_fgReady : FgReady uartBusy ∧ FgReady uartPending ∧ FgReady uartIdle ∧ FgReady uartUnprimed := by
  unfold FgReady UartReady; decide

theorem witness_syncInv : syncFull.SyncInv ∧ syncEmpty.SyncInv := by
  unfold State.SyncInv Ring.Inv Ring.StorageOk Ring.GhostOk Ring.LiveWritten; decide

theorem witness_asyncInv_busy : asyncBusy.AsyncInv := by
  refine ⟨by decide, by decide, by unfold Ring.StorageOk; decide, fun _ => ⟨⟨1, 1, 2, 3, ?_⟩, ?_⟩⟩
  · decide
  · unfold Ring.LiveWritten; decide

theorem witness_asyncInv_full : asyncFull.AsyncInv := by
  refine ⟨by decide, by decide, by unfold Ring.StorageOk; decide, fun _ => ⟨⟨1, 1, 4, 4, ?_⟩, ?_⟩⟩
  · decide
  · unfold Ring.LiveWritten; decide

theorem witness_asyncInv_empty : asyncEmpty.AsyncInv := by
  refine ⟨by decide, by decide, by unfold Ring.StorageOk; decide, fun _ => ⟨⟨4, 4, 4, 4, ?_⟩, ?_⟩⟩
  · decide
  · unfold Ring.LiveWritten; decide

theorem witness_uartInv_busy : uartBusy.UartInv := by
  refine ⟨by decide, by decide, ?_, ?_, fun _ => ⟨⟨?_, ?_, ?_, ?_⟩, ?_⟩⟩
  · unfold Ring.StorageOk; decide
  · unfold Ring.StorageOk; decide
  · unfold Ring.Inv Ring.StorageOk Ring.GhostOk Ring.LiveWritten; decide
  · unfold Ring.Inv Ring.StorageOk Ring.GhostOk Ring.LiveWritten; decide
  · refine ⟨by unfold Crossing.Inv; decide, by unfold Crossing.Inv; decide, by decide, by decide, by decide, ?_⟩
    exact fun _ => .inl (by decide)
  · show uartBusy.uart.txState = .idle → uartBusy.uart.txq.empty = true
    decide
  · unfold State.UnreadIsLast; decide

theorem witness_uartInv_pending : uartPending.UartInv := by
  refine ⟨by decide, by decide, ?_, ?_, fun _ => ⟨⟨?_, ?_, ?_, ?_⟩, ?_⟩⟩
  · unfold Ring.StorageOk; decide
  · unfold Ring.StorageOk; decide
  · unfold Ring.Inv Ring.StorageOk Ring.GhostOk Ring.LiveWritten; decide
  · unfold Ring.Inv Ring.StorageOk Ring.GhostOk Ring.LiveWritten; decide
  · refine ⟨by unfold Crossing.Inv; decide, by unfold Crossing.Inv; decide, by decide, by decide, by decide, ?_⟩
    exact fun _ => .inr (.inl (by decide))
  · show uartPending.uart.txState = .idle → uartPending.uart.txq.empty = true
    decide
  · unfold State.UnreadIsLast; decide

theorem witness_uartInv_flagSync0 : (withFlagSync .none uartBusy).UartInv := witness_uartInv_busy

theorem witness_DecodeEncodeAgree :
    Instr.wellFormed (.enqdeq 0xFF) = true ∧ Instr.wellFormed (.isFull .asyncRead) = true := by decide

theorem witness_FormatXByMatchAndMask :
    0x0FF < 2048 ∧ 0x0FF &&& 0x700 = 0x000 ∧ 0x1FF &&& 0x700 = 0x100 ∧ 0x2FF &&& 0x700 = 0x200 ∧
      0x3FF &&& 0x700 = 0x300 ∧ 0x400 &&& 0x400 = 0x400 ∧ 0x7FF < 2048 ∧ 0x7FF &&& 0x400 = 0x400 := by decide

theorem witness_FormatsWRATByMatchAndMask :
    0x0FF &&& 0x100 = 0x000 ∧ 0x1FF < 512 ∧ 0x1FF &&& 0x100 = 0x100 ∧
      0x0FF &&& 0x700 = 0x000 ∧ 0x1FF &&& 0x700 = 0x100 ∧ 0x2FF &&& 0x700 = 0x200 ∧ 0x3FF &&& 0x700 = 0x300 ∧
      0x4FF &&& 0x700 = 0x400 ∧ 0x5FF &&& 0x700 = 0x500 ∧ 0x6FF &&& 0x700 = 0x600 ∧ 0x7FF < 2048 ∧
      0x7FF &&& 0x700 = 0x700 := by decide

theorem witness_StepRunsThePresentedEvent :
    (offered (.word .x 0x155) syncBusy).pending = .word .x 0x155 :: [] ∧ decode .x 0x155 = .command (.enq 0x55) ∧
      decode (.e .tx) 0b00 = .noRun ∧
      decode .x 0x800 = .tooWide ∧ (offered (.startFg 0x133) uartBusy).pending = .startFg 0x133 :: [] ∧ decode .t 0x133 = .command (.send 0x33) ∧
      (offered .fgStep uartBusy).pending = .fgStep :: [] ∧
      (offered .holdReset asyncBusy).pending = .holdReset :: [] ∧ State.reset.pending = [] := by decide

theorem witness_PlacedWordRunsNext :
    decodeTableWord 11 0x133 = some (.send 0x33) ∧ decodeTableWord 9 0x111 = some (.wEnq 0x11) ∧
      decodeTableWord 8 1 = some .rDeq ∧ decodeTableWord 2 0b01 = some .txIrq ∧
      decodeTableWord 8 0b10 = some .rxIrq := by decide

theorem witness_FlagsFollowOccupancy :
    2 ≤ (ringAt 2 0 1 []).cap ∧ (ringAt 2 0 1 []).head < 2 ∧ (ringAt 2 0 1 []).tail < 2 ∧
      (ringAt 10 9 9 []).head < 10 ∧ (ringAt 10 9 9 []).tail < 10 := by decide

theorem witness_SyncEnqStoresOrReportsFull :
    (syncFull.sync.ring.tail + 1) % syncFull.sync.ring.cap = syncFull.sync.ring.head ∧
      (syncBusy.sync.ring.tail + 1) % syncBusy.sync.ring.cap ≠ syncBusy.sync.ring.head := by decide

theorem witness_SyncDeqReturnsOrReportsEmpty :
    syncEmpty.sync.ring.head = syncEmpty.sync.ring.tail ∧ syncFull.sync.ring.head ≠ syncFull.sync.ring.tail := by decide

theorem witness_SyncInitResetsBothIndices : 2 ≤ syncFull.sync.ring.cap := by decide

theorem witness_EnqdeqIsTwoOperationsInOrder :
    goesOn (exec (.enqdeq 0xB2) syncBusy) ∧ syncBusy.sync.ring.empty = false ∧ syncBusy.sync.ring.full = false ∧
      goesOn (exec (.enqdeq 0xB2) syncFull) ∧ syncFull.sync.ring.full = true ∧
      goesOn (exec (.enqdeq 0xB2) syncEmpty) ∧ syncEmpty.sync.ring.empty = true :=
  ⟨⟨_, rfl⟩, rfl, rfl, ⟨_, rfl⟩, rfl, ⟨_, rfl⟩, rfl⟩

theorem witness_OccupancyLaw :
    goesOn (exec (.enq 0x01) syncFull) ∧ goesOn (exec .deq syncEmpty) ∧ goesOn (exec (.enqdeq 0x02) syncBusy) ∧
      goesOn (exec .nop syncBusy) ∧ goesOn (exec .init syncFull) :=
  ⟨⟨_, rfl⟩, ⟨_, rfl⟩, ⟨_, rfl⟩, ⟨_, rfl⟩, ⟨_, rfl⟩⟩

/-- P4's steps 5 to 7 from its state after step 4. -/
theorem witness_FifoOrderAlongEveryRun :
    ((syncRun [.enqdeq 0x44, .enqdeq 0x55, .deq] (syncAt (ringAt 4 0 3 [(0, 0x11), (1, 0x22), (2, 0x33)]))).map
        fun v => (v.1, v.2.1)) = some ([0x55], [0x11, 0x22, 0x33]) ∧
      ((syncRun [.enq 0x55, .enq 0x33, .deq] syncEmpty).map fun v => (v.1, v.2.1)) =
        some ([0x55, 0x33], [0x55]) := by decide

theorem witness_GrayStepFlipsOneBit : 2 ≤ 6 ∧ 6 % 2 = 0 ∧ 5 < 6 ∧ 5 = 6 - 1 ∧ 0 < 6 := by decide

theorem witness_GrayIsInvertible : 2 ≤ 10 ∧ 10 % 2 = 0 ∧ 9 < 10 := by decide

theorem witness_TNopAnswersOk : 0x7FF < 2048 ∧ 0x5FF &&& 0x700 = 0x500 ∧ 0x6FF &&& 0x700 = 0x600 ∧
    0x7FF &&& 0x700 = 0x700 := by decide

theorem witness_arst_released :
    asyncBusy.async.arst = false ∧ asyncFull.async.arst = false ∧ asyncEmpty.async.arst = false := by decide

/-- The racing clauses of WNop, WEnq, RNop and RDeq. -/
theorem witness_racing_samples :
    asyncBusy.async.headFresh = true ∧ asyncBusy.async.tailFresh = true ∧ asyncBusy.draws = true :: [false] ∧
      asyncFull.async.headFresh = false ∧ asyncFull.async.tailFresh = false := by decide

theorem witness_WEnqStoresOrReportsFull :
    gray 4 ((asyncFull.async.ring.tail + 1) % 4) = asyncFull.async.hs2 ∧
      gray 4 ((asyncEmpty.async.ring.tail + 1) % 4) ≠ asyncEmpty.async.hs2 := by decide

theorem witness_RDeqReturnsOrReportsEmpty :
    asyncEmpty.async.headGray = asyncEmpty.async.ts2 ∧ asyncFull.async.headGray ≠ asyncFull.async.ts2 := by decide

theorem witness_AInitResetsBothDomains : 2 ≤ asyncFull.async.ring.cap ∧ asyncFull.async.ring.cap % 2 = 0 := by decide

theorem witness_HeldResetFreezesTheBlock : asyncHeld.async.arst = true := by decide

theorem witness_AsyncInvariantKept : goesOn (step (offered (.word .w 0x111) asyncEmpty)) := ⟨_, rfl⟩

theorem witness_CodeRegistersChangeOneBit :
    asyncEmpty.async.up = true ∧ goesOn (exec (.wEnq 0x11) asyncEmpty) ∧ goesOn (exec .rDeq asyncFull) ∧
      Instr.wEnq 0x11 ≠ .aInit ∧ Instr.rDeq ≠ .aInit :=
  ⟨rfl, ⟨_, rfl⟩, ⟨_, rfl⟩, by decide, by decide⟩

theorem witness_AsyncStatusBitsAreConservative :
    asyncFull.async.ring.occ = asyncFull.async.ring.cap - 1 ∧ asyncEmpty.async.emptyW = true ∧
      asyncEmpty.async.ring.occ = 0 ∧ asyncFull.async.fullR = true := by decide

theorem witness_AsyncKeepsFifoOrder :
    ¬ asyncResets (.word .w 0x111) ∧ ¬ asyncResets (.word .r 1) ∧ ¬ asyncResets (.word .x 0x155) ∧
      goesOn (runEvent (.word .w 0x111) asyncFull) ∧ goesOn (runEvent (.word .w 0x111) asyncEmpty) ∧
      goesOn (runEvent (.word .r 1) asyncFull) ∧ goesOn (runEvent (.word .r 1) asyncEmpty) ∧
      goesOn (runEvent (.word .x 0x155) asyncFull) := by
  refine ⟨?_, ?_, ?_, ⟨_, rfl⟩, ⟨_, rfl⟩, ⟨_, rfl⟩, ⟨_, rfl⟩, ⟨_, rfl⟩⟩ <;> unfold asyncResets <;> decide

/-- The first `rclk` edge draws the new value, so the second one shows it. -/
theorem witness_ViewsAreExactAfterThreeEdges :
    after (exec .rNop asyncBusy) (fun a => a.async.ts1) = some asyncBusy.async.tailGray ∧
      after (exec .wNop asyncBusy) (fun a => a.async.hs1) = some asyncBusy.async.headGray := by decide

theorem witness_UartInitFlushesBothQueues :
    (2 ≤ notReset.uart.txq.cap ∧ 2 ≤ notReset.uart.rxq.cap ∧ notReset.uart.fg = .idle ∧
        notReset.uart.irqEnabled = false ∧ notReset.uart.outReg = none ∧ notReset.uart.tx.cond = false ∧
        notReset.uart.rx.cond = false) ∧
      (uartIdle.uart.irqEnabled = true ∧ uartIdle.uart.txState = .idle) ∧
      (uartBusy.uart.irqEnabled = true ∧ uartBusy.uart.txState = .transmitting) := by decide

theorem witness_SendEnqueuesAndPrimes :
    (uartAt (ringAt 4 1 4 []) (ringAt 4 0 0 []) .transmitting none).uart.txq.full = true ∧
      uartBusy.uart.txq.full = false ∧ uartBusy.uart.txState = .transmitting ∧
      uartIdle.uart.txq.full = false ∧ uartIdle.uart.txState = .idle ∧ uartIdle.uart.outReg = none ∧
      (uartAt (ringAt 4 0 0 []) (ringAt 4 0 0 []) .idle (some 0x01)).uart.outReg ≠ none := by decide

theorem witness_SendEnqueuesAndPrimes_ready :
    FgReady (uartAt (ringAt 4 1 4 []) (ringAt 4 0 0 []) .transmitting none) ∧
      FgReady (uartAt (ringAt 4 0 0 []) (ringAt 4 0 0 []) .idle (some 0x01)) := by
  unfold FgReady UartReady; decide

theorem witness_PrimeStartsTheChain :
    uartBusy.uart.txState = .transmitting ∧ uartIdle.uart.txq.head = uartIdle.uart.txq.tail ∧
      uartUnprimed.uart.txState = .idle ∧ uartUnprimed.uart.txq.head ≠ uartUnprimed.uart.txq.tail ∧
      uartUnprimed.uart.outReg = none ∧
      (uartAt (ringAt 4 3 4 []) (ringAt 4 2 2 []) .idle (some 0x01)).uart.txq.head ≠ 0 := by decide

theorem witness_ReceiveReturnsOrReportsEmpty :
    uartIdle.uart.rxq.head = uartIdle.uart.rxq.tail ∧ uartBusy.uart.rxq.head ≠ uartBusy.uart.rxq.tail := by decide

theorem witness_TxIrqSendsOneByteOrPauses :
    uartPending.txReq = true ∧ uartPending.uart.txq.head ≠ uartPending.uart.txq.tail ∧
      uartPending.uart.outReg = none ∧
      (withTx pendingFlag (uartAt (ringAt 4 2 2 []) (ringAt 4 0 0 []) .transmitting none)).txReq = true ∧
      uartBusy.txReq = false := by decide

theorem witness_RxIrqStoresOrDropsOneByte :
    uartPending.rxReq = true ∧ uartPending.uart.rx.cond = true ∧ uartPending.uart.rxq.full = false ∧
      (withRx pendingFlag 0x7E (uartAt (ringAt 4 0 0 []) (ringAt 4 1 4 []) .idle none)).uart.rxq.full = true ∧
      uartBusy.rxReq = false := by decide

theorem witness_HwTxDoneTakesTheByte :
    uartBusy.uart.outReg = some 0x55 ∧ uartBusy.uart.tx.cond = false ∧ uartIdle.uart.outReg = none ∧
      after (runEvent (.word .hwTxDone 0) uartBusy) (fun t => t.uart.tx.cond) = some true := by decide

theorem witness_HwRxByteArrives :
    uartBusy.uart.irqEnabled = true ∧ uartBusy.uart.rx.cond = false ∧ notReset.uart.irqEnabled = false ∧
      uartPending.uart.rx.cond = true ∧ uartPending.params.rxOverrun = .none ∧
      after (runEvent (.word .hwRxByte 0x41) uartBusy) (fun t => t.uart.rx.cond) = some true := by decide

theorem witness_ReceiveOverrunFollowsTheParameter :
    uartPending.uart.irqEnabled = true ∧ uartPending.uart.rx.cond = true ∧ uartPending.params.rxOverrun = .none ∧
      (withOverrun .keepOld uartPending).params.rxOverrun = .keepOld ∧
      (withOverrun .overwrite uartPending).params.rxOverrun = .overwrite ∧
      { withOverrun .either uartPending with draws := [true] }.params.rxOverrun = .either ∧
      { withOverrun .either uartPending with draws := [true] }.draws = true :: [] ∧
      after (exec (.hwRxByte 0x99) (withOverrun .keepOld uartPending)) (fun t => t.uart.inReg) = some 0x42 ∧
      after (exec (.hwRxByte 0x99) (withOverrun .overwrite uartPending)) (fun t => t.uart.inReg) = some 0x99 := by
  decide

theorem witness_ClkShiftsTheFlagSynchronisers :
    uartBusy.params.flagSync = .two ∧
      { (withTx risenFlag uartBusy) with draws := [true] }.uart.tx.fresh = true ∧
      uartBusy.uart.tx.fresh = false ∧ (withRx risenFlag 0x01 uartBusy).uart.rx.fresh = true ∧
      { uartBusy with params := { uartBusy.params with flagSync := .none } }.params.flagSync = .none := by decide

theorem witness_HandlerOrderIsUnobservable : goesOn (exec .txIrq uartPending) ∧ goesOn (exec .rxIrq uartPending) :=
  ⟨⟨_, rfl⟩, ⟨_, rfl⟩⟩

theorem witness_MicroStepsMakeTheOperation : goesOn (exec (.send 0x33) uartIdle) := ⟨_, rfl⟩

theorem witness_TransportInvariantKept :
    (offered (.word (.e .tx) 0b01) uartPending).uart = uartPending.uart ∧
      goesOn (step (offered (.word (.e .tx) 0b01) uartPending)) :=
  ⟨rfl, ⟨_, rfl⟩⟩

theorem witness_TransmissionLosesNothing :
    ¬ flushes (.word .t 0x133) uartBusy ∧ goesOn (runEvent (.word .t 0x133) uartBusy) :=
  ⟨by unfold flushes fgTakes; decide, ⟨_, rfl⟩⟩

/-- A RECEIVE, a byte's arrival, and a run of RXH that finds room; and one that finds RXQ full, with RX_OVERRUN = none. -/
theorem witness_ReceptionKeepsOrder :
    ¬ flushes (.word .t 0x200) uartBusy ∧ goesOn (runEvent (.word .t 0x200) uartBusy) ∧
      ¬ flushes (.word .hwRxByte 0x42) uartBusy ∧ goesOn (runEvent (.word .hwRxByte 0x42) uartBusy) ∧
      ¬ flushes (.word (.e .rx) 0b10) uartPending ∧ goesOn (runEvent (.word (.e .rx) 0b10) uartPending) ∧
      after (runEvent (.word (.e .rx) 0b10)
          (withRx pendingFlag 0x7E (uartAt (ringAt 4 0 0 []) (ringAt 4 1 4 []) .idle none)))
        (droppedBytes (.word (.e .rx) 0b10)
          (withRx pendingFlag 0x7E (uartAt (ringAt 4 0 0 []) (ringAt 4 1 4 []) .idle none))) = some [0x7E] ∧
      uartBusy.params.rxOverrun = .none := by
  refine ⟨?_, ⟨_, rfl⟩, ?_, ⟨_, rfl⟩, ?_, ⟨_, rfl⟩, ?_, ?_⟩ <;> try unfold flushes fgTakes
  all_goals decide

/-- The byte in the output register and the byte gone, with FLAG_SYNC = 2 and 0. -/
theorem witness_TransmitterDrains :
    (uartBusy.uart.irqEnabled = true ∧ uartBusy.uart.fg = .idle ∧ uartBusy.uart.outReg = some 0x55) ∧
      (uartPending.uart.irqEnabled = true ∧ uartPending.uart.fg = .idle ∧ uartPending.uart.outReg = none) ∧
      after (runEvents (drainSchedule uartPending) uartPending) (fun t => t.uart.wireTx) = some [0x33, 0x44] ∧
      after (runEvents (drainSchedule (withFlagSync .none uartBusy)) (withFlagSync .none uartBusy))
        (fun t => t.uart.wireTx) = some [0x55, 0x33, 0x44] := by decide

theorem witness_NothingRunsBeforeTheFirstReset :
    2 ≤ notReset.sync.ring.cap ∧ notReset.sync.up = false ∧ notReset.async.ring.cap % 2 = 0 ∧
      notReset.async.up = false ∧ notReset.uart.irqEnabled = false ∧ notReset.uart.fg = .idle := by decide

theorem witness_SyncInvariantKept : goesOn (step (offered (.word .x 0x155) syncEmpty)) := ⟨_, rfl⟩

theorem witness_CorruptStatesAreRefused_sync :
    (syncAt (ringAt 1 0 0 [])).sync.ring.cap < 2 ∧
      4 ≤ (syncAt { ringAt 4 0 0 [] with head := 4 }).sync.ring.head ∧
      4 ≤ (syncAt { ringAt 4 0 0 [] with tail := 4 }).sync.ring.tail ∧ syncBusy.sync.up = true := by decide

/-- A word of N = 10 that is no code, in each of the eight registers. -/
theorem witness_CorruptStatesAreRefused_async :
    ({ asyncEmpty.async with ring := ringAt 0 0 0 [] }).ring.cap < 2 ∧
      ({ asyncEmpty.async with ring := ringAt 5 0 0 [] }).ring.cap % 2 = 1 ∧
      4 ≤ ({ asyncEmpty.async with ring := { ringAt 4 0 0 [] with head := 4 } }).ring.head ∧
      4 ≤ ({ asyncEmpty.async with ring := { ringAt 4 0 0 [] with tail := 7 } }).ring.tail ∧
      asyncEmpty.async.up = true ∧ (∀ i < 10, 0b1000 ≠ gray 10 i) ∧
      State.reset.async.ring.cap = 10 ∧ State.reset.async.up = true ∧
      ({ State.reset.async with tailGray := 0b1000 }).tailGray = 0b1000 ∧
      ({ State.reset.async with hs1 := 0b1000 }).hs1 = 0b1000 ∧
      ({ State.reset.async with hs2 := 0b1000 }).hs2 = 0b1000 ∧
      ({ State.reset.async with headGray := 0b1000 }).headGray = 0b1000 ∧
      ({ State.reset.async with ts1 := 0b1000 }).ts1 = 0b1000 ∧
      ({ State.reset.async with ts2 := 0b1000 }).ts2 = 0b1000 ∧
      ({ State.reset.async with tailPrev := 0b1000 }).tailPrev = 0b1000 ∧
      ({ State.reset.async with headPrev := 0b1000 }).headPrev = 0b1000 := by decide

theorem witness_CorruptStatesAreRefused_uart :
    (uartAt (ringAt 1 0 0 []) (ringAt 4 0 0 []) .idle none).uart.txq.cap < 2 ∧
      (uartAt (ringAt 4 0 0 []) (ringAt 0 0 0 []) .idle none).uart.rxq.cap < 2 ∧
      4 ≤ (uartAt { ringAt 4 0 0 [] with head := 4 } (ringAt 4 0 0 []) .idle none).uart.txq.head ∧
      4 ≤ (uartAt { ringAt 4 0 0 [] with tail := 4 } (ringAt 4 0 0 []) .idle none).uart.txq.tail ∧
      4 ≤ (uartAt (ringAt 4 0 0 []) { ringAt 4 0 0 [] with head := 4 } .idle none).uart.rxq.head ∧
      4 ≤ (uartAt (ringAt 4 0 0 []) { ringAt 4 0 0 [] with tail := 4 } .idle none).uart.rxq.tail ∧
      uartIdle.uart.irqEnabled = true ∧ uartIdle.uart.fg = .idle ∧
      (withFg .recvD1 uartIdle).uart.fg ≠ .idle ∧ (withFg .recvD1 uartIdle).uart.fg ≠ .uartInit := by decide

theorem witness_BlocksAreIndependent :
    goesOn (exec (.enq 0x55) syncBusy) ∧ goesOn (exec (.wEnq 0x11) asyncEmpty) ∧
      goesOn (exec (.isEmpty .asyncRead) asyncBusy) ∧ goesOn (exec .txIrq uartPending) :=
  ⟨⟨_, rfl⟩, ⟨_, rfl⟩, ⟨_, rfl⟩, ⟨_, rfl⟩⟩

/-- Whole operations, FG's micro-steps E4, P5, P6, D4, and the held reset. -/
theorem witness_RolesMoveTheirOwnIndex :
    after (runEvent (.word .t 0x133) uartIdle) (fun t => (ends t.uart.txq, t.uart.txState)) =
        some ((0, 0), .transmitting) ∧
      after (runEvent (.word .t 0x200) uartBusy) (fun t => ends t.uart.rxq) = some (1, 1) ∧
      after (runEvent .fgStep (withFg .sendE4 uartIdle)) (fun t => ends t.uart.txq) = some (3, 0) ∧
      after (runEvent .fgStep (withFg (.primeP5 0x99) uartUnprimed)) (fun t => ends t.uart.txq) = some (0, 0) ∧
      after (runEvent .fgStep (withFg (.primeP6 0x99) uartIdle)) (fun t => t.uart.txState) = some .transmitting ∧
      after (runEvent .fgStep (withFg (.recvD4 0x41) uartBusy)) (fun t => ends t.uart.rxq) = some (1, 1) ∧
      after (runEvent .holdReset asyncBusy) (fun t => ends t.async.ring) = some (0, 0) := by decide

theorem witness_ParametersAreFixed : goesOn (step (offered (.word .t 0x300) uartIdle)) := ⟨_, rfl⟩

theorem witness_OneForegroundThread :
    (withFg .recvD1 uartBusy).uart.fg ≠ .idle := by decide

end Sys2Proof.Tests
end

namespace Sys2Proof.Machine

/-! ### What a meaning ensures of the state it answers with -/

/-- Whenever the meaning answers a next state, that state satisfies `P`; a refusal or a fault ensures anything. -/
def Ensures (P : State → Prop) (r : Result) : Prop := ∀ t, r = .next t → P t

@[simp] theorem ensures_next {P : State → Prop} {t : State} : Ensures P (.next t) ↔ P t := by
  simp [Ensures]

@[simp] theorem ensures_refused {P : State → Prop} {e : Refusal} : Ensures P (.refused e) := by
  simp [Ensures]

theorem Ensures.mono {P Q : State → Prop} {r : Result} (h : Ensures P r) (hPQ : ∀ t, P t → Q t) : Ensures Q r :=
  fun t ht => hPQ t (h t ht)

theorem Ensures.guarded {P : State → Prop} {go : Result} (h : Ensures P go) (why : Option Refusal) :
    Ensures P (guarded why go) :=
  fun t ht => h t (guarded_next.1 ht).2

theorem Ensures.andThen {P Q : State → Prop} {r : Result} {go : State → Result} (h : Ensures P r)
    (hgo : ∀ u, P u → Ensures Q (go u)) : Ensures Q (andThen r go) := by
  intro t ht
  obtain ⟨u, hu, hut⟩ := andThen_eq_next.1 ht
  exact hgo u (h u hu) t hut

/-! ### Capacities of the ring buffer's operations -/

theorem enqueue_cap {r r' : Ring} {b : Byte} (h : r.enqueue b = some r') : r'.cap = r.cap := by
  obtain ⟨-, rfl⟩ := (enqueue_eq_some_iff r r' b).1 h
  rfl

theorem dequeue_cap {q : FifoId} {r r' : Ring} {b : Byte} (h : r.dequeue q = some (b, r')) : r'.cap = r.cap := by
  obtain ⟨-, -, rfl⟩ := (dequeue_eq_some_iff q r r' b).1 h
  rfl

/-! ### The relation between a state and a next one (R7, R10, R12, R265) -/

/-- Capacities and parameters are those of `s`, and what `s` has reset stays reset. -/
structure KeepsParameters (s t : State) : Prop where
  params : t.params = s.params
  syncCap : t.sync.ring.cap = s.sync.ring.cap
  asyncCap : t.async.ring.cap = s.async.ring.cap
  txqCap : t.uart.txq.cap = s.uart.txq.cap
  rxqCap : t.uart.rxq.cap = s.uart.rxq.cap
  irqEnabled : s.uart.irqEnabled = true → t.uart.irqEnabled = true
  syncUp : s.sync.up = true → t.sync.up = true
  asyncUp : s.async.up = true → t.async.up = true

namespace KeepsParameters

variable {s t u : State}

protected theorem refl (s : State) : KeepsParameters s s := ⟨rfl, rfl, rfl, rfl, rfl, id, id, id⟩

protected theorem trans (h : KeepsParameters s t) (h' : KeepsParameters t u) : KeepsParameters s u where
  params := h'.params.trans h.params
  syncCap := h'.syncCap.trans h.syncCap
  asyncCap := h'.asyncCap.trans h.asyncCap
  txqCap := h'.txqCap.trans h.txqCap
  rxqCap := h'.rxqCap.trans h.rxqCap
  irqEnabled := h'.irqEnabled ∘ h.irqEnabled
  syncUp := h'.syncUp ∘ h.syncUp
  asyncUp := h'.asyncUp ∘ h.asyncUp

/-- A meaning run on a state that keeps the parameters of `s` keeps them too. -/
theorem ensures_trans {r : Result} (h : KeepsParameters s t) (hr : Ensures (KeepsParameters t) r) :
    Ensures (KeepsParameters s) r :=
  hr.mono fun _ => h.trans

/-- Replacing TXQ by a queue of the same capacity. -/
theorem of_txq {q : Ring} (h : q.cap = s.uart.txq.cap) :
    KeepsParameters s { s with uart := { s.uart with txq := q } } :=
  ⟨rfl, rfl, rfl, h, rfl, id, id, id⟩

/-- Replacing RXQ by a queue of the same capacity. -/
theorem of_rxq {q : Ring} (h : q.cap = s.uart.rxq.cap) :
    KeepsParameters s { s with uart := { s.uart with rxq := q } } :=
  ⟨rfl, rfl, rfl, rfl, h, id, id, id⟩

end KeepsParameters

/-! ### The shared updates -/

theorem respond_keepsParameters (a : Answer) (s : State) : KeepsParameters s (respond a s) :=
  ⟨rfl, rfl, rfl, rfl, rfl, id, id, id⟩

theorem respondByte_keepsParameters (b : Byte) (s : State) : KeepsParameters s (respondByte b s) :=
  ⟨rfl, rfl, rfl, rfl, rfl, id, id, id⟩

theorem fgGoto_keepsParameters (f : Fg) (s : State) : KeepsParameters s (fgGoto f s) :=
  ⟨rfl, rfl, rfl, rfl, rfl, id, id, id⟩

theorem answerQuery_keepsParameters (q : Bool) (s : State) : KeepsParameters s (answerQuery q s) :=
  ⟨rfl, rfl, rfl, rfl, rfl, id, id, id⟩

theorem takeDraw_keepsParameters (racing : Bool) (s : State) : KeepsParameters s (takeDraw racing s).2 := by
  rw [takeDraw_frame]
  exact ⟨rfl, rfl, rfl, rfl, rfl, id, id, id⟩

theorem writeOutputRegister_keepsParameters (b : Byte) (s : State) :
    Ensures (KeepsParameters s) (writeOutputRegister b s) := by
  intro t ht
  obtain ⟨-, rfl⟩ := writeOutputRegister_next.1 ht
  exact ⟨rfl, rfl, rfl, rfl, rfl, id, id, id⟩

/-! ### `sync_fifo` -/

theorem syncEdge_keepsParameters (enq deq : Bool) (d : Byte) (s : State) :
    KeepsParameters s (syncEdge enq deq d s) where
  params := rfl
  syncCap := by
    simp only [syncEdge]
    split <;> split <;> rfl
  asyncCap := rfl
  txqCap := rfl
  rxqCap := rfl
  irqEnabled := id
  syncUp := id
  asyncUp := id

theorem execInit_keepsParameters (s : State) : Ensures (KeepsParameters s) (execInit s) :=
  (ensures_next.2 ⟨rfl, rfl, rfl, rfl, rfl, id, fun _ => rfl, id⟩).guarded _

/-! ### `async_fifo` -/

/-- A change of `async_fifo` alone, draws and the free-value counter aside, that leaves its capacity and its reset. -/
theorem KeepsParameters.of_onlyAsync {s t : State} (h : OnlyAsync s t)
    (hcap : t.async.ring.cap = s.async.ring.cap) (hup : s.async.up = true → t.async.up = true) :
    KeepsParameters s t := by
  obtain ⟨hsync, huart, -, hparams, -⟩ := h
  exact ⟨hparams, by rw [hsync], hcap, by rw [huart], by rw [huart], by rw [huart]; exact id,
    by rw [hsync]; exact id, hup⟩

theorem wEdge_keepsParameters (enq : Bool) (d : Byte) (s : State) : KeepsParameters s (wEdge enq d s) := by
  refine .of_onlyAsync (by simp [OnlyAsync, wEdge]) ?_ ?_
  · simp only [wEdge]
    split <;> rfl
  · simp only [wEdge]
    split <;> exact id

theorem rEdge_keepsParameters (deq : Bool) (s : State) : KeepsParameters s (rEdge deq s) := by
  refine .of_onlyAsync (by simp [OnlyAsync, rEdge]) ?_ ?_
  · simp only [rEdge]
    split <;> rfl
  · simp only [rEdge]
    split <;> exact id

theorem heldREdge_keepsParameters (s : State) : KeepsParameters s (heldREdge s) :=
  ⟨rfl, rfl, rfl, rfl, rfl, id, id, id⟩

theorem unlessHeld_ensures {P : State → Prop} {request : Bool} {held edge : State → State} {s : State}
    (hheld : P (held s)) (hedge : P (edge s)) : Ensures P (unlessHeld request held edge s) := by
  unfold unlessHeld
  split
  · split
    · exact ensures_refused
    · exact ensures_next.2 hheld
  · exact ensures_next.2 hedge

theorem raiseReset_keepsParameters (arst : Bool) (s : State) : Ensures (KeepsParameters s) (raiseReset arst s) :=
  (ensures_next.2 ⟨rfl, rfl, rfl, rfl, rfl, id, id, fun _ => rfl⟩).guarded _

theorem execARun_keepsParameters (s : State) : Ensures (KeepsParameters s) (execARun s) :=
  (ensures_next.2 ⟨rfl, rfl, rfl, rfl, rfl, id, id, id⟩).guarded _

/-! ### The transport controller -/

theorem uartInitBody_keepsParameters (s : State) : Ensures (KeepsParameters s) (uartInitBody s) :=
  (ensures_next.2 ⟨rfl, rfl, rfl, rfl, rfl, fun _ => rfl, id, id⟩).guarded _

theorem primeBody_keepsParameters (s : State) : Ensures (KeepsParameters s) (primeBody s) := by
  unfold primeBody
  split
  · exact ensures_next.2 (respond_keepsParameters ..)
  · split
    · exact ensures_next.2 (respond_keepsParameters ..)
    · next b q hq =>
      have hprimed : KeepsParameters s { s with uart := { s.uart with txq := q, txState := .transmitting } } :=
        ⟨rfl, rfl, rfl, dequeue_cap hq, rfl, id, id, id⟩
      exact (hprimed.ensures_trans (writeOutputRegister_keepsParameters _ _)).andThen
        fun u hu => ensures_next.2 (hu.trans (respond_keepsParameters ..))

theorem execSend_keepsParameters (d : Byte) (s : State) : Ensures (KeepsParameters s) (execSend d s) := by
  refine Ensures.guarded (Ensures.guarded ?_ _) _
  split
  · exact ensures_next.2 (respond_keepsParameters ..)
  · next q hq => exact (KeepsParameters.of_txq (enqueue_cap hq)).ensures_trans (primeBody_keepsParameters _)

theorem execReceive_keepsParameters (s : State) : Ensures (KeepsParameters s) (execReceive s) := by
  refine Ensures.guarded (Ensures.guarded ?_ _) _
  split
  · exact ensures_next.2 (respond_keepsParameters ..)
  · next b q hq =>
    exact ensures_next.2 ((KeepsParameters.of_rxq (dequeue_cap hq)).trans (respondByte_keepsParameters ..))

theorem txHandler_keepsParameters (s : State) : Ensures (KeepsParameters s) (txHandler s) := by
  unfold txHandler
  split
  · next b q hq =>
    exact (KeepsParameters.of_txq (dequeue_cap hq)).ensures_trans (writeOutputRegister_keepsParameters _ _)
  · exact ensures_next.2 ⟨rfl, rfl, rfl, rfl, rfl, id, id, id⟩

theorem rxHandler_keepsParameters (s : State) : Ensures (KeepsParameters s) (rxHandler s) := by
  intro t ht
  obtain ⟨-, ht⟩ := readInputRegister_next.1 ht
  split at ht
  · obtain rfl : _ = t := by simpa using ht
    exact ⟨rfl, rfl, rfl, rfl, rfl, id, id, id⟩
  · next q hq =>
    obtain rfl : _ = t := by simpa using ht
    exact ⟨rfl, rfl, rfl, rfl, enqueue_cap hq, id, id, id⟩

theorem takeInterrupt_ensures {P : State → Prop} {body : State → Result} {s : State} (h : Ensures P (body s))
    (pending : Bool) : Ensures P (takeInterrupt pending body s) :=
  fun t ht => h t (takeInterrupt_next.1 ht).2.2

theorem execHwTxDone_keepsParameters (s : State) : Ensures (KeepsParameters s) (execHwTxDone s) := by
  unfold execHwTxDone
  split
  · exact ensures_refused
  · exact ensures_next.2 ⟨rfl, rfl, rfl, rfl, rfl, id, id, id⟩

theorem deliver_keepsParameters (b : Byte) (s : State) : KeepsParameters s (deliver b s) :=
  ⟨rfl, rfl, rfl, rfl, rfl, id, id, id⟩

theorem loseArrival_keepsParameters (b : Byte) (s : State) : KeepsParameters s (loseArrival b s) :=
  ⟨rfl, rfl, rfl, rfl, rfl, id, id, id⟩

theorem overrun_keepsParameters (b : Byte) (s : State) : Ensures (KeepsParameters s) (overrun b s) := by
  unfold overrun
  split
  · exact ensures_refused
  · exact ensures_next.2 (loseArrival_keepsParameters b s)
  · exact ensures_next.2 (deliver_keepsParameters b s)
  · refine ensures_next.2 ((takeDraw_keepsParameters true s).trans ?_)
    split
    · exact deliver_keepsParameters ..
    · exact loseArrival_keepsParameters ..

theorem execHwRxByte_keepsParameters (b : Byte) (s : State) : Ensures (KeepsParameters s) (execHwRxByte b s) := by
  refine Ensures.guarded ?_ _
  split
  · exact overrun_keepsParameters b s
  · exact ensures_next.2 (deliver_keepsParameters b s)

theorem clkEdge_keepsParameters (s : State) : KeepsParameters s (clkEdge s) :=
  have hdraws := (takeDraw_keepsParameters s.uart.tx.fresh s).trans (takeDraw_keepsParameters s.uart.rx.fresh _)
  ⟨hdraws.params, hdraws.syncCap, hdraws.asyncCap, rfl, rfl, id, hdraws.syncUp, hdraws.asyncUp⟩

theorem execClk_keepsParameters (s : State) : Ensures (KeepsParameters s) (execClk s) := by
  unfold execClk
  split
  · exact ensures_refused
  · exact ensures_next.2 (clkEdge_keepsParameters s)

/-! ### Every whole operation -/

theorem exec_keepsParameters (i : Instr) (s : State) : Ensures (KeepsParameters s) (exec i s) := by
  cases i with
  | nop => exact (ensures_next.2 (syncEdge_keepsParameters ..)).guarded _
  | enq d => exact (ensures_next.2 (syncEdge_keepsParameters ..)).guarded _
  | deq => exact (ensures_next.2 (syncEdge_keepsParameters ..)).guarded _
  | enqdeq d => exact (ensures_next.2 (syncEdge_keepsParameters ..)).guarded _
  | init => exact execInit_keepsParameters s
  | wNop => exact (unlessHeld_ensures (.refl s) (wEdge_keepsParameters ..)).guarded _
  | wEnq d => exact (unlessHeld_ensures (.refl s) (wEdge_keepsParameters ..)).guarded _
  | rNop => exact (unlessHeld_ensures (heldREdge_keepsParameters s) (rEdge_keepsParameters ..)).guarded _
  | rDeq => exact (unlessHeld_ensures (heldREdge_keepsParameters s) (rEdge_keepsParameters ..)).guarded _
  | aRun => exact execARun_keepsParameters s
  | aInit => exact raiseReset_keepsParameters false s
  | isEmpty p => exact (ensures_next.2 (answerQuery_keepsParameters ..)).guarded _
  | isFull p => exact (ensures_next.2 (answerQuery_keepsParameters ..)).guarded _
  | tNop => exact ((ensures_next.2 (respond_keepsParameters ..)).guarded _).guarded _
  | send d => exact execSend_keepsParameters d s
  | receive => exact execReceive_keepsParameters s
  | uartInit => exact (uartInitBody_keepsParameters s).guarded _
  | prime => exact ((primeBody_keepsParameters s).guarded _).guarded _
  | tReserved5 => exact ensures_refused
  | tReserved6 => exact ensures_refused
  | tReserved7 => exact ensures_refused
  | txIrq => exact takeInterrupt_ensures (txHandler_keepsParameters s) _
  | rxIrq => exact takeInterrupt_ensures (rxHandler_keepsParameters s) _
  | hwTxDone => exact execHwTxDone_keepsParameters s
  | hwRxByte b => exact execHwRxByte_keepsParameters b s
  | clk => exact execClk_keepsParameters s

/-! ### FG's micro-steps -/

theorem startForeground_keepsParameters (i : Instr) (s : State) :
    Ensures (KeepsParameters s) (startForeground i s) := by
  refine Ensures.guarded ?_ _
  split
  · exact ensures_next.2 (fgGoto_keepsParameters ..)
  · exact ensures_refused

theorem sendCheck_keepsParameters (d : Byte) (h : Nat) (s : State) : KeepsParameters s (sendCheck d h s) := by
  unfold sendCheck
  split
  · exact respond_keepsParameters ..
  · exact fgGoto_keepsParameters ..

theorem sendStore_keepsParameters (d : Byte) (s : State) : KeepsParameters s (sendStore d s) :=
  ⟨rfl, rfl, rfl, rfl, rfl, id, id, id⟩

theorem sendAdvance_keepsParameters (s : State) : KeepsParameters s (sendAdvance s) :=
  ⟨rfl, rfl, rfl, rfl, rfl, id, id, id⟩

theorem sendTest_keepsParameters (st : TxState) (s : State) : KeepsParameters s (sendTest st s) := by
  cases st with
  | idle => exact fgGoto_keepsParameters ..
  | transmitting => exact respond_keepsParameters ..

theorem primeTest_keepsParameters (s : State) : KeepsParameters s (primeTest s) := by
  unfold primeTest
  split
  · exact fgGoto_keepsParameters ..
  · exact respond_keepsParameters ..

theorem primeCheck_keepsParameters (t : Nat) (s : State) : KeepsParameters s (primeCheck t s) := by
  unfold primeCheck
  split
  · exact respond_keepsParameters ..
  · exact fgGoto_keepsParameters ..

theorem primeAdvance_keepsParameters (b : Byte) (s : State) : KeepsParameters s (primeAdvance b s) :=
  ⟨rfl, rfl, rfl, rfl, rfl, id, id, id⟩

theorem primeMark_keepsParameters (b : Byte) (s : State) : KeepsParameters s (primeMark b s) :=
  ⟨rfl, rfl, rfl, rfl, rfl, id, id, id⟩

theorem receiveCheck_keepsParameters (t : Nat) (s : State) : KeepsParameters s (receiveCheck t s) := by
  unfold receiveCheck
  split
  · exact respond_keepsParameters ..
  · exact fgGoto_keepsParameters ..

theorem receiveAdvance_keepsParameters (b : Byte) (s : State) : KeepsParameters s (receiveAdvance b s) :=
  ⟨rfl, rfl, rfl, rfl, rfl, id, id, id⟩

theorem fgMicroStep_keepsParameters (s : State) : Ensures (KeepsParameters s) (fgMicroStep s) := by
  unfold fgMicroStep
  cases s.uart.fg with
  | idle => exact ensures_refused
  | nop => exact ensures_next.2 (respond_keepsParameters ..)
  | uartInit => exact uartInitBody_keepsParameters s
  | sendE1 d => exact ensures_next.2 (fgGoto_keepsParameters ..)
  | sendE2 d h => exact ensures_next.2 (sendCheck_keepsParameters ..)
  | sendE3 d => exact ensures_next.2 (sendStore_keepsParameters ..)
  | sendE4 => exact ensures_next.2 (sendAdvance_keepsParameters s)
  | sendS5 => exact ensures_next.2 (fgGoto_keepsParameters ..)
  | sendS6 st => exact ensures_next.2 (sendTest_keepsParameters ..)
  | primeP1 => exact ensures_next.2 (primeTest_keepsParameters s)
  | primeP2 => exact ensures_next.2 (fgGoto_keepsParameters ..)
  | primeP3 t => exact ensures_next.2 (primeCheck_keepsParameters ..)
  | primeP4 => exact ensures_next.2 (fgGoto_keepsParameters ..)
  | primeP5 b => exact ensures_next.2 (primeAdvance_keepsParameters ..)
  | primeP6 b => exact ensures_next.2 (primeMark_keepsParameters ..)
  | primeP7 b =>
    exact (writeOutputRegister_keepsParameters b s).andThen
      fun u hu => ensures_next.2 (hu.trans (respond_keepsParameters ..))
  | recvD1 => exact ensures_next.2 (fgGoto_keepsParameters ..)
  | recvD2 t => exact ensures_next.2 (receiveCheck_keepsParameters ..)
  | recvD3 => exact ensures_next.2 (fgGoto_keepsParameters ..)
  | recvD4 b => exact ensures_next.2 (receiveAdvance_keepsParameters ..)

/-! ### Events and steps -/

theorem runEvent_keepsParameters (e : Event) (s : State) : Ensures (KeepsParameters s) (runEvent e s) := by
  intro t ht
  obtain ⟨i, -, hi⟩ | ⟨-, rfl⟩ | ⟨w, i, -, -, hi⟩ | ⟨-, hstep⟩ | ⟨-, hreset⟩ := runEvent_next ht
  · exact exec_keepsParameters i s t hi
  · exact .refl _
  · exact startForeground_keepsParameters i s t hi
  · exact (fgMicroStep_keepsParameters s).guarded _ t hstep
  · exact raiseReset_keepsParameters true s t hreset

/-- A step that answers a next state has run an event on the state without it. -/
theorem step_next {s t : State} (h : step s = .next t) :
    ∃ e rest, s.pending = e :: rest ∧ runEvent e { s with pending := rest } = .next t := by
  unfold step fetch at h
  cases hp : s.pending with
  | nil => simp [hp] at h
  | cons e rest => exact ⟨e, rest, rfl, by simpa [hp] using h⟩

theorem step_keepsParameters (s : State) : Ensures (KeepsParameters s) (step s) := by
  intro t ht
  obtain ⟨e, rest, -, hrun⟩ := step_next ht
  have hfetch : KeepsParameters s { s with pending := rest } := ⟨rfl, rfl, rfl, rfl, rfl, id, id, id⟩
  exact hfetch.trans (runEvent_keepsParameters e _ t hrun)

/-- Settles O59: every event keeps `KeepsParameters`, by cases on the command, on FG's micro-step, or on the reset. -/
theorem parametersAreFixed : Obligations.ParametersAreFixed := by
  unfold Obligations.ParametersAreFixed
  intro s t h
  obtain ⟨hparams, hsync, hasync, htxq, hrxq, hirq, hsyncUp, hasyncUp⟩ := step_keepsParameters s t h
  exact ⟨hparams, hsync, hasync, htxq, hrxq, hirq, hsyncUp, hasyncUp⟩

end Sys2Proof.Machine

namespace Sys2Proof.Machine

/-! ### What an operation may move

One table says which blocks and which registers an operation may change (R21, R34, R180, R181, R230, R273);
`exec_movesOnly` and `fgMicroStep_movesOnly` tie it to the operations. -/

/-- The blocks, and the registers whose roles the spec fixes. -/
inductive StatePart where
  | sync | async | uart
  | syncTail | syncHead | asyncTail | asyncHead
  | txTail | txHead | rxTail | rxHead | txState | irqEnabled

/-- The part is the same in both states. -/
@[simp] def StatePart.Same (s t : State) : StatePart → Prop
  | .sync => t.sync = s.sync
  | .async => t.async = s.async
  | .uart => t.uart = s.uart
  | .syncTail => t.sync.ring.tail = s.sync.ring.tail
  | .syncHead => t.sync.ring.head = s.sync.ring.head
  | .asyncTail => t.async.ring.tail = s.async.ring.tail
  | .asyncHead => t.async.ring.head = s.async.ring.head
  | .txTail => t.uart.txq.tail = s.uart.txq.tail
  | .txHead => t.uart.txq.head = s.uart.txq.head
  | .rxTail => t.uart.rxq.tail = s.uart.rxq.tail
  | .rxHead => t.uart.rxq.head = s.uart.rxq.head
  | .txState => t.uart.txState = s.uart.txState
  | .irqEnabled => t.uart.irqEnabled = s.uart.irqEnabled

/-- Every part that is not listed is the same in both states. -/
structure MovesOnly (l : List StatePart) (s t : State) : Prop where
  same : ∀ p, p ∉ l → p.Same s t

/-- The parts a reset of `async_fifo` may move (R190). -/
def asyncResetMoves : List StatePart := [.async, .asyncTail, .asyncHead]

/-- The parts UART_INIT may move (R231). -/
def uartInitMoves : List StatePart := [.uart, .txTail, .txHead, .rxTail, .rxHead, .txState, .irqEnabled]

/-- The parts a command may move. -/
def commandMoves : Instr → List StatePart
  | .nop => [.sync]
  | .enq _ => [.sync, .syncTail]
  | .deq => [.sync, .syncHead]
  | .enqdeq _ => [.sync, .syncTail, .syncHead]
  | .init => [.sync, .syncTail, .syncHead]
  | .wNop => [.async]
  | .wEnq _ => [.async, .asyncTail]
  | .rNop => [.async]
  | .rDeq => [.async, .asyncHead]
  | .aRun => [.async]
  | .aInit => asyncResetMoves
  | .isEmpty _ => []
  | .isFull _ => []
  | .tNop => [.uart]
  | .send _ => [.uart, .txHead, .txState, .txTail]
  | .receive => [.uart, .rxHead]
  | .uartInit => uartInitMoves
  | .prime => [.uart, .txHead, .txState]
  | .tReserved5 => []
  | .tReserved6 => []
  | .tReserved7 => []
  | .txIrq => [.uart, .txHead, .txState]
  | .rxIrq => [.uart, .rxTail]
  | .hwTxDone => [.uart]
  | .hwRxByte _ => [.uart]
  | .clk => [.uart]

/-- The parts a micro-step of FG may move. -/
def microStepMoves : Fg → List StatePart
  | .uartInit => uartInitMoves
  | .sendE4 => [.uart, .txTail]
  | .primeP5 _ => [.uart, .txHead]
  | .primeP6 _ => [.uart, .txState]
  | .recvD4 _ => [.uart, .rxHead]
  | _ => [.uart]

/-! ### The relation, and the changes it is built from -/

/-- An accepted ENQUEUE moves `tail` alone. -/
theorem enqueue_head {r r' : Ring} {b : Byte} (h : r.enqueue b = some r') : r'.head = r.head := by
  obtain ⟨-, rfl⟩ := (enqueue_eq_some_iff r r' b).1 h
  rfl

/-- An accepted DEQUEUE moves `head` alone. -/
theorem dequeue_tail {q : FifoId} {r r' : Ring} {b : Byte} (h : r.dequeue q = some (b, r')) : r'.tail = r.tail := by
  obtain ⟨-, -, rfl⟩ := (dequeue_eq_some_iff q r r' b).1 h
  rfl

namespace MovesOnly

variable {s t u : State} {l : List StatePart}

protected theorem refl (l : List StatePart) (s : State) : MovesOnly l s s := ⟨fun p _ => by cases p <;> rfl⟩

protected theorem trans (h : MovesOnly l s t) (h' : MovesOnly l t u) : MovesOnly l s u := by
  refine ⟨fun p hp => ?_⟩
  have hst := h.same p hp
  have htu := h'.same p hp
  cases p <;> exact Eq.trans htu hst

/-- A meaning run on a state that differs from `s` in the listed parts alone. -/
theorem ensures_trans {r : Result} (h : MovesOnly l s t) (hr : Ensures (MovesOnly l t) r) :
    Ensures (MovesOnly l s) r :=
  hr.mono fun _ => h.trans

/-- A change outside the three blocks. -/
theorem of_blocks (hsync : t.sync = s.sync) (hasync : t.async = s.async) (huart : t.uart = s.uart) :
    MovesOnly l s t := by
  refine ⟨fun p _ => ?_⟩
  cases p <;> simp [hsync, hasync, huart]

/-- A change of `async_fifo` that leaves its indices. -/
theorem of_async (hsync : t.sync = s.sync) (huart : t.uart = s.uart) (hring : t.async.ring = s.async.ring) :
    MovesOnly (.async :: l) s t := by
  refine ⟨fun p hp => ?_⟩
  cases p <;> simp_all

/-- A change of the transport controller that leaves its queues, the transmit state and the enabling of interrupts. -/
theorem of_uart (hsync : t.sync = s.sync) (hasync : t.async = s.async) (htxq : t.uart.txq = s.uart.txq)
    (hrxq : t.uart.rxq = s.uart.rxq) (hstate : t.uart.txState = s.uart.txState)
    (hirq : t.uart.irqEnabled = s.uart.irqEnabled) : MovesOnly (.uart :: l) s t := by
  refine ⟨fun p hp => ?_⟩
  cases p <;> simp_all

/-- Replacing TXQ. -/
theorem of_txq {q : Ring} (htail : .txTail ∈ l ∨ q.tail = s.uart.txq.tail)
    (hhead : .txHead ∈ l ∨ q.head = s.uart.txq.head) :
    MovesOnly (.uart :: l) s { s with uart := { s.uart with txq := q } } := by
  refine ⟨fun p hp => ?_⟩
  cases p <;> simp_all

/-- Replacing RXQ. -/
theorem of_rxq {q : Ring} (htail : .rxTail ∈ l ∨ q.tail = s.uart.rxq.tail)
    (hhead : .rxHead ∈ l ∨ q.head = s.uart.rxq.head) :
    MovesOnly (.uart :: l) s { s with uart := { s.uart with rxq := q } } := by
  refine ⟨fun p hp => ?_⟩
  cases p <;> simp_all

/-- Replacing the state of the transmit path. -/
theorem of_txState {st : TxState} (h : .txState ∈ l) :
    MovesOnly (.uart :: l) s { s with uart := { s.uart with txState := st } } := by
  refine ⟨fun p hp => ?_⟩
  cases p <;> simp_all

end MovesOnly

section

variable {l : List StatePart}

/-! ### The shared updates -/

theorem respond_movesOnly (a : Answer) (s : State) : MovesOnly (.uart :: l) s (respond a s) :=
  .of_uart rfl rfl rfl rfl rfl rfl

theorem respondByte_movesOnly (b : Byte) (s : State) : MovesOnly (.uart :: l) s (respondByte b s) :=
  .of_uart rfl rfl rfl rfl rfl rfl

theorem fgGoto_movesOnly (f : Fg) (s : State) : MovesOnly (.uart :: l) s (fgGoto f s) :=
  .of_uart rfl rfl rfl rfl rfl rfl

theorem answerQuery_movesOnly (q : Bool) (s : State) : MovesOnly l s (answerQuery q s) := .of_blocks rfl rfl rfl

theorem takeDraw_movesOnly (racing : Bool) (s : State) : MovesOnly l s (takeDraw racing s).2 :=
  .of_blocks (takeDraw_sync ..) (takeDraw_async ..) (takeDraw_uart ..)

theorem writeOutputRegister_movesOnly (b : Byte) (s : State) :
    Ensures (MovesOnly (.uart :: l) s) (writeOutputRegister b s) := by
  intro t ht
  obtain ⟨-, rfl⟩ := writeOutputRegister_next.1 ht
  exact .of_uart rfl rfl rfl rfl rfl rfl

/-! ### `sync_fifo` -/

/-- Without a request on one side, that side's index stays. -/
theorem syncEdge_movesOnly {enq deq : Bool} {d : Byte} {s : State} (htail : enq = true → .syncTail ∈ l)
    (hhead : deq = true → .syncHead ∈ l) : MovesOnly (.sync :: l) s (syncEdge enq deq d s) := by
  have tail_stays : enq = false → (syncEdge enq deq d s).sync.ring.tail = s.sync.ring.tail := by
    rintro rfl
    simp only [syncEdge]
    split <;> rfl
  have head_stays : deq = false → (syncEdge enq deq d s).sync.ring.head = s.sync.ring.head := by
    rintro rfl
    simp only [syncEdge, Bool.false_and, Bool.false_eq_true, if_false]
    split <;> rfl
  refine ⟨fun p hp => ?_⟩
  cases p with
  | sync => simp at hp
  | syncTail => exact tail_stays (by cases enq <;> simp_all)
  | syncHead => exact head_stays (by cases deq <;> simp_all)
  | _ => rfl

theorem execInit_movesOnly (s : State) : Ensures (MovesOnly [.sync, .syncTail, .syncHead] s) (execInit s) := by
  refine (ensures_next.2 ⟨fun p hp => ?_⟩).guarded _
  cases p <;> simp_all

/-! ### `async_fifo` -/

theorem wEdge_movesOnly {enq : Bool} {d : Byte} {s : State} (htail : enq = true → .asyncTail ∈ l) :
    MovesOnly (.async :: l) s (wEdge enq d s) := by
  have tail_stays : enq = false → (wEdge enq d s).async.ring.tail = s.async.ring.tail := by
    rintro rfl
    rfl
  have head_stays : (wEdge enq d s).async.ring.head = s.async.ring.head := by
    simp only [wEdge]
    split <;> rfl
  refine ⟨fun p hp => ?_⟩
  cases p with
  | async => simp at hp
  | asyncTail => exact tail_stays (by cases enq <;> simp_all)
  | asyncHead => exact head_stays
  | _ => simp [wEdge]

theorem rEdge_movesOnly {deq : Bool} {s : State} (hhead : deq = true → .asyncHead ∈ l) :
    MovesOnly (.async :: l) s (rEdge deq s) := by
  have head_stays : deq = false → (rEdge deq s).async.ring.head = s.async.ring.head := by
    rintro rfl
    rfl
  have tail_stays : (rEdge deq s).async.ring.tail = s.async.ring.tail := by
    simp only [rEdge]
    split <;> rfl
  refine ⟨fun p hp => ?_⟩
  cases p with
  | async => simp at hp
  | asyncHead => exact head_stays (by cases deq <;> simp_all)
  | asyncTail => exact tail_stays
  | _ => simp [rEdge]

theorem heldREdge_movesOnly (s : State) : MovesOnly (.async :: l) s (heldREdge s) := .of_async rfl rfl rfl

theorem raiseReset_movesOnly (arst : Bool) (s : State) :
    Ensures (MovesOnly asyncResetMoves s) (raiseReset arst s) := by
  refine (ensures_next.2 ⟨fun p hp => ?_⟩).guarded _
  cases p <;> simp_all [asyncResetMoves]

/-! ### The transport controller -/

theorem uartInitBody_movesOnly (s : State) : Ensures (MovesOnly uartInitMoves s) (uartInitBody s) := by
  refine (ensures_next.2 ⟨fun p hp => ?_⟩).guarded _
  cases p <;> simp_all [uartInitMoves]

theorem primeBody_movesOnly (s : State) :
    Ensures (MovesOnly (.uart :: .txHead :: .txState :: l) s) (primeBody s) := by
  unfold primeBody
  split
  · exact ensures_next.2 (respond_movesOnly ..)
  · split
    · exact ensures_next.2 (respond_movesOnly ..)
    · next b q hq =>
      have taken : MovesOnly (.uart :: .txHead :: .txState :: l) s { s with uart := { s.uart with txq := q } } :=
        .of_txq (.inr (dequeue_tail hq)) (.inl (by simp))
      exact ((taken.trans (.of_txState (by simp))).ensures_trans (writeOutputRegister_movesOnly b _)).andThen
        fun u hu => ensures_next.2 (hu.trans (respond_movesOnly ..))

theorem execSend_movesOnly (d : Byte) (s : State) : Ensures (MovesOnly (commandMoves (.send d)) s) (execSend d s) := by
  refine Ensures.guarded (Ensures.guarded ?_ _) _
  split
  · exact ensures_next.2 (respond_movesOnly ..)
  · next q hq =>
    exact (MovesOnly.of_txq (.inl (by simp)) (.inr (enqueue_head hq))).ensures_trans (primeBody_movesOnly _)

theorem execReceive_movesOnly (s : State) : Ensures (MovesOnly [.uart, .rxHead] s) (execReceive s) := by
  refine Ensures.guarded (Ensures.guarded ?_ _) _
  split
  · exact ensures_next.2 (respond_movesOnly ..)
  · next b q hq =>
    exact ensures_next.2
      ((MovesOnly.of_rxq (.inr (dequeue_tail hq)) (.inl (by simp))).trans (respondByte_movesOnly ..))

theorem txHandler_movesOnly (s : State) : Ensures (MovesOnly [.uart, .txHead, .txState] s) (txHandler s) := by
  unfold txHandler
  split
  · next b q hq =>
    exact (MovesOnly.of_txq (.inr (dequeue_tail hq)) (.inl (by simp))).ensures_trans
      (writeOutputRegister_movesOnly b _)
  · refine ensures_next.2 ⟨fun p hp => ?_⟩
    cases p <;> simp_all [outputRegisterEmptyInterruptClear]

theorem rxHandler_movesOnly (s : State) : Ensures (MovesOnly [.uart, .rxTail] s) (rxHandler s) := by
  intro t ht
  obtain ⟨-, ht⟩ := readInputRegister_next.1 ht
  have cleared : MovesOnly [.uart, .rxTail] s { s with uart := { s.uart with rx := s.uart.rx.clear } } :=
    .of_uart rfl rfl rfl rfl rfl rfl
  split at ht
  · exact ensures_next.2 cleared t ht
  · next q hq =>
    exact ensures_next.2 (cleared.trans (.of_rxq (.inl (by simp)) (.inr (enqueue_head hq)))) t ht

theorem execHwTxDone_movesOnly (s : State) : Ensures (MovesOnly (.uart :: l) s) (execHwTxDone s) := by
  unfold execHwTxDone
  split
  · exact ensures_refused
  · exact ensures_next.2 (.of_uart rfl rfl rfl rfl rfl rfl)

theorem deliver_movesOnly (b : Byte) (s : State) : MovesOnly (.uart :: l) s (deliver b s) :=
  .of_uart rfl rfl rfl rfl rfl rfl

theorem loseArrival_movesOnly (b : Byte) (s : State) : MovesOnly (.uart :: l) s (loseArrival b s) :=
  .of_uart rfl rfl rfl rfl rfl rfl

theorem overrun_movesOnly (b : Byte) (s : State) : Ensures (MovesOnly (.uart :: l) s) (overrun b s) := by
  unfold overrun
  split
  · exact ensures_refused
  · exact ensures_next.2 (loseArrival_movesOnly b s)
  · exact ensures_next.2 (deliver_movesOnly b s)
  · refine ensures_next.2 ((takeDraw_movesOnly true s).trans ?_)
    split
    · exact deliver_movesOnly ..
    · exact loseArrival_movesOnly ..

theorem execHwRxByte_movesOnly (b : Byte) (s : State) : Ensures (MovesOnly (.uart :: l) s) (execHwRxByte b s) := by
  refine Ensures.guarded ?_ _
  split
  · exact overrun_movesOnly b s
  · exact ensures_next.2 (deliver_movesOnly b s)

theorem execClk_movesOnly (s : State) : Ensures (MovesOnly (.uart :: l) s) (execClk s) := by
  unfold execClk
  split
  · exact ensures_refused
  · exact ensures_next.2 (.of_uart (by simp [clkEdge]) (by simp [clkEdge]) rfl rfl rfl rfl)

/-! ### Every whole operation -/

theorem exec_movesOnly (i : Instr) (s : State) : Ensures (MovesOnly (commandMoves i) s) (exec i s) := by
  cases i with
  | nop => exact (ensures_next.2 (syncEdge_movesOnly (by simp) (by simp))).guarded _
  | enq d => exact (ensures_next.2 (syncEdge_movesOnly (by simp) (by simp))).guarded _
  | deq => exact (ensures_next.2 (syncEdge_movesOnly (by simp) (by simp))).guarded _
  | enqdeq d => exact (ensures_next.2 (syncEdge_movesOnly (by simp) (by simp))).guarded _
  | init => exact execInit_movesOnly s
  | wNop => exact (unlessHeld_ensures (.refl _ s) (wEdge_movesOnly (by simp))).guarded _
  | wEnq d => exact (unlessHeld_ensures (.refl _ s) (wEdge_movesOnly (by simp))).guarded _
  | rNop => exact (unlessHeld_ensures (heldREdge_movesOnly s) (rEdge_movesOnly (by simp))).guarded _
  | rDeq => exact (unlessHeld_ensures (heldREdge_movesOnly s) (rEdge_movesOnly (by simp))).guarded _
  | aRun => exact (ensures_next.2 (.of_async rfl rfl rfl)).guarded _
  | aInit => exact raiseReset_movesOnly false s
  | isEmpty p => exact (ensures_next.2 (answerQuery_movesOnly ..)).guarded _
  | isFull p => exact (ensures_next.2 (answerQuery_movesOnly ..)).guarded _
  | tNop => exact ((ensures_next.2 (respond_movesOnly ..)).guarded _).guarded _
  | send d => exact execSend_movesOnly d s
  | receive => exact execReceive_movesOnly s
  | uartInit => exact (uartInitBody_movesOnly s).guarded _
  | prime => exact ((primeBody_movesOnly s).guarded _).guarded _
  | tReserved5 => exact ensures_refused
  | tReserved6 => exact ensures_refused
  | tReserved7 => exact ensures_refused
  | txIrq => exact takeInterrupt_ensures (txHandler_movesOnly s) _
  | rxIrq => exact takeInterrupt_ensures (rxHandler_movesOnly s) _
  | hwTxDone => exact execHwTxDone_movesOnly s
  | hwRxByte b => exact execHwRxByte_movesOnly b s
  | clk => exact execClk_movesOnly s

/-! ### FG's micro-steps -/

theorem startForeground_movesOnly (i : Instr) (s : State) :
    Ensures (MovesOnly (.uart :: l) s) (startForeground i s) := by
  refine Ensures.guarded ?_ _
  split
  · exact ensures_next.2 (fgGoto_movesOnly ..)
  · exact ensures_refused

theorem sendCheck_movesOnly (d : Byte) (h : Nat) (s : State) : MovesOnly (.uart :: l) s (sendCheck d h s) := by
  unfold sendCheck
  split
  · exact respond_movesOnly ..
  · exact fgGoto_movesOnly ..

theorem sendTest_movesOnly (st : TxState) (s : State) : MovesOnly (.uart :: l) s (sendTest st s) := by
  cases st with
  | idle => exact fgGoto_movesOnly ..
  | transmitting => exact respond_movesOnly ..

theorem primeTest_movesOnly (s : State) : MovesOnly (.uart :: l) s (primeTest s) := by
  unfold primeTest
  split
  · exact fgGoto_movesOnly ..
  · exact respond_movesOnly ..

theorem primeCheck_movesOnly (t : Nat) (s : State) : MovesOnly (.uart :: l) s (primeCheck t s) := by
  unfold primeCheck
  split
  · exact respond_movesOnly ..
  · exact fgGoto_movesOnly ..

theorem receiveCheck_movesOnly (t : Nat) (s : State) : MovesOnly (.uart :: l) s (receiveCheck t s) := by
  unfold receiveCheck
  split
  · exact respond_movesOnly ..
  · exact fgGoto_movesOnly ..

/-- E3 writes a cell of TXQ and moves no index. -/
theorem sendStore_movesOnly (d : Byte) (s : State) : MovesOnly (.uart :: l) s (sendStore d s) :=
  ⟨fun p hp => by cases p <;> simp_all [sendStore]⟩

theorem sendAdvance_movesOnly (s : State) : MovesOnly [.uart, .txTail] s (sendAdvance s) :=
  ⟨fun p hp => by cases p <;> simp_all [sendAdvance]⟩

theorem primeAdvance_movesOnly (b : Byte) (s : State) : MovesOnly [.uart, .txHead] s (primeAdvance b s) :=
  ⟨fun p hp => by cases p <;> simp_all [primeAdvance]⟩

theorem primeMark_movesOnly (b : Byte) (s : State) : MovesOnly [.uart, .txState] s (primeMark b s) :=
  ⟨fun p hp => by cases p <;> simp_all [primeMark]⟩

theorem receiveAdvance_movesOnly (b : Byte) (s : State) : MovesOnly [.uart, .rxHead] s (receiveAdvance b s) :=
  ⟨fun p hp => by cases p <;> simp_all [receiveAdvance]⟩

theorem fgMicroStep_movesOnly (s : State) :
    Ensures (MovesOnly (microStepMoves s.uart.fg) s) (fgMicroStep s) := by
  unfold fgMicroStep
  cases s.uart.fg with
  | idle => exact ensures_refused
  | nop => exact ensures_next.2 (respond_movesOnly ..)
  | uartInit => exact uartInitBody_movesOnly s
  | sendE1 d => exact ensures_next.2 (fgGoto_movesOnly ..)
  | sendE2 d h => exact ensures_next.2 (sendCheck_movesOnly ..)
  | sendE3 d => exact ensures_next.2 (sendStore_movesOnly ..)
  | sendE4 => exact ensures_next.2 (sendAdvance_movesOnly s)
  | sendS5 => exact ensures_next.2 (fgGoto_movesOnly ..)
  | sendS6 st => exact ensures_next.2 (sendTest_movesOnly ..)
  | primeP1 => exact ensures_next.2 (primeTest_movesOnly s)
  | primeP2 => exact ensures_next.2 (fgGoto_movesOnly ..)
  | primeP3 t => exact ensures_next.2 (primeCheck_movesOnly ..)
  | primeP4 => exact ensures_next.2 (fgGoto_movesOnly ..)
  | primeP5 b => exact ensures_next.2 (primeAdvance_movesOnly ..)
  | primeP6 b => exact ensures_next.2 (primeMark_movesOnly ..)
  | primeP7 b =>
    exact (writeOutputRegister_movesOnly b s).andThen fun u hu => ensures_next.2 (hu.trans (respond_movesOnly ..))
  | recvD1 => exact ensures_next.2 (fgGoto_movesOnly ..)
  | recvD2 t => exact ensures_next.2 (receiveCheck_movesOnly ..)
  | recvD3 => exact ensures_next.2 (fgGoto_movesOnly ..)
  | recvD4 b => exact ensures_next.2 (receiveAdvance_movesOnly ..)

end

/-! ### Which operations move a given register: the tables read by register -/

section

variable {i : Instr} {f : Fg}

theorem syncTail_mem_commandMoves :
    .syncTail ∈ commandMoves i ↔ i = .init ∨ (∃ d, i = .enq d) ∨ ∃ d, i = .enqdeq d := by
  cases i <;> simp [commandMoves, asyncResetMoves, uartInitMoves]

theorem syncHead_mem_commandMoves : .syncHead ∈ commandMoves i ↔ i = .init ∨ i = .deq ∨ ∃ d, i = .enqdeq d := by
  cases i <;> simp [commandMoves, asyncResetMoves, uartInitMoves]

theorem asyncTail_mem_commandMoves : .asyncTail ∈ commandMoves i ↔ i = .aInit ∨ ∃ d, i = .wEnq d := by
  cases i <;> simp [commandMoves, asyncResetMoves, uartInitMoves]

theorem asyncHead_mem_commandMoves : .asyncHead ∈ commandMoves i ↔ i = .aInit ∨ i = .rDeq := by
  cases i <;> simp [commandMoves, asyncResetMoves, uartInitMoves]

theorem txTail_mem_commandMoves : .txTail ∈ commandMoves i ↔ i = .uartInit ∨ ∃ d, i = .send d := by
  cases i <;> simp [commandMoves, asyncResetMoves, uartInitMoves]

theorem txHead_mem_commandMoves :
    .txHead ∈ commandMoves i ↔ i = .uartInit ∨ i = .txIrq ∨ i = .prime ∨ ∃ d, i = .send d := by
  cases i <;> simp [commandMoves, asyncResetMoves, uartInitMoves]

theorem rxTail_mem_commandMoves : .rxTail ∈ commandMoves i ↔ i = .uartInit ∨ i = .rxIrq := by
  cases i <;> simp [commandMoves, asyncResetMoves, uartInitMoves]

theorem rxHead_mem_commandMoves : .rxHead ∈ commandMoves i ↔ i = .uartInit ∨ i = .receive := by
  cases i <;> simp [commandMoves, asyncResetMoves, uartInitMoves]

theorem txState_mem_commandMoves :
    .txState ∈ commandMoves i ↔ i = .uartInit ∨ i = .txIrq ∨ i = .prime ∨ ∃ d, i = .send d := by
  cases i <;> simp [commandMoves, asyncResetMoves, uartInitMoves]

theorem irqEnabled_mem_commandMoves : .irqEnabled ∈ commandMoves i ↔ i = .uartInit := by
  cases i <;> simp [commandMoves, asyncResetMoves, uartInitMoves]

theorem txTail_mem_microStepMoves : .txTail ∈ microStepMoves f ↔ f = .uartInit ∨ f = .sendE4 := by
  cases f <;> simp [microStepMoves, uartInitMoves]

theorem txHead_mem_microStepMoves : .txHead ∈ microStepMoves f ↔ f = .uartInit ∨ ∃ b, f = .primeP5 b := by
  cases f <;> simp [microStepMoves, uartInitMoves]

theorem rxTail_mem_microStepMoves : .rxTail ∈ microStepMoves f ↔ f = .uartInit := by
  cases f <;> simp [microStepMoves, uartInitMoves]

theorem rxHead_mem_microStepMoves : .rxHead ∈ microStepMoves f ↔ f = .uartInit ∨ ∃ b, f = .recvD4 b := by
  cases f <;> simp [microStepMoves, uartInitMoves]

theorem txState_mem_microStepMoves : .txState ∈ microStepMoves f ↔ f = .uartInit ∨ ∃ b, f = .primeP6 b := by
  cases f <;> simp [microStepMoves, uartInitMoves]

theorem irqEnabled_mem_microStepMoves : .irqEnabled ∈ microStepMoves f ↔ f = .uartInit := by
  cases f <;> simp [microStepMoves, uartInitMoves]

/-- FG moves nothing of the two FIFO blocks. -/
theorem fifo_not_mem_microStepMoves :
    .sync ∉ microStepMoves f ∧ .syncTail ∉ microStepMoves f ∧ .syncHead ∉ microStepMoves f ∧
      .asyncTail ∉ microStepMoves f ∧ .asyncHead ∉ microStepMoves f := by
  cases f <;> simp [microStepMoves, uartInitMoves]

end

/-! ### Events -/

/-- What may have moved a part: a command, a micro-step of FG, a transaction taken up, or the rise of a held `arst`. -/
def MovedBy (e : Event) (s : State) (p : StatePart) : Prop :=
  (∃ i, e.command = some i ∧ p ∈ commandMoves i) ∨ (e = .fgStep ∧ p ∈ microStepMoves s.uart.fg) ∨
    ((∃ w, e = .startFg w) ∧ p = .uart) ∨ (e = .holdReset ∧ p ∈ asyncResetMoves)

theorem runEvent_movedBy {e : Event} {s t : State} (h : runEvent e s = .next t) {p : StatePart} (hp : ¬ p.Same s t) :
    MovedBy e s p := by
  obtain ⟨i, hi, hexec⟩ | ⟨-, rfl⟩ | ⟨w, i, rfl, -, hstart⟩ | ⟨rfl, hstep⟩ | ⟨rfl, hreset⟩ := runEvent_next h
  · exact .inl ⟨i, hi, by_contra fun hl => hp ((exec_movesOnly i s t hexec).same p hl)⟩
  · exact absurd ((MovesOnly.refl [] t).same p (by simp)) hp
  · refine .inr (.inr (.inl ⟨⟨w, rfl⟩, by_contra fun hl => hp ?_⟩))
    exact (startForeground_movesOnly (l := []) i s t hstart).same p (by simpa using hl)
  · exact .inr (.inl ⟨rfl, by_contra fun hl => hp (((fgMicroStep_movesOnly s).guarded _ t hstep).same p hl)⟩)
  · exact .inr (.inr (.inr ⟨rfl, by_contra fun hl => hp ((raiseReset_movesOnly true s t hreset).same p hl)⟩))

/-- Settles O58: whatever a step has moved is in the tables, and the tables read by register are the roles. -/
theorem rolesMoveTheirOwnIndex : Obligations.RolesMoveTheirOwnIndex := by
  unfold Obligations.RolesMoveTheirOwnIndex flushes fgTakes asyncResets
  intro e s t h
  have moved {p : StatePart} (hp : ¬ p.Same s t) := runEvent_movedBy h hp
  refine ⟨fun hne => ?_, fun hne => ?_, fun hne => ?_, fun hne => ?_, fun hne => ?_, fun hne => ?_, fun hne => ?_,
    fun hne => ?_, fun hne => ?_, fun hne => ?_⟩
  · have := moved (p := .syncTail) hne
    grind [MovedBy, syncTail_mem_commandMoves, fifo_not_mem_microStepMoves, asyncResetMoves]
  · have := moved (p := .syncHead) hne
    grind [MovedBy, syncHead_mem_commandMoves, fifo_not_mem_microStepMoves, asyncResetMoves]
  · have := moved (p := .asyncTail) hne
    grind [MovedBy, asyncTail_mem_commandMoves, fifo_not_mem_microStepMoves, asyncResetMoves]
  · have := moved (p := .asyncHead) hne
    grind [MovedBy, asyncHead_mem_commandMoves, fifo_not_mem_microStepMoves, asyncResetMoves]
  · have := moved (p := .txTail) hne
    grind [MovedBy, txTail_mem_commandMoves, txTail_mem_microStepMoves, asyncResetMoves]
  · have := moved (p := .txHead) hne
    grind [MovedBy, txHead_mem_commandMoves, txHead_mem_microStepMoves, asyncResetMoves]
  · have := moved (p := .rxTail) hne
    grind [MovedBy, rxTail_mem_commandMoves, rxTail_mem_microStepMoves, asyncResetMoves]
  · have := moved (p := .rxHead) hne
    grind [MovedBy, rxHead_mem_commandMoves, rxHead_mem_microStepMoves, asyncResetMoves]
  · have := moved (p := .txState) hne
    grind [MovedBy, txState_mem_commandMoves, txState_mem_microStepMoves, asyncResetMoves]
  · have := moved (p := .irqEnabled) hne
    grind [MovedBy, irqEnabled_mem_commandMoves, irqEnabled_mem_microStepMoves, asyncResetMoves]

/-! ### The ring buffer's invariant (R21, R27, R60, R129) under its operations -/

theorem Ring.StorageOk.push {r : Ring} (h : r.StorageOk) (htail : r.tail < r.cap) (b : Byte) :
    (r.push b).StorageOk := by
  obtain ⟨hwf, hcells⟩ := h
  refine ⟨write_wf hwf r.tail b, fun c hc => ?_⟩
  obtain hc | rfl := mem_write hc
  · exact hcells c hc
  · exact htail

theorem Ring.StorageOk.pop {r : Ring} (h : r.StorageOk) : r.pop.StorageOk := h

theorem Ring.StorageOk.init {r : Ring} (h : r.StorageOk) : r.init.StorageOk := h

/-- The advance of an index is the residue of the advanced count (R27, R126). -/
theorem next_mod (n k : Nat) : next n (k % n) = (k + 1) % n := by
  simp [next, Nat.mod_add_mod]

/-- At N−1 outstanding elements the flag is 1, so a buffer that is not full has room for one more. -/
theorem Ring.GhostOk.push {r : Ring} (h : r.GhostOk) (hcap : 2 ≤ r.cap) (hfull : r.full = false) (b : Byte) :
    (r.push b).GhostOk := by
  obtain ⟨hhead, htail, hle, hroom⟩ := h
  have room_left : r.ghostT ≠ r.ghostH + (r.cap - 1) := by
    intro hmax
    have : r.full = true := by
      rw [full_iff, htail, next_mod, hmax, hhead,
        show r.ghostH + (r.cap - 1) + 1 = r.ghostH + r.cap by omega, Nat.add_mod_right]
    simp [hfull] at this
  refine ⟨hhead, ?_, ?_, ?_⟩
  · rw [push_tail, push_cap, push_ghostT, htail, next_mod]
  · simp only [push_ghostH, push_ghostT]; omega
  · simp only [push_ghostH, push_ghostT, push_cap]; omega

/-- With equal counts the flag is 1, so a buffer that is not empty has an element to give. -/
theorem Ring.GhostOk.pop {r : Ring} (h : r.GhostOk) (hempty : r.empty = false) : r.pop.GhostOk := by
  obtain ⟨hhead, htail, hle, hroom⟩ := h
  have outstanding : r.ghostH ≠ r.ghostT := by
    intro heq
    have : r.empty = true := by rw [empty_iff, hhead, htail, heq]
    simp [hempty] at this
  refine ⟨?_, htail, ?_, ?_⟩
  · rw [pop_head, pop_cap, pop_ghostH, hhead, next_mod]
  · simp only [pop_ghostH, pop_ghostT]; omega
  · simp only [pop_ghostH, pop_ghostT, pop_cap]; omega

theorem init_ghostOk (r : Ring) : r.init.GhostOk := by simp [Ring.GhostOk]

/-- The new live cell is the written one; the others were live before. -/
theorem Ring.LiveWritten.push {r : Ring} (h : r.LiveWritten) (hcap : 2 ≤ r.cap) (hr : r.inRange = true)
    (hfull : r.full = false) (b : Byte) : (r.push b).LiveWritten := by
  intro k hk
  rw [occ_push b hcap hr hfull] at hk
  rw [push_storage, push_head, push_cap, read_write]
  split
  · rfl
  · next hne =>
    have : k ≠ r.occ := fun hk => hne (by rw [hk, head_add_occ hr])
    exact h k (by omega)

theorem Ring.LiveWritten.pop {r : Ring} (h : r.LiveWritten) (hcap : 2 ≤ r.cap) (hr : r.inRange = true)
    (hempty : r.empty = false) : r.pop.LiveWritten := by
  intro k hk
  rw [pop_storage, pop_head, pop_cap, next_add]
  exact h (k + 1) (by rw [occ_pop hcap hr hempty]; omega)

theorem init_occ (r : Ring) : r.init.occ = 0 := by simp [Ring.occ]

theorem init_liveWritten (r : Ring) : r.init.LiveWritten := by
  intro k hk
  simp [init_occ] at hk

theorem Ring.Inv.two_le_cap {r : Ring} (h : r.Inv) : 2 ≤ r.cap := h.1

theorem Ring.Inv.inRange {r : Ring} (h : r.Inv) : r.inRange = true := h.2.1

theorem Ring.Inv.storageOk {r : Ring} (h : r.Inv) : r.StorageOk := h.2.2.1

theorem Ring.Inv.push {r : Ring} (h : r.Inv) (hfull : r.full = false) (b : Byte) : (r.push b).Inv := by
  obtain ⟨hcap, hr, hstorage, hghost, hlive⟩ := h
  obtain ⟨hhead, htail⟩ := (inRange_iff r).1 hr
  exact ⟨hcap, (inRange_iff _).2 ⟨hhead, next_lt hcap r.tail⟩, hstorage.push htail b, hghost.push hcap hfull b,
    hlive.push hcap hr hfull b⟩

theorem Ring.Inv.pop {r : Ring} (h : r.Inv) (hempty : r.empty = false) : r.pop.Inv := by
  obtain ⟨hcap, hr, hstorage, hghost, hlive⟩ := h
  obtain ⟨hhead, htail⟩ := (inRange_iff r).1 hr
  exact ⟨hcap, (inRange_iff _).2 ⟨next_lt hcap r.head, htail⟩, hstorage.pop, hghost.pop hempty,
    hlive.pop hcap hr hempty⟩

theorem init_inv {r : Ring} (hcap : 2 ≤ r.cap) (hstorage : r.StorageOk) : r.init.Inv := by
  have hpos : 0 < r.cap := by omega
  exact ⟨hcap, (inRange_iff _).2 ⟨hpos, hpos⟩, hstorage.init, init_ghostOk r, init_liveWritten r⟩

theorem push_not_empty {r : Ring} (hcap : 2 ≤ r.cap) (hr : r.inRange = true) (hfull : r.full = false) (b : Byte) :
    (r.push b).empty = false := by
  obtain ⟨hhead, -⟩ := (inRange_iff r).1 hr
  have hr' : (r.push b).inRange = true := (inRange_iff _).2 ⟨hhead, next_lt hcap r.tail⟩
  by_contra hempty
  have : (r.push b).occ = 0 := (occ_eq_zero_iff hr').2 (by simpa using hempty)
  rw [occ_push b hcap hr hfull] at this
  omega

/-! ### `sync_fifo`'s invariant under every step -/

theorem State.SyncInv.of_sync_eq {s t : State} (h : s.SyncInv) (hsync : t.sync = s.sync) : t.SyncInv := by
  unfold State.SyncInv
  rwa [hsync]

/-- Both halves of an edge are decided before it: a byte stored does not empty the buffer again, so the
dequeuing half still finds its element. -/
theorem syncEdge_ring_inv {s : State} (h : s.sync.ring.Inv) (enq deq : Bool) (d : Byte) :
    (syncEdge enq deq d s).sync.ring.Inv := by
  simp only [syncEdge]
  split <;> split
  · next hdeq henq =>
    simp only [Bool.and_eq_true, Bool.not_eq_true'] at hdeq henq
    exact (h.push henq.2 d).pop (push_not_empty h.two_le_cap h.inRange henq.2 d)
  · next hdeq _ =>
    simp only [Bool.and_eq_true, Bool.not_eq_true'] at hdeq
    exact h.pop hdeq.2
  · next _ henq =>
    simp only [Bool.and_eq_true, Bool.not_eq_true'] at henq
    exact h.push henq.2 d
  · exact h

/-- An edge runs after the first reset only (R303). -/
theorem guarded_syncEdge_syncInv {s : State} (h : s.SyncInv) (enq deq : Bool) (d : Byte) :
    Ensures State.SyncInv (guarded (syncGuard s) (.next (syncEdge enq deq d s))) := by
  intro t ht
  obtain ⟨hready, ht⟩ := guarded_next.1 ht
  obtain ⟨-, hup, -⟩ := (syncGuard_iff s).1 hready
  obtain ⟨-, -, hring⟩ := h
  have hinv := syncEdge_ring_inv (hring hup) enq deq d
  exact ensures_next.2 ⟨hinv.two_le_cap, hinv.storageOk, fun _ => hinv⟩ t ht

theorem execInit_syncInv {s : State} (h : s.SyncInv) : Ensures State.SyncInv (execInit s) := by
  obtain ⟨hcap, hstorage, -⟩ := h
  exact (ensures_next.2 ⟨hcap, hstorage.init, fun _ => init_inv hcap hstorage⟩).guarded _

/-- The commands of the other blocks leave `sync_fifo` alone. -/
theorem exec_syncInv {s : State} (h : s.SyncInv) (i : Instr) : Ensures State.SyncInv (exec i s) := by
  by_cases hi : .sync ∈ commandMoves i
  · cases i with
    | nop => exact guarded_syncEdge_syncInv h _ _ _
    | enq d => exact guarded_syncEdge_syncInv h _ _ _
    | deq => exact guarded_syncEdge_syncInv h _ _ _
    | enqdeq d => exact guarded_syncEdge_syncInv h _ _ _
    | init => exact execInit_syncInv h
    | _ => simp [commandMoves, asyncResetMoves, uartInitMoves] at hi
  · exact (exec_movesOnly i s).mono fun t ht => h.of_sync_eq (ht.same .sync hi)

theorem runEvent_syncInv {s : State} (h : s.SyncInv) (e : Event) : Ensures State.SyncInv (runEvent e s) := by
  intro t ht
  by_cases hsync : t.sync = s.sync
  · exact h.of_sync_eq hsync
  · obtain ⟨i, hi, -⟩ | ⟨-, hp⟩ | ⟨-, hp⟩ | ⟨-, hp⟩ := runEvent_movedBy ht (p := .sync) hsync
    · exact exec_syncInv h i t (by rwa [runEvent_command hi] at ht)
    · exact absurd hp fifo_not_mem_microStepMoves.1
    · simp at hp
    · simp [asyncResetMoves] at hp

/-- Settles O54: every operation of the ring buffer keeps its invariant, an edge is made of them, and every other event
leaves `sync_fifo` alone. -/
theorem syncInvariantKept : Obligations.SyncInvariantKept := by
  unfold Obligations.SyncInvariantKept
  intro s t h ht
  obtain ⟨e, rest, -, hrun⟩ := step_next ht
  have hfetch : ({ s with pending := rest } : State).SyncInv := h
  exact runEvent_syncInv hfetch e t hrun

/-! ### The flags and the occupancy -/

/-- Settles O7: with the indices in range, the occupancy is the distance of the indices, with one wrap or none. -/
theorem flagsFollowOccupancy : Obligations.FlagsFollowOccupancy := by
  unfold Obligations.FlagsFollowOccupancy
  intro r hcap hhead htail
  have hr : r.inRange = true := (inRange_iff r).2 ⟨hhead, htail⟩
  have hocc := occ_cases hhead htail
  refine ⟨empty_iff r, full_iff r, ?_, (occ_eq_zero_iff hr).symm, ?_, ?_, ?_⟩
  · omega
  · rw [full_iff, next_eq htail]
    split <;> omega
  · rintro ⟨hempty, hfull⟩
    simp [not_empty_of_full hcap htail hfull] at hempty
  · have hle : r.head ≤ r.tail + r.cap := by omega
    unfold Ring.occ
    push_cast [Nat.cast_sub hle]
    rw [show (r.tail : Int) + r.cap - r.head = r.tail - r.head + r.cap by ring, Int.add_emod_right]

/-! ### The reset state -/

/-- A fresh ring buffer is what INIT makes of one without written cells. -/
theorem fresh_inv {n : Nat} (h : 2 ≤ n) : (Ring.fresh n).Inv :=
  init_inv (r := Ring.fresh n) h ⟨List.Pairwise.nil, by simp [Ring.fresh]⟩

theorem resetCap_legal : 2 ≤ resetCap := by decide

theorem crossing_reset_inv : Crossing.reset.Inv := by simp [Crossing.Inv, Crossing.reset]

theorem reset_syncInv : State.reset.SyncInv :=
  have h := fresh_inv resetCap_legal
  ⟨h.two_le_cap, h.storageOk, fun _ => h⟩

theorem reset_cdc : State.reset.async.Cdc := by
  refine ⟨0, 0, 0, 0, ?_⟩
  decide

theorem reset_asyncInv : State.reset.AsyncInv :=
  have h := fresh_inv resetCap_legal
  ⟨h.two_le_cap, by decide, h.storageOk, fun _ => ⟨reset_cdc, init_liveWritten (Ring.fresh resetCap)⟩⟩

theorem reset_boundaryInv : State.reset.uart.BoundaryInv :=
  ⟨crossing_reset_inv, crossing_reset_inv, fun _ => ⟨rfl, rfl⟩, nofun, fun h => absurd rfl h, nofun⟩

theorem reset_uartInv : State.reset.UartInv :=
  have h := fresh_inv resetCap_legal
  ⟨h.two_le_cap, h.two_le_cap, h.storageOk, h.storageOk,
    fun _ => ⟨⟨h, h, reset_boundaryInv, fun _ => rfl⟩, fun _ => nofun⟩⟩

/-- Settles O53: every ring buffer is fresh, and all the counts of the crossings are 0. -/
theorem resetMeetsTheInvariants : Obligations.ResetMeetsTheInvariants := by
  unfold Obligations.ResetMeetsTheInvariants
  exact ⟨reset_syncInv, reset_asyncInv, reset_uartInv⟩

theorem reset_async_atReset : State.reset.async.AtReset :=
  ⟨rfl, rfl, rfl, rfl, rfl, rfl, rfl, rfl, rfl, rfl, rfl, rfl, rfl, rfl, rfl⟩

/-- Settles O52: the four ring buffers are fresh, and every other value is read off the reset state. -/
theorem resetValues : Obligations.ResetValues := by
  unfold Obligations.ResetValues
  intro r hr
  have fresh : r = Ring.fresh resetCap := by simpa [State.reset] using hr
  subst fresh
  exact ⟨⟨rfl, rfl, rfl, rfl, rfl, rfl, rfl⟩, reset_async_atReset, rfl, rfl, rfl, rfl, rfl, rfl, rfl, rfl, rfl⟩

end Sys2Proof.Machine

namespace Sys2Proof.Machine

/-! ### A foreground operation as an uninterrupted run of its micro-steps (R67, R69, R70, R232 to R234)

Between two micro-steps the machine is `fgGoto f s`: FG stands at `f`, and `s` is what its operation has made of the
rest. Each lemma runs the micro-steps from one such state on. -/

theorem guarded_congr {why : Option Refusal} {go go' : Result} (h : why = none → go = go') :
    guarded why go = guarded why go' := by
  cases why with
  | none => exact h rfl
  | some r => rfl

theorem andThen_guarded (why : Option Refusal) (go : Result) (g : State → Result) :
    andThen (guarded why go) g = guarded why (andThen go g) := by
  cases why <;> rfl

section

variable {s t : State} {f : Fg}

/-- At a micro-step of an operation that is held to the first reset, the checks of `uartGuard` come first. -/
theorem foregroundStep_eq_guarded (hidle : s.uart.fg ≠ .idle) (hinit : s.uart.fg ≠ .uartInit) :
    foregroundStep s = guarded (uartGuard s) (fgMicroStep s) := by
  have hguard : fgStepGuard s = uartGuard s := by
    unfold fgStepGuard
    split
    · exact absurd ‹_› hidle
    · exact absurd ‹_› hinit
    · rfl
  rw [foregroundStep, hguard]

theorem runForeground_succ (k : Nat) (s : State) (hf : f ≠ .idle := by nofun) (hinit : f ≠ .uartInit := by nofun) :
    runForeground (k + 1) (fgGoto f s) =
      guarded (uartGuard s) (andThen (fgMicroStep (fgGoto f s)) (runForeground k)) := by
  rw [runForeground, fgGoto_fg, if_neg hf, foregroundStep_eq_guarded hf hinit, andThen_guarded]
  rfl

theorem runForeground_idle (h : s.uart.fg = .idle) (k : Nat) : runForeground k s = .next s := by
  cases k with
  | zero => rfl
  | succ k => rw [runForeground, if_pos h]

theorem runForeground_respond (a : Answer) (s : State) (k : Nat) :
    runForeground k (respond a s) = .next (respond a s) := runForeground_idle rfl k

/-- One micro-step in a state that passes the checks. -/
theorem runForeground_step {k : Nat} (hready : UartReady s) (hstep : fgMicroStep (fgGoto f s) = .next t)
    (hf : f ≠ .idle := by nofun) (hinit : f ≠ .uartInit := by nofun) :
    runForeground (k + 1) (fgGoto f s) = runForeground k t := by
  rw [runForeground_succ k s hf hinit, (uartGuard_iff s).2 hready, guarded_none, hstep, andThen_next]

/-- Where the first micro-step's checks fail, so do those of the whole operation. -/
theorem runForeground_eq_guarded {k : Nat} {go : Result}
    (h : UartReady s → runForeground (k + 1) (fgGoto f s) = go) (hf : f ≠ .idle := by nofun)
    (hinit : f ≠ .uartInit := by nofun) :
    runForeground (k + 1) (fgGoto f s) = guarded (uartGuard s) go := by
  rw [runForeground_succ k s hf hinit] at h ⊢
  refine guarded_congr fun hguard => ?_
  simpa [hguard] using h ((uartGuard_iff s).1 hguard)

@[simp] theorem fgGoto_fgGoto (f g : Fg) (s : State) : fgGoto f (fgGoto g s) = fgGoto f s := rfl

/-- An answer ends the operation, so where FG stood no longer shows. -/
@[simp] theorem respond_fgGoto (a : Answer) (f : Fg) (s : State) : respond a (fgGoto f s) = respond a s := rfl

/-- Taking up an operation checks what the whole operation checks first. -/
theorem andThen_startForeground {i : Instr} {k : Nat} {go : Result} (hstart : fgStart i = some f)
    (hrun : runForeground k (fgGoto f s) = go) :
    andThen (startForeground i s) (runForeground k) = guarded (fgGuard s) go := by
  simp only [startForeground, hstart, andThen_guarded, andThen_next, hrun]

/-- The indices may move within the capacity without failing the checks. -/
theorem UartReady.of_txq {q : Ring} (h : UartReady s) (hcap : q.cap = s.uart.txq.cap) (hhead : q.head < q.cap)
    (htail : q.tail < q.cap) : UartReady { s with uart := { s.uart with txq := q } } := by
  obtain ⟨htx, hrx, hirq, -, -, hrxHead, hrxTail⟩ := h
  exact ⟨hcap ▸ htx, hrx, hirq, hhead, htail, hrxHead, hrxTail⟩

theorem UartReady.of_txState (h : UartReady s) (st : TxState) :
    UartReady { s with uart := { s.uart with txState := st } } := h

theorem UartReady.push_txq (h : UartReady s) (d : Byte) :
    UartReady { s with uart := { s.uart with txq := s.uart.txq.push d } } := by
  have ⟨hcap, _, _, hhead, _⟩ := h
  exact h.of_txq rfl hhead (next_lt hcap _)

theorem UartReady.pop_txq (h : UartReady s) : UartReady { s with uart := { s.uart with txq := s.uart.txq.pop } } := by
  have ⟨hcap, _, _, _, htail, _⟩ := h
  exact h.of_txq rfl (next_lt hcap _) htail

/-! ### The priming step, P1 to P7 -/

theorem primeBody_transmitting (h : s.uart.txState = .transmitting) : primeBody s = .next (respond .ok s) := by
  simp [primeBody, h]

theorem primeBody_idle_empty (h : s.uart.txState = .idle) (hempty : s.uart.txq.empty = true) :
    primeBody s = .next (respond .ok s) := by
  simp [primeBody, h, (dequeue_eq_none_iff ..).2 hempty]

theorem primeBody_idle_nonempty (h : s.uart.txState = .idle) (hempty : s.uart.txq.empty = false) :
    primeBody s =
      andThen
        (writeOutputRegister (s.uart.txq.cell .tx s.uart.txq.head)
          { s with uart := { s.uart with txq := s.uart.txq.pop, txState := .transmitting } })
        fun t => .next (respond .ok t) := by
  simp [primeBody, h, (dequeue_eq_some_iff ..).2 ⟨hempty, rfl, rfl⟩]

/-- P7: the write to the output register, refused as in the whole operation while it holds a byte (R245). -/
theorem runForeground_primeP7 (hready : UartReady s) (b : Byte) (k : Nat) :
    runForeground (k + 1) (fgGoto (.primeP7 b) s) =
      andThen (writeOutputRegister b s) fun t => .next (respond .ok t) := by
  rw [runForeground_succ (f := .primeP7 b) k s, (uartGuard_iff s).2 hready, guarded_none]
  simp only [fgMicroStep, fgGoto_fg, writeOutputRegister, fgGoto_outReg]
  cases s.uart.outReg with
  | none => exact runForeground_respond ..
  | some b => rfl

/-- P4 to P7: the DEQUEUE of a byte that is there, and the write to the output register. -/
theorem runForeground_primeP4 (hready : UartReady s) (hidle : s.uart.txState = .idle)
    (hempty : s.uart.txq.empty = false) (k : Nat) :
    runForeground (k + 4) (fgGoto .primeP4 s) = primeBody s := by
  have hpopped := hready.pop_txq
  calc runForeground (k + 4) (fgGoto .primeP4 s)
    _ = runForeground (k + 3) (fgGoto (.primeP5 (s.uart.txq.cell .tx s.uart.txq.head)) s) :=
      runForeground_step hready rfl
    _ = runForeground (k + 2) (fgGoto (.primeP6 (s.uart.txq.cell .tx s.uart.txq.head))
          { s with uart := { s.uart with txq := s.uart.txq.pop } }) :=
      runForeground_step hready rfl
    _ = runForeground (k + 1) (fgGoto (.primeP7 (s.uart.txq.cell .tx s.uart.txq.head))
          { s with uart := { s.uart with txq := s.uart.txq.pop, txState := .transmitting } }) :=
      runForeground_step hpopped rfl
    _ = primeBody s := by
      rw [runForeground_primeP7 (hpopped.of_txState _), primeBody_idle_nonempty hidle hempty]

/-- The check depends on the indices, and not on where FG stood. -/
theorem primeCheck_fgGoto (t : Nat) (f : Fg) (s : State) :
    primeCheck t (fgGoto f s) = if s.uart.txq.head = t then respond .ok s else fgGoto .primeP4 s := rfl

/-- P2 to P7: nothing falls in between, so the `t` read at P2 is still `tail` at the check. -/
theorem runForeground_primeP2 (hready : UartReady s) (hidle : s.uart.txState = .idle) (k : Nat) :
    runForeground (k + 6) (fgGoto .primeP2 s) = primeBody s := by
  calc runForeground (k + 6) (fgGoto .primeP2 s)
    _ = runForeground (k + 5) (fgGoto (.primeP3 s.uart.txq.tail) s) := runForeground_step hready rfl
    _ = runForeground (k + 4) (primeCheck s.uart.txq.tail (fgGoto (.primeP3 s.uart.txq.tail) s)) :=
      runForeground_step hready rfl
    _ = primeBody s := by
      rw [primeCheck_fgGoto]
      split
      · next heq => rw [runForeground_respond, primeBody_idle_empty hidle ((empty_iff _).2 heq)]
      · next hne => exact runForeground_primeP4 hready hidle (by simpa [Ring.empty] using hne) k

theorem runForeground_primeP1 (hready : UartReady s) (k : Nat) :
    runForeground (k + 7) (fgGoto .primeP1 s) = primeBody s := by
  calc runForeground (k + 7) (fgGoto .primeP1 s)
    _ = runForeground (k + 6) (primeTest (fgGoto .primeP1 s)) := runForeground_step hready rfl
    _ = primeBody s := by
      simp only [primeTest, fgGoto_txState, respond_fgGoto, fgGoto_fgGoto]
      split
      · next hidle => exact runForeground_primeP2 hready hidle k
      · next hbusy => rw [runForeground_respond, primeBody_transmitting hbusy]

/-! ### SEND: the ENQUEUE, E1 to E4, and the priming test, S5 and S6 -/

/-- S5 and S6: the state read at S5 is the one the whole operation tests. -/
theorem runForeground_sendS5 (hready : UartReady s) (k : Nat) :
    runForeground (k + 8) (fgGoto .sendS5 s) = primeBody s := by
  calc runForeground (k + 8) (fgGoto .sendS5 s)
    _ = runForeground (k + 7) (fgGoto (.sendS6 s.uart.txState) s) := runForeground_step hready rfl
    _ = runForeground (k + 6) (sendTest s.uart.txState (fgGoto (.sendS6 s.uart.txState) s)) :=
      runForeground_step hready rfl
    _ = primeBody s := by
      simp only [sendTest, respond_fgGoto, fgGoto_fgGoto]
      split
      · next hidle => exact runForeground_primeP2 hready hidle k
      · next hbusy => rw [runForeground_respond, primeBody_transmitting hbusy]

/-- E3 and E4 are the accepting half of ENQUEUE. -/
theorem runForeground_sendE3 (hready : UartReady s) (d : Byte) (k : Nat) :
    runForeground (k + 10) (fgGoto (.sendE3 d) s) =
      primeBody { s with uart := { s.uart with txq := s.uart.txq.push d } } := by
  calc runForeground (k + 10) (fgGoto (.sendE3 d) s)
    _ = runForeground (k + 9) (sendStore d s) := runForeground_step hready rfl
    _ = runForeground (k + 8) (fgGoto .sendS5 { s with uart := { s.uart with txq := s.uart.txq.push d } }) :=
      runForeground_step (s := sendStore d s) hready rfl
    _ = _ := runForeground_sendS5 (hready.push_txq d) k

/-- The check depends on the indices, and not on where FG stood. -/
theorem sendCheck_fgGoto (d : Byte) (h : Nat) (f : Fg) (s : State) :
    sendCheck d h (fgGoto f s) =
      if next s.uart.txq.cap s.uart.txq.tail = h then respond .bufferFull s else fgGoto (.sendE3 d) s := rfl

/-- The whole of SEND: the `h` read at E1 is still `head` at the check. -/
theorem runForeground_sendE1 (hready : UartReady s) (d : Byte) (k : Nat) :
    runForeground (k + 12) (fgGoto (.sendE1 d) s) =
      match s.uart.txq.enqueue d with
      | none => .next (respond .bufferFull s)
      | some q => primeBody { s with uart := { s.uart with txq := q } } := by
  calc runForeground (k + 12) (fgGoto (.sendE1 d) s)
    _ = runForeground (k + 11) (fgGoto (.sendE2 d s.uart.txq.head) s) := runForeground_step hready rfl
    _ = runForeground (k + 10) (sendCheck d s.uart.txq.head (fgGoto (.sendE2 d s.uart.txq.head) s)) :=
      runForeground_step hready rfl
    _ = _ := by
      rw [sendCheck_fgGoto]
      split
      · next hfull => rw [runForeground_respond, (enqueue_eq_none_iff ..).2 ((full_iff _).2 hfull)]
      · next hroom =>
        rw [(enqueue_eq_some_iff ..).2 ⟨by simpa [Ring.full] using hroom, rfl⟩]
        exact runForeground_sendE3 hready d k

/-! ### RECEIVE, D1 to D4 -/

theorem runForeground_recvD3 (hready : UartReady s) (k : Nat) :
    runForeground (k + 2) (fgGoto .recvD3 s) =
      .next (respondByte (s.uart.rxq.cell .rx s.uart.rxq.head)
        { s with uart := { s.uart with rxq := s.uart.rxq.pop } }) := by
  calc runForeground (k + 2) (fgGoto .recvD3 s)
    _ = runForeground (k + 1) (fgGoto (.recvD4 (s.uart.rxq.cell .rx s.uart.rxq.head)) s) :=
      runForeground_step hready rfl
    _ = runForeground k (receiveAdvance (s.uart.rxq.cell .rx s.uart.rxq.head) s) :=
      runForeground_step hready rfl
    _ = _ := runForeground_idle rfl k

/-- The check depends on the indices, and not on where FG stood. -/
theorem receiveCheck_fgGoto (t : Nat) (f : Fg) (s : State) :
    receiveCheck t (fgGoto f s) = if s.uart.rxq.head = t then respond .bufferEmpty s else fgGoto .recvD3 s := rfl

/-- The whole of RECEIVE: the `t` read at D1 is still `tail` at the check. -/
theorem runForeground_recvD1 (hready : UartReady s) (k : Nat) :
    runForeground (k + 4) (fgGoto .recvD1 s) =
      match s.uart.rxq.dequeue .rx with
      | none => .next (respond .bufferEmpty s)
      | some (b, q) => .next (respondByte b { s with uart := { s.uart with rxq := q } }) := by
  calc runForeground (k + 4) (fgGoto .recvD1 s)
    _ = runForeground (k + 3) (fgGoto (.recvD2 s.uart.rxq.tail) s) := runForeground_step hready rfl
    _ = runForeground (k + 2) (receiveCheck s.uart.rxq.tail (fgGoto (.recvD2 s.uart.rxq.tail) s)) :=
      runForeground_step hready rfl
    _ = _ := by
      rw [receiveCheck_fgGoto]
      split
      · next hempty => rw [runForeground_respond, (dequeue_eq_none_iff ..).2 ((empty_iff _).2 hempty)]
      · next hne =>
        rw [(dequeue_eq_some_iff ..).2 ⟨by simpa [Ring.empty] using hne, rfl, rfl⟩]
        exact runForeground_recvD3 hready k

/-! ### The operations of one micro-step -/

theorem runForeground_nop (hready : UartReady s) (k : Nat) :
    runForeground (k + 1) (fgGoto .nop s) = .next (respond .ok s) :=
  (runForeground_step hready rfl).trans (runForeground_respond ..)

/-- UART_INIT is the reset event, whose micro-step makes its own checks alone (R303). -/
theorem runForeground_uartInit (s : State) (k : Nat) :
    runForeground (k + 1) (fgGoto .uartInit s) = uartInitBody s := by
  calc runForeground (k + 1) (fgGoto .uartInit s)
    _ = andThen (uartInitBody (fgGoto .uartInit s)) (runForeground k) := rfl
    _ = guarded (uartInitGuard s) (runForeground k (respond .ok { s with uart := s.uart.initialised })) :=
      andThen_guarded ..
    _ = uartInitBody s := by rw [runForeground_respond, uartInitBody]

end

/-- Settles O45: the operation's micro-steps are run one after another, and the checks a later one makes are
those the whole operation has made, on indices that have moved within the capacity alone. -/
theorem microStepsMakeTheOperation : Obligations.MicroStepsMakeTheOperation := by
  unfold Obligations.MicroStepsMakeTheOperation
  rintro s i (rfl | rfl | rfl | rfl | ⟨d, rfl⟩)
  · exact andThen_startForeground rfl (runForeground_eq_guarded fun h => runForeground_nop h 11)
  · exact andThen_startForeground rfl (runForeground_eq_guarded fun h => runForeground_recvD1 h 8)
  · exact andThen_startForeground rfl (runForeground_uartInit s 11)
  · exact andThen_startForeground rfl (runForeground_eq_guarded fun h => runForeground_primeP1 h 5)
  · exact andThen_startForeground rfl (runForeground_eq_guarded fun h => runForeground_sendE1 h d 0)

end Sys2Proof.Machine

namespace Sys2Proof.Machine

/-! ### What the checks of a block refuse (R7, R62, R105, R183) -/

section

variable {s : State} {d : Byte} {why : Refusal} {r : Ring} {a : AsyncFifo}

theorem capOk_eq_false_iff : r.capOk = false ↔ r.cap < 2 := by simp [Ring.capOk]

theorem capOk_iff : r.capOk = true ↔ 2 ≤ r.cap := by simp [Ring.capOk]

theorem inRange_eq_false_iff : r.inRange = false ↔ r.cap ≤ r.head ∨ r.cap ≤ r.tail := by
  rw [← Bool.not_eq_true, inRange_iff]
  omega

theorem asyncCapOk_iff : a.capOk = true ↔ 2 ≤ a.ring.cap ∧ a.ring.cap % 2 = 0 := by
  simp [AsyncFifo.capOk, capOk_iff]

theorem asyncCapOk_eq_false_iff : a.capOk = false ↔ a.ring.cap < 2 ∨ a.ring.cap % 2 = 1 := by
  rw [← Bool.not_eq_true, asyncCapOk_iff]
  omega

theorem codesOk_eq_false_iff :
    a.codesOk = false ↔
      ∃ g ∈ [a.tailGray, a.hs1, a.hs2, a.headGray, a.ts1, a.ts2, a.tailPrev, a.headPrev],
        ∀ i < a.ring.cap, g ≠ gray a.ring.cap i := by
  simp only [AsyncFifo.codesOk, List.all_eq_false, isCode_iff, not_exists, not_and, ne_eq]

theorem syncGuard_badCapacity (h : s.sync.ring.cap < 2) : syncGuard s = some .badCapacity := by
  simp [syncGuard, firstRefusal_cons, capOk_eq_false_iff.2 h]

theorem syncGuard_corruptIndex (hcap : 2 ≤ s.sync.ring.cap) (hup : s.sync.up = true)
    (h : s.sync.ring.cap ≤ s.sync.ring.head ∨ s.sync.ring.cap ≤ s.sync.ring.tail) :
    syncGuard s = some .corruptIndex := by
  simp [syncGuard, firstRefusal_cons, capOk_iff.2 hcap, hup, inRange_eq_false_iff.2 h]

theorem asyncGuard_badCapacity (h : s.async.ring.cap < 2 ∨ s.async.ring.cap % 2 = 1) :
    asyncGuard s = some .badCapacity := by
  simp [asyncGuard, firstRefusal_cons, asyncCapOk_eq_false_iff.2 h]

theorem asyncGuard_corruptIndex (hcap : 2 ≤ s.async.ring.cap) (heven : s.async.ring.cap % 2 = 0)
    (hup : s.async.up = true) (h : s.async.ring.cap ≤ s.async.ring.head ∨ s.async.ring.cap ≤ s.async.ring.tail) :
    asyncGuard s = some .corruptIndex := by
  simp [asyncGuard, firstRefusal_cons, asyncCapOk_iff.2 ⟨hcap, heven⟩, hup, inRange_eq_false_iff.2 h]

theorem asyncGuard_corruptCode (hcap : 2 ≤ s.async.ring.cap) (heven : s.async.ring.cap % 2 = 0)
    (hup : s.async.up = true) (hhead : s.async.ring.head < s.async.ring.cap)
    (htail : s.async.ring.tail < s.async.ring.cap) (h : s.async.codesOk = false) :
    asyncGuard s = some .corruptCode := by
  simp [asyncGuard, firstRefusal_cons, asyncCapOk_iff.2 ⟨hcap, heven⟩, hup, (inRange_iff _).2 ⟨hhead, htail⟩, h]

theorem queueCaps_eq_false (h : s.uart.txq.cap < 2 ∨ s.uart.rxq.cap < 2) :
    (s.uart.txq.capOk && s.uart.rxq.capOk) = false := by
  rw [Bool.and_eq_false_iff, capOk_eq_false_iff, capOk_eq_false_iff]
  exact h

theorem uartGuard_badCapacity (h : s.uart.txq.cap < 2 ∨ s.uart.rxq.cap < 2) : uartGuard s = some .badCapacity := by
  simp only [uartGuard, firstRefusal_cons, queueCaps_eq_false h]
  rfl

theorem uartGuard_corruptIndex (htx : 2 ≤ s.uart.txq.cap) (hrx : 2 ≤ s.uart.rxq.cap) (hirq : s.uart.irqEnabled = true)
    (h : s.uart.txq.cap ≤ s.uart.txq.head ∨ s.uart.txq.cap ≤ s.uart.txq.tail ∨
      s.uart.rxq.cap ≤ s.uart.rxq.head ∨ s.uart.rxq.cap ≤ s.uart.rxq.tail) :
    uartGuard s = some .corruptIndex := by
  have hindex : (s.uart.txq.inRange && s.uart.rxq.inRange) = false := by
    rw [Bool.and_eq_false_iff, inRange_eq_false_iff, inRange_eq_false_iff]
    tauto
  simp only [uartGuard, firstRefusal_cons, capOk_iff.2 htx, capOk_iff.2 hrx, hirq, hindex]
  rfl

theorem uartInitBody_badCapacity (h : s.uart.txq.cap < 2 ∨ s.uart.rxq.cap < 2) :
    uartInitBody s = .refused .badCapacity := by
  simp only [uartInitBody, uartInitGuard, firstRefusal_cons, queueCaps_eq_false h]
  rfl

/-! ### Every operation of a block makes the checks of the block -/

theorem guarded_refused {w : Option Refusal} (h : w = some why) (go : Result) : guarded w go = .refused why := by
  rw [h, guarded_some]

theorem exec_refused_of_syncGuard (h : syncGuard s = some why) : ∀ i ∈ syncCommands d, exec i s = .refused why := by
  intro i hi
  simp only [syncCommands, List.mem_cons, List.not_mem_nil, or_false] at hi
  rcases hi with rfl | rfl | rfl | rfl | rfl | rfl <;> exact guarded_refused h _

theorem exec_refused_of_asyncGuard (h : asyncGuard s = some why) :
    ∀ i ∈ asyncCommands d, exec i s = .refused why := by
  intro i hi
  simp only [asyncCommands, List.mem_cons, List.not_mem_nil, or_false] at hi
  rcases hi with rfl | rfl | rfl | rfl | rfl | rfl | rfl | rfl | rfl <;> exact guarded_refused h _

theorem exec_refused_of_uartGuard (h : uartGuard s = some why) : ∀ i ∈ handlerCommands, exec i s = .refused why := by
  intro i hi
  simp only [handlerCommands, List.mem_cons, List.not_mem_nil, or_false] at hi
  rcases hi with rfl | rfl <;> exact guarded_refused h _

/-- With no operation in progress, the checks of FG's thread pass (R310). -/
theorem guarded_fgGuard (h : s.uart.fg = .idle) (go : Result) : guarded (fgGuard s) go = go := by
  rw [(fgGuard_iff s).2 h, guarded_none]

theorem exec_fg_refused_of_uartGuard (hidle : s.uart.fg = .idle) (h : uartGuard s = some why) :
    ∀ i ∈ fgCommands d, exec i s = .refused why := by
  intro i hi
  simp only [fgCommands, List.mem_cons, List.not_mem_nil, or_false] at hi
  rcases hi with rfl | rfl | rfl | rfl <;> exact (guarded_fgGuard hidle _).trans (guarded_refused h _)

theorem foregroundStep_uartInit (h : s.uart.fg = .uartInit) : foregroundStep s = uartInitBody s := by
  simp [foregroundStep, fgStepGuard, fgMicroStep, h]

theorem raiseReset_badCapacity (arst : Bool) (h : s.async.ring.cap < 2 ∨ s.async.ring.cap % 2 = 1) :
    raiseReset arst s = .refused .badCapacity := by
  simp [raiseReset, firstRefusal_cons, asyncCapOk_eq_false_iff.2 h]

/-- The reset event UART_INIT is no exception: it checks the capacities itself. -/
theorem foregroundStep_badCapacity (hidle : s.uart.fg ≠ .idle) (h : s.uart.txq.cap < 2 ∨ s.uart.rxq.cap < 2) :
    foregroundStep s = .refused .badCapacity := by
  by_cases hinit : s.uart.fg = .uartInit
  · rw [foregroundStep_uartInit hinit, uartInitBody_badCapacity h]
  · rw [foregroundStep_eq_guarded hidle hinit, guarded_refused (uartGuard_badCapacity h)]

theorem execInit_badCapacity (h : s.sync.ring.cap < 2) : execInit s = .refused .badCapacity := by
  simp [execInit, firstRefusal_cons, capOk_eq_false_iff.2 h]

end

/-- Settles O56: the guard of each block gives the reason, and every operation of the block, whole or a micro-step,
begins with that guard; the reset events check the capacities themselves. -/
theorem corruptStatesAreRefused : Obligations.CorruptStatesAreRefused := by
  unfold Obligations.CorruptStatesAreRefused
  intro s d
  refine ⟨fun hcap => ?_, fun hcap hup hindex => ?_, fun hcap => ?_, fun hcap heven hup hindex => ?_,
    fun hcap heven hup hhead htail hcode => ?_, fun hcap => ?_, fun htx hrx hirq hindex => ?_⟩
  · exact List.forall_mem_cons.2
      ⟨execInit_badCapacity hcap, exec_refused_of_syncGuard (syncGuard_badCapacity hcap)⟩
  · exact exec_refused_of_syncGuard (syncGuard_corruptIndex hcap hup hindex)
  · exact ⟨List.forall_mem_cons.2
      ⟨raiseReset_badCapacity false hcap, exec_refused_of_asyncGuard (asyncGuard_badCapacity hcap)⟩,
      raiseReset_badCapacity true hcap⟩
  · exact exec_refused_of_asyncGuard (asyncGuard_corruptIndex hcap heven hup hindex)
  · exact exec_refused_of_asyncGuard
      (asyncGuard_corruptCode hcap heven hup hhead htail (codesOk_eq_false_iff.2 hcode))
  · have hguard := uartGuard_badCapacity hcap
    have hinit (hidle : s.uart.fg = .idle) : exec .uartInit s = .refused .badCapacity :=
      (guarded_fgGuard hidle _).trans (uartInitBody_badCapacity hcap)
    exact ⟨exec_refused_of_uartGuard hguard,
      fun hidle => List.forall_mem_cons.2 ⟨hinit hidle, exec_fg_refused_of_uartGuard hidle hguard⟩,
      fun hbusy => foregroundStep_badCapacity hbusy hcap⟩
  · have hguard := uartGuard_corruptIndex htx hrx hirq hindex
    exact ⟨exec_refused_of_uartGuard hguard, fun hidle => exec_fg_refused_of_uartGuard hidle hguard,
      fun hbusy hinit => (foregroundStep_eq_guarded hbusy hinit).trans (guarded_refused hguard _)⟩

end Sys2Proof.Machine

namespace Sys2Proof.Machine

/-! ### What the invariants exclude: the refusals of a corrupted register and of an illegal capacity (R62, R105) -/

/-- The refusals of a corrupted register or an illegal capacity. -/
def corruptionRefusals : List Refusal := [.corruptIndex, .corruptCode, .badCapacity]

/-- The check passes, or it fails for a reason other than corruption. -/
def Sound (why : Option Refusal) : Prop := ∀ e ∈ why, e ∉ corruptionRefusals

/-- The meaning is not refused for corruption. -/
def FindsNoCorruption (r : Result) : Prop := ∀ e ∈ corruptionRefusals, r ≠ .refused e

section

variable {s t : State} {e : Refusal} {why : Option Refusal} {go : Result}

theorem sound_none : Sound none := nofun

theorem sound_some : Sound (some e) ↔ e ∉ corruptionRefusals := by simp [Sound]

theorem findsNoCorruption_next : FindsNoCorruption (.next t) := nofun

theorem findsNoCorruption_refused : FindsNoCorruption (.refused e) ↔ e ∉ corruptionRefusals := by
  simp only [FindsNoCorruption, ne_eq, Host.Outcome.refused.injEq]
  exact ⟨fun h he => h e he rfl, fun h e' he' heq => h (heq ▸ he')⟩

theorem FindsNoCorruption.guarded (hgo : FindsNoCorruption go) (hwhy : Sound why) :
    FindsNoCorruption (guarded why go) := by
  cases why with
  | none => exact hgo
  | some e => exact findsNoCorruption_refused.2 (sound_some.1 hwhy)

theorem FindsNoCorruption.andThen {r : Result} {go : State → Result} (h : FindsNoCorruption r)
    (hgo : ∀ u, FindsNoCorruption (go u)) : FindsNoCorruption (andThen r go) := by
  cases r with
  | next u => exact hgo u
  | fault f => nofun
  | refused e => exact h

/-! ### The guards under the invariants -/

theorem syncGuard_sound (h : s.SyncInv) : Sound (syncGuard s) := by
  obtain ⟨hcap, -, hinv⟩ := h
  cases hup : s.sync.up with
  | true =>
    have hready : SyncReady s := ⟨hcap, hup, (inRange_iff _).1 (hinv hup).inRange⟩
    rw [(syncGuard_iff s).2 hready]
    exact sound_none
  | false =>
    have hguard : syncGuard s = some .notReset := by simp [syncGuard, firstRefusal_cons, capOk_iff.2 hcap, hup]
    rw [hguard]
    exact sound_some.2 (by decide)

/-- The registers of the crossings are the codes of residues (R197), so each is a code word. -/
theorem AsyncFifo.Cdc.ready (h : s.async.Cdc) (hcap : 2 ≤ s.async.ring.cap) (heven : s.async.ring.cap % 2 = 0)
    (hup : s.async.up = true) : AsyncReady s := by
  obtain ⟨hs2, hs1, ts2, ts1, -, -, -, -, -, -, hhead, htail, hheadGray, htailGray, hhs2, hhs1, hts2, hts1, hheadPrev,
    htailPrev, -, -⟩ := h
  have residue (n : Nat) : n % s.async.ring.cap < s.async.ring.cap := Nat.mod_lt _ (by omega)
  have hheadLt : s.async.ring.head < s.async.ring.cap := hhead ▸ residue _
  have htailLt : s.async.ring.tail < s.async.ring.cap := htail ▸ residue _
  refine ⟨hcap, heven, hup, hheadLt, htailLt, ?_⟩
  simp only [List.forall_mem_cons, List.not_mem_nil, false_imp_iff, implies_true, and_true]
  exact ⟨⟨_, htailLt, htailGray⟩, ⟨_, residue hs1, hhs1⟩, ⟨_, residue hs2, hhs2⟩, ⟨_, hheadLt, hheadGray⟩,
    ⟨_, residue ts1, hts1⟩, ⟨_, residue ts2, hts2⟩, htailPrev, hheadPrev⟩

theorem asyncGuard_sound (h : s.AsyncInv) : Sound (asyncGuard s) := by
  obtain ⟨hcap, heven, -, hinv⟩ := h
  cases hup : s.async.up with
  | true =>
    rw [(asyncGuard_iff s).2 ((hinv hup).1.ready hcap heven hup)]
    exact sound_none
  | false =>
    have hguard : asyncGuard s = some .notReset := by
      simp [asyncGuard, firstRefusal_cons, asyncCapOk_iff.2 ⟨hcap, heven⟩, hup]
    rw [hguard]
    exact sound_some.2 (by decide)

theorem Transport.Inv.ready (h : s.uart.Inv) (hirq : s.uart.irqEnabled = true) : UartReady s := by
  obtain ⟨htx, hrx, -, -⟩ := h
  obtain ⟨htxHead, htxTail⟩ := (inRange_iff _).1 htx.inRange
  exact ⟨htx.two_le_cap, hrx.two_le_cap, hirq, htxHead, htxTail, (inRange_iff _).1 hrx.inRange⟩

theorem uartGuard_sound (h : s.UartInv) : Sound (uartGuard s) := by
  obtain ⟨htx, hrx, -, -, hinv⟩ := h
  cases hirq : s.uart.irqEnabled with
  | true =>
    rw [(uartGuard_iff s).2 ((hinv hirq).1.ready hirq)]
    exact sound_none
  | false =>
    have hguard : uartGuard s = some .notReset := by
      simp [uartGuard, firstRefusal_cons, capOk_iff.2 htx, capOk_iff.2 hrx, hirq]
    rw [hguard]
    exact sound_some.2 (by decide)

/-- A list of checks is sound when each of them either passes or has a reason other than corruption. -/
theorem firstRefusal_sound {l : List (Bool × Refusal)} (h : ∀ c ∈ l, c.1 = true → c.2 ∉ corruptionRefusals) :
    Sound (firstRefusal l) := by
  induction l with
  | nil => exact sound_none
  | cons c l ih =>
    obtain ⟨hc, hl⟩ := List.forall_mem_cons.1 h
    rw [firstRefusal_cons]
    split
    · next hfails => exact sound_some.2 (hc hfails)
    · exact ih hl

theorem fgGuard_sound (s : State) : Sound (fgGuard s) := firstRefusal_sound (by simp [corruptionRefusals])

theorem uartInitGuard_sound (h : s.UartInv) : Sound (uartInitGuard s) := by
  obtain ⟨htx, hrx, -⟩ := h
  exact firstRefusal_sound (by simp [capOk_iff.2 htx, capOk_iff.2 hrx, corruptionRefusals])

/-! ### The operations under the invariants -/

theorem writeOutputRegister_findsNoCorruption (b : Byte) (s : State) :
    FindsNoCorruption (writeOutputRegister b s) := by
  unfold writeOutputRegister
  split
  · exact findsNoCorruption_refused.2 (by decide)
  · exact findsNoCorruption_next

theorem primeBody_findsNoCorruption (s : State) : FindsNoCorruption (primeBody s) := by
  unfold primeBody
  split
  · exact findsNoCorruption_next
  · split
    · exact findsNoCorruption_next
    · exact (writeOutputRegister_findsNoCorruption _ _).andThen fun _ => findsNoCorruption_next

theorem uartInitBody_findsNoCorruption (h : s.UartInv) : FindsNoCorruption (uartInitBody s) :=
  findsNoCorruption_next.guarded (uartInitGuard_sound h)

theorem unlessHeld_findsNoCorruption (request : Bool) (held edge : State → State) (s : State) :
    FindsNoCorruption (unlessHeld request held edge s) := by
  unfold unlessHeld
  split
  · split
    · exact findsNoCorruption_refused.2 (by decide)
    · exact findsNoCorruption_next
  · exact findsNoCorruption_next

theorem raiseReset_findsNoCorruption (h : s.AsyncInv) (arst : Bool) : FindsNoCorruption (raiseReset arst s) := by
  obtain ⟨hcap, heven, -⟩ := h
  exact findsNoCorruption_next.guarded (firstRefusal_sound (by simp [asyncCapOk_iff.2 ⟨hcap, heven⟩]))

theorem execInit_findsNoCorruption (h : s.SyncInv) : FindsNoCorruption (execInit s) := by
  obtain ⟨hcap, -⟩ := h
  exact findsNoCorruption_next.guarded (firstRefusal_sound (by simp [capOk_iff.2 hcap]))

theorem statusGuard_sound (hsync : s.SyncInv) (hasync : s.AsyncInv) (p : StatusPort) : Sound (statusGuard p s) := by
  cases p with
  | sync => exact syncGuard_sound hsync
  | asyncWrite => exact asyncGuard_sound hasync
  | asyncRead => exact asyncGuard_sound hasync

/-- An operation of FG makes the checks of FG's thread and those of the transport controller. -/
theorem FindsNoCorruption.guarded_fg (hgo : FindsNoCorruption go) (h : s.UartInv) :
    FindsNoCorruption (Machine.guarded (fgGuard s) (Machine.guarded (uartGuard s) go)) :=
  (hgo.guarded (uartGuard_sound h)).guarded (fgGuard_sound s)

theorem execSend_findsNoCorruption (h : s.UartInv) (d : Byte) : FindsNoCorruption (execSend d s) := by
  refine FindsNoCorruption.guarded_fg ?_ h
  split
  · exact findsNoCorruption_next
  · exact primeBody_findsNoCorruption _

theorem execReceive_findsNoCorruption (h : s.UartInv) : FindsNoCorruption (execReceive s) := by
  refine FindsNoCorruption.guarded_fg ?_ h
  split <;> exact findsNoCorruption_next

theorem takeInterrupt_findsNoCorruption {body : State → Result} (h : s.UartInv) (pending : Bool)
    (hbody : FindsNoCorruption (body s)) : FindsNoCorruption (takeInterrupt pending body s) := by
  refine FindsNoCorruption.guarded ?_ (uartGuard_sound h)
  split
  · exact hbody
  · exact findsNoCorruption_refused.2 (by decide)

theorem txHandler_findsNoCorruption (s : State) : FindsNoCorruption (txHandler s) := by
  unfold txHandler
  split
  · exact writeOutputRegister_findsNoCorruption _ _
  · exact findsNoCorruption_next

theorem rxHandler_findsNoCorruption (s : State) : FindsNoCorruption (rxHandler s) := by
  unfold rxHandler readInputRegister
  split
  · dsimp only
    split <;> exact findsNoCorruption_next
  · exact findsNoCorruption_refused.2 (by decide)

theorem execHwTxDone_findsNoCorruption (s : State) : FindsNoCorruption (execHwTxDone s) := by
  unfold execHwTxDone
  split
  · exact findsNoCorruption_refused.2 (by decide)
  · exact findsNoCorruption_next

theorem overrun_findsNoCorruption (b : Byte) (s : State) : FindsNoCorruption (overrun b s) := by
  unfold overrun
  split
  · exact findsNoCorruption_refused.2 (by decide)
  · exact findsNoCorruption_next
  · exact findsNoCorruption_next
  · exact findsNoCorruption_next

theorem execHwRxByte_findsNoCorruption (b : Byte) (s : State) : FindsNoCorruption (execHwRxByte b s) := by
  refine FindsNoCorruption.guarded ?_ (firstRefusal_sound (by simp [corruptionRefusals]))
  split
  · exact overrun_findsNoCorruption b s
  · exact findsNoCorruption_next

theorem execClk_findsNoCorruption (s : State) : FindsNoCorruption (execClk s) := by
  unfold execClk
  split
  · exact findsNoCorruption_refused.2 (by decide)
  · exact findsNoCorruption_next

theorem exec_findsNoCorruption (hsync : s.SyncInv) (hasync : s.AsyncInv) (huart : s.UartInv) (i : Instr) :
    FindsNoCorruption (exec i s) := by
  cases i with
  | nop => exact findsNoCorruption_next.guarded (syncGuard_sound hsync)
  | enq d => exact findsNoCorruption_next.guarded (syncGuard_sound hsync)
  | deq => exact findsNoCorruption_next.guarded (syncGuard_sound hsync)
  | enqdeq d => exact findsNoCorruption_next.guarded (syncGuard_sound hsync)
  | init => exact execInit_findsNoCorruption hsync
  | wNop => exact (unlessHeld_findsNoCorruption _ _ _ s).guarded (asyncGuard_sound hasync)
  | wEnq d => exact (unlessHeld_findsNoCorruption _ _ _ s).guarded (asyncGuard_sound hasync)
  | rNop => exact (unlessHeld_findsNoCorruption _ _ _ s).guarded (asyncGuard_sound hasync)
  | rDeq => exact (unlessHeld_findsNoCorruption _ _ _ s).guarded (asyncGuard_sound hasync)
  | aRun => exact findsNoCorruption_next.guarded (asyncGuard_sound hasync)
  | aInit => exact raiseReset_findsNoCorruption hasync false
  | isEmpty p => exact findsNoCorruption_next.guarded (statusGuard_sound hsync hasync p)
  | isFull p => exact findsNoCorruption_next.guarded (statusGuard_sound hsync hasync p)
  | tNop => exact findsNoCorruption_next.guarded_fg huart
  | send d => exact execSend_findsNoCorruption huart d
  | receive => exact execReceive_findsNoCorruption huart
  | uartInit => exact (uartInitBody_findsNoCorruption huart).guarded (fgGuard_sound s)
  | prime => exact (primeBody_findsNoCorruption s).guarded_fg huart
  | tReserved5 => exact findsNoCorruption_refused.2 (by decide)
  | tReserved6 => exact findsNoCorruption_refused.2 (by decide)
  | tReserved7 => exact findsNoCorruption_refused.2 (by decide)
  | txIrq => exact takeInterrupt_findsNoCorruption huart _ (txHandler_findsNoCorruption s)
  | rxIrq => exact takeInterrupt_findsNoCorruption huart _ (rxHandler_findsNoCorruption s)
  | hwTxDone => exact execHwTxDone_findsNoCorruption s
  | hwRxByte b => exact execHwRxByte_findsNoCorruption b s
  | clk => exact execClk_findsNoCorruption s

theorem startForeground_findsNoCorruption (i : Instr) (s : State) : FindsNoCorruption (startForeground i s) := by
  refine FindsNoCorruption.guarded ?_ (fgGuard_sound s)
  split
  · exact findsNoCorruption_next
  · exact findsNoCorruption_refused.2 (by decide)

/-- UART_INIT, FG at rest, and the write to the output register may be refused; every other micro-step answers. -/
theorem fgMicroStep_findsNoCorruption (h : s.UartInv) : FindsNoCorruption (fgMicroStep s) := by
  unfold fgMicroStep
  cases s.uart.fg with
  | idle => exact findsNoCorruption_refused.2 (by decide)
  | uartInit => exact uartInitBody_findsNoCorruption h
  | primeP7 b => exact (writeOutputRegister_findsNoCorruption _ _).andThen fun _ => findsNoCorruption_next
  | _ => exact findsNoCorruption_next

theorem fgStepGuard_sound (h : s.UartInv) : Sound (fgStepGuard s) := by
  unfold fgStepGuard
  split
  · exact sound_none
  · exact sound_none
  · exact uartGuard_sound h

theorem runEvent_findsNoCorruption (hsync : s.SyncInv) (hasync : s.AsyncInv) (huart : s.UartInv) (e : Event) :
    FindsNoCorruption (runEvent e s) := by
  cases e with
  | word p w =>
    simp only [runEvent]
    split
    · exact exec_findsNoCorruption hsync hasync huart _
    · exact findsNoCorruption_next
    · exact findsNoCorruption_refused.2 (by decide)
  | startFg w =>
    simp only [runEvent]
    split
    · exact startForeground_findsNoCorruption _ s
    · exact findsNoCorruption_next
    · exact findsNoCorruption_refused.2 (by decide)
  | fgStep => exact (fgMicroStep_findsNoCorruption huart).guarded (fgStepGuard_sound huart)
  | holdReset => exact raiseReset_findsNoCorruption hasync true

theorem step_findsNoCorruption (hsync : s.SyncInv) (hasync : s.AsyncInv) (huart : s.UartInv) :
    FindsNoCorruption (step s) := by
  unfold step fetch
  cases s.pending with
  | nil => nofun
  | cons e rest => exact runEvent_findsNoCorruption (s := { s with pending := rest }) hsync hasync huart e

end

/-- Settles O55: the invariants make every guard pass or answer that the block has not been reset, and no other
check of an event has corruption as its reason. -/
theorem corruptRegistersAreUnreachable : Obligations.CorruptRegistersAreUnreachable := by
  unfold Obligations.CorruptRegistersAreUnreachable
  intro s hsync hasync huart
  have h := step_findsNoCorruption hsync hasync huart
  exact ⟨h _ (by decide), h _ (by decide), h _ (by decide)⟩

end Sys2Proof.Machine

namespace Sys2Proof.Machine

/-! ### The fields of a word, by match and mask (R15, R102) -/

theorem bits_and (v m hi lo : Nat) : bits (v &&& m) hi lo = bits v hi lo &&& bits m hi lo := by
  simp only [bits, Nat.shiftRight_and_distrib, Nat.and_mod_two_pow]

/-- A field that the mask covers can be read from the masked word. -/
theorem bits_eq_of_mask {w m c : Nat} (hi lo : Nat) (h : w &&& m = c)
    (hm : bits m hi lo = 2 ^ (hi - lo + 1) - 1) : bits w hi lo = bits c hi lo := by
  rw [← h, bits_and, hm, Nat.and_two_pow_sub_one_eq_mod, bits, Nat.mod_mod]

theorem dataField_eq_ofNat (w : Nat) : dataField w = BitVec.ofNat 8 w := by
  apply BitVec.eq_of_toNat_eq
  simp [dataField, bits]

theorem codeWord_eq_or (code : Nat) (d : Byte) : codeWord code d = code <<< 8 ||| d.toNat := by
  rw [codeWord, ← Nat.shiftLeft_eq, Nat.shiftLeft_add_eq_or_of_lt d.isLt]

/-- A mask above the byte sees the code alone. -/
theorem codeWord_and_shiftLeft (code m : Nat) (d : Byte) : codeWord code d &&& m <<< 8 = (code &&& m) <<< 8 := by
  have hbyte : d.toNat &&& m <<< 8 = 0 := by
    apply Nat.eq_of_testBit_eq
    intro i
    rcases Nat.lt_or_ge i 8 with hi | hi
    · simp [Nat.testBit_shiftLeft, hi]
    · simp [Nat.testBit_lt_two_pow (lt_of_lt_of_le d.isLt (Nat.pow_le_pow_right (by decide) hi))]
  rw [codeWord_eq_or, Nat.and_or_distrib_right, hbyte, Nat.or_zero, Nat.shiftLeft_and_distrib]

theorem ofNat_codeWord (code : Nat) (d : Byte) : BitVec.ofNat 8 (codeWord code d) = d := by
  apply BitVec.eq_of_toNat_eq
  simp [codeWord, Nat.mod_eq_of_lt d.isLt]

/-! ### The tables of formats X, W and T, row by row (R92, R94, R100) -/

section

variable {w : Nat}

theorem decode_x (hw : w < 2048) : decode .x w = .command (decodeX w) := if_pos (decide_eq_true hw)

theorem decode_w (hw : w < 512) : decode .w w = .command (decodeW w) := if_pos (decide_eq_true hw)

theorem decode_t (hw : w < 2048) : decode .t w = .command (decodeT w) := if_pos (decide_eq_true hw)

theorem decode_x_nop (hw : w < 2048) (h : w &&& 0x700 = 0x000) : decode .x w = .command .nop := by
  rw [decode_x hw, decodeX, bits_eq_of_mask 10 10 h rfl, bits_eq_of_mask 9 9 h rfl, bits_eq_of_mask 8 8 h rfl]
  rfl

theorem decode_x_enq (hw : w < 2048) (h : w &&& 0x700 = 0x100) :
    decode .x w = .command (.enq (BitVec.ofNat 8 w)) := by
  rw [decode_x hw, decodeX, bits_eq_of_mask 10 10 h rfl, bits_eq_of_mask 9 9 h rfl, bits_eq_of_mask 8 8 h rfl,
    dataField_eq_ofNat]
  rfl

theorem decode_x_deq (hw : w < 2048) (h : w &&& 0x700 = 0x200) : decode .x w = .command .deq := by
  rw [decode_x hw, decodeX, bits_eq_of_mask 10 10 h rfl, bits_eq_of_mask 9 9 h rfl, bits_eq_of_mask 8 8 h rfl]
  rfl

theorem decode_x_enqdeq (hw : w < 2048) (h : w &&& 0x700 = 0x300) :
    decode .x w = .command (.enqdeq (BitVec.ofNat 8 w)) := by
  rw [decode_x hw, decodeX, bits_eq_of_mask 10 10 h rfl, bits_eq_of_mask 9 9 h rfl, bits_eq_of_mask 8 8 h rfl,
    dataField_eq_ofNat]
  rfl

/-- `init` overrides `deq` and `enq`: the mask shows the top bit alone. -/
theorem decode_x_init (hw : w < 2048) (h : w &&& 0x400 = 0x400) : decode .x w = .command .init := by
  rw [decode_x hw, decodeX, bits_eq_of_mask 10 10 h rfl]
  rfl

theorem decode_w_nop (hw : w < 512) (h : w &&& 0x100 = 0x000) : decode .w w = .command .wNop := by
  rw [decode_w hw, decodeW, bits_eq_of_mask 8 8 h rfl]
  rfl

theorem decode_w_enq (hw : w < 512) (h : w &&& 0x100 = 0x100) :
    decode .w w = .command (.wEnq (BitVec.ofNat 8 w)) := by
  rw [decode_w hw, decodeW, bits_eq_of_mask 8 8 h rfl, dataField_eq_ofNat]
  rfl

theorem decode_t_nop (hw : w < 2048) (h : w &&& 0x700 = 0x000) : decode .t w = .command .tNop := by
  rw [decode_t hw, decodeT, bits_eq_of_mask 10 8 h rfl]
  rfl

theorem decode_t_send (hw : w < 2048) (h : w &&& 0x700 = 0x100) :
    decode .t w = .command (.send (BitVec.ofNat 8 w)) := by
  rw [decode_t hw, decodeT, bits_eq_of_mask 10 8 h rfl, dataField_eq_ofNat]
  rfl

theorem decode_t_receive (hw : w < 2048) (h : w &&& 0x700 = 0x200) : decode .t w = .command .receive := by
  rw [decode_t hw, decodeT, bits_eq_of_mask 10 8 h rfl]
  rfl

theorem decode_t_uartInit (hw : w < 2048) (h : w &&& 0x700 = 0x300) : decode .t w = .command .uartInit := by
  rw [decode_t hw, decodeT, bits_eq_of_mask 10 8 h rfl]
  rfl

theorem decode_t_prime (hw : w < 2048) (h : w &&& 0x700 = 0x400) : decode .t w = .command .prime := by
  rw [decode_t hw, decodeT, bits_eq_of_mask 10 8 h rfl]
  rfl

theorem decode_t_reserved5 (hw : w < 2048) (h : w &&& 0x700 = 0x500) : decode .t w = .command .tReserved5 := by
  rw [decode_t hw, decodeT, bits_eq_of_mask 10 8 h rfl]
  rfl

theorem decode_t_reserved6 (hw : w < 2048) (h : w &&& 0x700 = 0x600) : decode .t w = .command .tReserved6 := by
  rw [decode_t hw, decodeT, bits_eq_of_mask 10 8 h rfl]
  rfl

theorem decode_t_reserved7 (hw : w < 2048) (h : w &&& 0x700 = 0x700) : decode .t w = .command .tReserved7 := by
  rw [decode_t hw, decodeT, bits_eq_of_mask 10 8 h rfl]
  rfl

end

/-! ### Encoding and decoding agree -/

/-- The word of an arrival is the byte itself (R244). -/
theorem decode_hwRxByte (b : Byte) : decode .hwRxByte b.toNat = .command (.hwRxByte b) := by
  have hfits : Port.hwRxByte.fits b.toNat = true := Laws.EncodedWordFits.hwRxByte b
  rw [decode, if_pos hfits, dataField_eq_ofNat, BitVec.ofNat_toNat, BitVec.setWidth_eq]

/-- Settles O1, by cases on the command: a fixed word decodes by computation, a word with a byte by the row of its
code, whose mask does not see the byte. -/
theorem decodeEncodeAgree : Obligations.DecodeEncodeAgree := by
  unfold Obligations.DecodeEncodeAgree
  intro i hi
  cases i with
  | enq d =>
    simpa only [encode, ofNat_codeWord] using
      decode_x_enq (of_decide_eq_true (Laws.EncodedWordFits.enq d)) (codeWord_and_shiftLeft 1 7 d)
  | enqdeq d =>
    simpa only [encode, ofNat_codeWord] using
      decode_x_enqdeq (of_decide_eq_true (Laws.EncodedWordFits.enqdeq d)) (codeWord_and_shiftLeft 3 7 d)
  | wEnq d =>
    simpa only [encode, ofNat_codeWord] using
      decode_w_enq (of_decide_eq_true (Laws.EncodedWordFits.wEnq d)) (codeWord_and_shiftLeft 1 1 d)
  | send d =>
    simpa only [encode, ofNat_codeWord] using
      decode_t_send (of_decide_eq_true (Laws.EncodedWordFits.send d)) (codeWord_and_shiftLeft 1 7 d)
  | hwRxByte b => exact decode_hwRxByte b
  | tReserved5 => cases hi
  | tReserved6 => cases hi
  | tReserved7 => cases hi
  | nop | deq | init | wNop | rNop | rDeq | aRun | aInit | isEmpty | isFull | tNop | receive | uartInit | prime
  | txIrq | rxIrq | hwTxDone | clk => rfl

/-- Settles O2: the rows of format X. -/
theorem formatXByMatchAndMask : Obligations.FormatXByMatchAndMask := by
  unfold Obligations.FormatXByMatchAndMask
  intro w hw
  exact ⟨decode_x_nop hw, decode_x_enq hw, decode_x_deq hw, decode_x_enqdeq hw, decode_x_init hw⟩

/-- Settles O3: the rows of formats W and T; the two words of formats R and A compute. -/
theorem formatsWRATByMatchAndMask : Obligations.FormatsWRATByMatchAndMask := by
  unfold Obligations.FormatsWRATByMatchAndMask
  refine ⟨fun w hw => ⟨decode_w_nop hw, decode_w_enq hw⟩, ⟨rfl, rfl, rfl, rfl⟩, fun w hw => ?_⟩
  exact ⟨decode_t_nop hw, decode_t_send hw, decode_t_receive hw, decode_t_uartInit hw, decode_t_prime hw,
    decode_t_reserved5 hw, decode_t_reserved6 hw, decode_t_reserved7 hw⟩

/-- A word of format E with one line at 1 names its handler run whichever order the port carries, and a word with no
line at 1 names none (R101). -/
theorem decode_e_singleLine (first : IrqSource) :
    decode (.e first) 0b01 = .command .txIrq ∧ decode (.e first) 0b10 = .command .rxIrq ∧
      decode (.e first) 0b00 = .noRun := by
  cases first with
  | tx => exact ⟨rfl, rfl, rfl⟩
  | rx => exact ⟨rfl, rfl, rfl⟩

/-- Settles O4: the words compute, but for the order that the port of format E carries. -/
theorem spelledOutWordsDecode : Obligations.SpelledOutWordsDecode := by
  unfold Obligations.SpelledOutWordsDecode
  exact ⟨rfl, rfl, rfl, rfl, rfl, rfl, rfl, decode_e_singleLine, rfl, rfl⟩

/-! ### The reserved values of `top` (R106) -/

/-- Settles O33: the meaning of a reserved value does not look at the state. -/
theorem reservedTopIsRefused : Obligations.ReservedTopIsRefused := by
  unfold Obligations.ReservedTopIsRefused
  exact fun _ => ⟨rfl, rfl, rfl⟩

/-! ### A placed table word is run by the next step (R107, log 8) -/

/-- What a bare table word that decodes is: a command on the port that it is taken to stand on. -/
theorem decodeTableWord_eq_some_iff (nbits w : Nat) (i : Instr) :
    decodeTableWord nbits w = some i ↔ ∃ p, tablePort nbits w = some p ∧ decode p w = .command i := by
  unfold decodeTableWord
  cases htable : tablePort nbits w with
  | none => simp
  | some p => cases hd : decode p w <;> simp [hd]

theorem decodeE_command {first : IrqSource} {w : Nat} {i : Instr} (h : decodeE first w = .command i) :
    i = .txIrq ∨ i = .rxIrq := by
  unfold decodeE at h
  split at h <;> simp_all

/-- Format E, and no other, names the handler runs (R101). -/
theorem isHandlerRun_iff_format_e {p : Port} {w : Nat} {i : Instr} (h : decode p w = .command i) :
    i = .txIrq ∨ i = .rxIrq ↔ ∃ first, p = .e first := by
  unfold decode at h
  split at h
  case isFalse => cases h
  cases p with
  | e first => simpa using decodeE_command h
  | x => cases h; unfold decodeX; split <;> simp
  | w => cases h; unfold decodeW; split <;> simp
  | r => cases h; unfold decodeR; split <;> simp
  | a => cases h; unfold decodeA; split <;> simp
  | t => cases h; unfold decodeT; split <;> simp
  | sEmpty | sFull | hwTxDone | hwRxByte | clk => cases h; simp

theorem step_placeWord_e (s : State) (first : IrqSource) (w : Nat) :
    step (placeWord s (.e first) w) = runEvent (.word (.e first) w) { s with uart := driveRequests w s.uart } := rfl

theorem step_placeWord {p : Port} (hp : ∀ first, p ≠ .e first) (s : State) (w : Nat) :
    step (placeWord s p w) = runEvent (.word p w) s := by
  cases p with
  | e first => exact absurd rfl (hp first)
  | x | w | r | a | sEmpty | sFull | t | hwTxDone | hwRxByte | clk => rfl

/-- Settles O6: the port decides whether the word also drives the request lines, and format E is the port of the
handler runs. -/
theorem placedWordRunsNext : Obligations.PlacedWordRunsNext := by
  unfold Obligations.PlacedWordRunsNext
  intro s nbits w i hi
  obtain ⟨p, htable, hd⟩ := (decodeTableWord_eq_some_iff nbits w i).1 hi
  have hplaced : s.withFetchWord nbits w = placeWord s p w := by simp [State.withFetchWord, placeTableWord, htable]
  have hrun (t : State) : runEvent (.word p w) t = exec i t :=
    runEvent_command ((command_eq_some_iff _ i).2 ⟨p, w, rfl, hd⟩) t
  have hport := isHandlerRun_iff_format_e hd
  rw [hplaced]
  constructor
  · intro htx hrx
    have hp : ∀ first, p ≠ .e first := fun first hp => (hport.2 ⟨first, hp⟩).elim htx hrx
    rw [step_placeWord hp, hrun]
  · intro hirq
    obtain ⟨first, rfl⟩ := hport.1 hirq
    rw [step_placeWord_e, hrun]

end Sys2Proof.Machine

namespace Sys2Proof.Machine

/-! ### The reflected binary code (R103, R105) -/

theorem reflected_xor (a b : Nat) : reflected (a ^^^ b) = reflected a ^^^ reflected b := by
  simp only [reflected, Nat.shiftRight_xor_distrib]
  ac_rfl

theorem reflected_lt {k m : Nat} (h : k < 2 ^ m) : reflected k < 2 ^ m :=
  Nat.xor_lt_two_pow h (lt_of_le_of_lt (Nat.shiftRight_le k 1) h)

/-- The word of `j + 1` ones has the code with the one bit `j`. -/
theorem reflected_two_pow_sub_one (j : Nat) : reflected (2 ^ (j + 1) - 1) = 2 ^ j := by
  apply Nat.eq_of_testBit_eq
  intro i
  simp only [reflected, Nat.testBit_xor, Nat.testBit_shiftRight, Nat.testBit_two_pow_sub_one, Nat.testBit_two_pow]
  grind

/-- The exclusive-or of the shifts telescopes (R105). -/
theorem unreflected_reflected (k m : Nat) : unreflected m (reflected k) = k ^^^ k >>> m := by
  induction m with
  | zero => simp [unreflected]
  | succ m ih =>
    have hshift : reflected k >>> m = k >>> m ^^^ k >>> (m + 1) := by
      rw [reflected, Nat.shiftRight_xor_distrib, ← Nat.shiftRight_add, Nat.add_comm 1 m]
    rw [unreflected, ih, hshift, Nat.xor_assoc, Nat.xor_xor_cancel_left]

/-- An increment flips the trailing ones and the zero above them. -/
theorem exists_xor_succ (k : Nat) : ∃ j, k ^^^ (k + 1) = 2 ^ (j + 1) - 1 := by
  induction k using Nat.binaryRec with
  | zero => exact ⟨0, rfl⟩
  | bit b k ih =>
    cases b with
    | false =>
      have hsucc : Nat.bit false k + 1 = Nat.bit true k := by simp [Nat.bit_val]
      exact ⟨0, by rw [hsucc, Nat.xor_bit, Nat.xor_self]; rfl⟩
    | true =>
      obtain ⟨j, hj⟩ := ih
      have hsucc : Nat.bit true k + 1 = Nat.bit false (k + 1) := by
        simp only [Nat.bit_val, Bool.toNat_true, Bool.toNat_false]
        omega
      have hones := Nat.one_le_two_pow (n := j + 1)
      refine ⟨j + 1, ?_⟩
      rw [hsucc, Nat.xor_bit, hj, Nat.bit_val, Nat.pow_succ 2 (j + 1)]
      change 2 * (2 ^ (j + 1) - 1) + 1 = _
      omega

/-- Consecutive numbers have codes that differ in one bit. -/
theorem exists_reflected_xor_succ (k : Nat) : ∃ j, reflected k ^^^ reflected (k + 1) = 2 ^ j := by
  obtain ⟨j, hj⟩ := exists_xor_succ k
  exact ⟨j, by rw [← reflected_xor, hj, reflected_two_pow_sub_one]⟩

/-- A number and its complement in `m` bits. -/
theorem xor_complement {x m : Nat} (h : x < 2 ^ m) : (2 ^ m - (x + 1)) ^^^ x = 2 ^ m - 1 := by
  apply Nat.eq_of_testBit_eq
  intro i
  rw [Nat.testBit_xor, Nat.testBit_two_pow_sub_succ h, Nat.testBit_two_pow_sub_one]
  rcases Nat.lt_or_ge i m with hi | hi
  · simp [hi]
  · simp [Nat.not_lt.2 hi, Nat.testBit_lt_two_pow (h.trans_le (Nat.pow_le_pow_right two_pos hi))]

/-! ### The index code of an even capacity (R8, R103, R105) -/

/-- The offset leaves as many words of `W` bits below the codes' numbers as above them. -/
theorem two_pow_indexWidth {n : Nat} (hn : n % 2 = 0) : 2 ^ indexWidth n = n + 2 * grayOffset n := by
  have hle : n ≤ 2 ^ indexWidth n := by
    have := Nat.lt_log2_self (n := n - 1)
    unfold indexWidth
    omega
  have heven : 2 ^ indexWidth n % 2 = 0 := by simp [indexWidth, Nat.pow_succ]
  unfold grayOffset
  omega

section

variable {n i : Nat} (hn : n % 2 = 0) (hi : i < n)

include hn hi

theorem add_grayOffset_lt : i + grayOffset n < 2 ^ indexWidth n := by
  have := two_pow_indexWidth hn
  omega

theorem gray_lt : gray n i < 2 ^ indexWidth n := reflected_lt (add_grayOffset_lt hn hi)

theorem ungray_gray : ungray n (gray n i) = i := by
  rw [ungray, gray, unreflected_reflected, Nat.shiftRight_eq_zero _ _ (add_grayOffset_lt hn hi), Nat.xor_zero,
    Nat.add_sub_cancel]

theorem gray_injective {j : Nat} (hj : j < n) (h : gray n i = gray n j) : i = j := by
  rw [← ungray_gray hn hi, h, ungray_gray hn hj]

end

/-- Settles O20: the code is inverted by `ungray`, and so injective. -/
theorem grayIsInvertible : Obligations.GrayIsInvertible := by
  unfold Obligations.GrayIsInvertible
  exact fun n i _ hn hi => ⟨gray_lt hn hi, ungray_gray hn hi, fun j hj => gray_injective hn hi hj⟩

/-- The last index and index 0 stand at complementary numbers, so their codes differ in the top bit alone. -/
theorem gray_wrap {n : Nat} (hpos : 0 < n) (hn : n % 2 = 0) :
    gray n (n - 1) ^^^ gray n 0 = 2 ^ (indexWidth n - 1) := by
  have hlast : n - 1 + grayOffset n = 2 ^ indexWidth n - (grayOffset n + 1) := by
    have := two_pow_indexWidth hn
    omega
  have hfirst : grayOffset n < 2 ^ indexWidth n := by simpa using add_grayOffset_lt hn hpos
  rw [gray, gray, ← reflected_xor, hlast, Nat.zero_add, xor_complement hfirst]
  exact reflected_two_pow_sub_one _

/-- The codes of an index and of the next one, the wrap included, differ in one bit. -/
theorem exists_gray_xor_next {n i : Nat} (hn : n % 2 = 0) (hi : i < n) :
    ∃ k, gray n i ^^^ gray n ((i + 1) % n) = 2 ^ k := by
  rcases Nat.lt_or_ge (i + 1) n with hnext | hlast
  · rw [Nat.mod_eq_of_lt hnext, gray, gray, Nat.add_right_comm]
    exact exists_reflected_xor_succ _
  · obtain rfl : i = n - 1 := by omega
    rw [Nat.sub_add_cancel (by omega), Nat.mod_self]
    exact ⟨_, gray_wrap (by omega) hn⟩

/-- Settles O19: the bit stands below W since both codes do. -/
theorem grayStepFlipsOneBit : Obligations.GrayStepFlipsOneBit := by
  unfold Obligations.GrayStepFlipsOneBit
  intro n i hn2 hn hi
  have hpos : 0 < n := by omega
  constructor
  · obtain ⟨k, hk⟩ := exists_gray_xor_next hn hi
    have hlt := Nat.xor_lt_two_pow (gray_lt hn hi) (gray_lt hn (Nat.mod_lt (i + 1) hpos))
    rw [hk] at hlt
    exact ⟨k, (Nat.pow_lt_pow_iff_right (by decide)).1 hlt, hk⟩
  · rintro rfl
    rw [Nat.sub_add_cancel hpos, Nat.mod_self]
    exact gray_wrap hpos hn

end Sys2Proof.Machine

namespace Sys2Proof.Machine

/-! ### The queries (R97, R122, R123) -/

section

variable {s : State} {p : StatusPort}

theorem exec_isEmpty (h : statusGuard p s = none) :
    exec (.isEmpty p) s = .next { s with query := s.statusEmpty p } := by
  rw [exec, execIsEmpty, h, guarded_none, answerQuery]

theorem exec_isFull (h : statusGuard p s = none) :
    exec (.isFull p) s = .next { s with query := s.statusFull p } := by
  rw [exec, execIsFull, h, guarded_none, answerQuery]

end

/-- Settles O17: a ready block passes the query's guard, and the bit is the comparison R22, R184 or R185 gives. -/
theorem isEmptyAnswersTheEmptyBit : Obligations.IsEmptyAnswersTheEmptyBit := by
  unfold Obligations.IsEmptyAnswersTheEmptyBit
  refine fun s => ⟨fun hsync => ?_, fun hasync => ⟨?_, ?_⟩⟩
  · exact exec_isEmpty (p := .sync) ((syncGuard_iff s).2 hsync)
  · exact exec_isEmpty (p := .asyncWrite) ((asyncGuard_iff s).2 hasync)
  · exact exec_isEmpty (p := .asyncRead) ((asyncGuard_iff s).2 hasync)

/-- Settles O18: a ready block passes the query's guard, and the bit is the comparison R23, R184 or R185 gives. -/
theorem isFullAnswersTheFullBit : Obligations.IsFullAnswersTheFullBit := by
  unfold Obligations.IsFullAnswersTheFullBit
  refine fun s => ⟨fun hsync => ?_, fun hasync => ⟨?_, ?_⟩⟩
  · exact exec_isFull (p := .sync) ((syncGuard_iff s).2 hsync)
  · exact exec_isFull (p := .asyncWrite) ((asyncGuard_iff s).2 hasync)
  · exact exec_isFull (p := .asyncRead) ((asyncGuard_iff s).2 hasync)

/-! ### One edge of `sync_fifo` (R150 to R155) -/

section

variable (enq deq : Bool) (d : Byte) (s : State)

@[simp] theorem syncEdge_up : (syncEdge enq deq d s).sync.up = s.sync.up := rfl

@[simp] theorem syncEdge_cap : (syncEdge enq deq d s).sync.ring.cap = s.sync.ring.cap :=
  (syncEdge_keepsParameters enq deq d s).syncCap

@[simp] theorem syncEdge_enqOut :
    (syncEdge enq deq d s).sync.enqOut = ⟨enq && !s.sync.ring.full, enq && s.sync.ring.full⟩ := rfl

@[simp] theorem syncEdge_deqOut :
    (syncEdge enq deq d s).sync.deqOut = ⟨deq && !s.sync.ring.empty, deq && s.sync.ring.empty, syncDout s⟩ := rfl

/-- The dequeuing half alone moves `head`. -/
theorem syncEdge_head :
    (syncEdge enq deq d s).sync.ring.head =
      if deq && !s.sync.ring.empty then next s.sync.ring.cap s.sync.ring.head else s.sync.ring.head := by
  simp only [syncEdge]
  split <;> split <;> rfl

/-- The enqueuing half alone moves `tail`. -/
theorem syncEdge_tail :
    (syncEdge enq deq d s).sync.ring.tail =
      if enq && !s.sync.ring.full then next s.sync.ring.cap s.sync.ring.tail else s.sync.ring.tail := by
  simp only [syncEdge]
  split <;> split <;> rfl

end

/-- Both halves succeed: the byte returned was stored before the edge, in another cell than the one written. -/
theorem contents_push_pop (q : FifoId) {r : Ring} (d : Byte) (hcap : 2 ≤ r.cap) (hr : r.inRange = true)
    (hfull : r.full = false) (hempty : r.empty = false) :
    r.contents q ++ [d] = r.cell q r.head :: (r.push d).pop.contents q := by
  obtain ⟨hhead, -⟩ := (inRange_iff r).1 hr
  have hr' : (r.push d).inRange = true := (inRange_iff _).2 ⟨hhead, next_lt hcap r.tail⟩
  have hne : r.head ≠ r.tail := fun h => by simp [(empty_iff r).2 h] at hempty
  obtain ⟨-, -, -, -, -, -, hother⟩ := push_accepts q r d
  rw [← contents_push q d hcap hr hfull, contents_pop q (r := r.push d) hcap hr' (push_not_empty hcap hr hfull d),
    push_head, hother _ hne]

section

variable {s : State} (h : SyncReady s)

include h

theorem SyncReady.inRange : s.sync.ring.inRange = true := by
  obtain ⟨-, -, hindices⟩ := h
  exact (inRange_iff _).2 hindices

theorem SyncReady.two_le_cap : 2 ≤ s.sync.ring.cap := by
  obtain ⟨hcap, -⟩ := h
  exact hcap

/-- `dout` is the oldest outstanding byte (R151). -/
theorem syncDout_eq_oldest (hempty : s.sync.ring.empty = false) :
    syncDout s = s.sync.ring.cell .sync s.sync.ring.head := by
  have hr := h.inRange
  obtain ⟨-, hup, -⟩ := h
  simp [syncDout, hup, hr, hempty]

theorem syncEdge_ready (enq deq : Bool) (d : Byte) : SyncReady (syncEdge enq deq d s) := by
  obtain ⟨hcap, hup, hhead, htail⟩ := h
  refine ⟨by rwa [syncEdge_cap], hup, ?_, ?_⟩
  · rw [syncEdge_cap, syncEdge_head]
    split
    · exact next_lt hcap _
    · exact hhead
  · rw [syncEdge_cap, syncEdge_tail]
    split
    · exact next_lt hcap _
    · exact htail

/-- The law of one edge (R127): what was outstanding, then the byte stored, is the byte returned, then what is
outstanding. -/
theorem syncEdge_contents (enq deq : Bool) (d : Byte) :
    s.sync.ring.contents .sync ++ (if (syncEdge enq deq d s).sync.enqOut.ok then [d] else []) =
      returnedAt (syncEdge enq deq d s) ++ (syncEdge enq deq d s).sync.ring.contents .sync := by
  have hcap := h.two_le_cap
  have hr := h.inRange
  by_cases henq : (enq && !s.sync.ring.full) = true <;> by_cases hdeq : (deq && !s.sync.ring.empty) = true <;>
    simp only [returnedAt, syncEdge, henq, hdeq, if_true, if_false, List.append_nil, List.nil_append,
      List.singleton_append, Bool.false_eq_true]
  · simp only [Bool.and_eq_true, Bool.not_eq_true'] at henq hdeq
    rw [syncDout_eq_oldest h hdeq.2, contents_push_pop .sync d hcap hr henq.2 hdeq.2]
  · simp only [Bool.and_eq_true, Bool.not_eq_true'] at henq
    rw [contents_push .sync d hcap hr henq.2]
  · simp only [Bool.and_eq_true, Bool.not_eq_true'] at hdeq
    rw [syncDout_eq_oldest h hdeq.2, contents_pop .sync hcap hr hdeq.2]

/-- The law of one edge, counted (R128). -/
theorem syncEdge_occ (enq deq : Bool) (d : Byte) :
    (syncEdge enq deq d s).sync.ring.occ + (if (syncEdge enq deq d s).sync.deqOut.ok then 1 else 0) =
      s.sync.ring.occ + (if (syncEdge enq deq d s).sync.enqOut.ok then 1 else 0) := by
  have hlength := congrArg List.length (syncEdge_contents h enq deq d)
  simp only [returnedAt, List.length_append, contents_length, apply_ite List.length, List.length_singleton,
    List.length_nil] at hlength
  omega

/-- An enqueue request succeeds exactly while fewer than N−1 bytes are outstanding. -/
theorem syncEdge_enqOk_iff (deq : Bool) (d : Byte) :
    (syncEdge true deq d s).sync.enqOut.ok = true ↔ s.sync.ring.occ < s.sync.ring.cap - 1 := by
  obtain ⟨hcap, -, hhead, htail⟩ := h
  obtain ⟨-, -, hle, -, hfull, -, -⟩ := flagsFollowOccupancy s.sync.ring hcap hhead htail
  rw [syncEdge_enqOut, Bool.true_and, Bool.not_eq_true', ← Bool.not_eq_true, hfull]
  omega

/-- A dequeue request succeeds exactly while a byte is outstanding. -/
theorem syncEdge_deqOk_iff (enq : Bool) (d : Byte) :
    (syncEdge enq true d s).sync.deqOut.ok = true ↔ 0 < s.sync.ring.occ := by
  rw [syncEdge_deqOut, Bool.true_and, Bool.not_eq_true', ← Bool.not_eq_true, ← occ_eq_zero_iff h.inRange]
  omega

/-- In a ready block the check made before an edge passes. -/
theorem guarded_syncGuard (go : Result) : guarded (syncGuard s) go = go := by
  rw [(syncGuard_iff s).2 h, guarded_none]

theorem exec_nop : exec .nop s = .next (syncEdge false false 0 s) := guarded_syncGuard h _

theorem exec_enq (d : Byte) : exec (.enq d) s = .next (syncEdge true false d s) := guarded_syncGuard h _

theorem exec_deq : exec .deq s = .next (syncEdge false true 0 s) := guarded_syncGuard h _

theorem exec_enqdeq (d : Byte) : exec (.enqdeq d) s = .next (syncEdge true true d s) :=
  guarded_syncGuard h _

end

/-- INIT needs a legal capacity alone (R156). -/
theorem exec_init {s : State} (hcap : 2 ≤ s.sync.ring.cap) :
    ∃ t, exec .init s = .next t ∧ t.sync.up = true ∧ t.sync.ring = s.sync.ring.init := by
  rw [exec, execInit, firstRefusal_cons, capOk_iff.2 hcap]
  exact ⟨_, rfl, rfl, rfl⟩

theorem exec_init_ready {s : State} (hcap : 2 ≤ s.sync.ring.cap) : ∃ t, exec .init s = .next t ∧ SyncReady t := by
  obtain ⟨t, ht, hup, hring⟩ := exec_init hcap
  refine ⟨t, ht, ?_⟩
  rw [SyncReady, hring, init_cap, init_head, init_tail]
  exact ⟨hcap, hup, by omega, by omega⟩

theorem exec_keeps_sync {i : Instr} (hi : .sync ∉ commandMoves i) {s t : State} (ht : exec i s = .next t) :
    t.sync = s.sync :=
  (exec_movesOnly i s t ht).same .sync hi

/-- Settles O14: the law of one edge, counted, with the requests each command makes; a query leaves the block alone. -/
theorem occupancyLaw : Obligations.OccupancyLaw := by
  unfold Obligations.OccupancyLaw
  intro s t d h
  refine ⟨fun ht => ?_, fun ht => ?_, fun ht => ?_, fun ht => ?_, fun ht => ?_, fun ht => ?_, fun ht => ?_⟩
  · obtain rfl := Host.Outcome.next.inj ((exec_enq h d).symm.trans ht)
    exact ⟨syncEdge_enqOk_iff h false d, syncEdge_occ h true false d⟩
  · obtain rfl := Host.Outcome.next.inj ((exec_deq h).symm.trans ht)
    exact ⟨syncEdge_deqOk_iff h false 0, (syncEdge_occ h false true 0).symm⟩
  · obtain rfl := Host.Outcome.next.inj ((exec_enqdeq h d).symm.trans ht)
    exact ⟨syncEdge_enqOk_iff h true d, syncEdge_deqOk_iff h true d, syncEdge_occ h true true d⟩
  · obtain rfl := Host.Outcome.next.inj ((exec_nop h).symm.trans ht)
    exact syncEdge_occ h false false 0
  · rw [exec_keeps_sync (by simp [commandMoves]) ht]
  · rw [exec_keeps_sync (by simp [commandMoves]) ht]
  · obtain ⟨t', ht', -, hring⟩ := exec_init h.two_le_cap
    obtain rfl := Host.Outcome.next.inj (ht'.symm.trans ht)
    rw [hring, init_occ]

/-! ### Runs of `sync_fifo` (R127, R131) -/

/-- The commands of an edge with `init == 0` (R152 to R155). -/
def EdgeCommand (i : Instr) : Prop := i = .nop ∨ i = .deq ∨ (∃ d, i = .enq d) ∨ ∃ d, i = .enqdeq d

/-- Each of them is one edge, and `storedAt` names the byte of its accepted enqueue. -/
theorem EdgeCommand.exec_eq {i : Instr} (hi : EdgeCommand i) {s : State} (h : SyncReady s) :
    ∃ enq deq d, exec i s = .next (syncEdge enq deq d s) ∧
      storedAt i (syncEdge enq deq d s) = if (syncEdge enq deq d s).sync.enqOut.ok then [d] else [] := by
  obtain rfl | rfl | ⟨d, rfl⟩ | ⟨d, rfl⟩ := hi
  · exact ⟨false, false, 0, exec_nop h, rfl⟩
  · exact ⟨false, true, 0, exec_deq h, rfl⟩
  · exact ⟨true, false, d, exec_enq h d, rfl⟩
  · exact ⟨true, true, d, exec_enqdeq h d, rfl⟩

/-- A command and then a run (R127): the run's bytes come behind the command's. -/
theorem syncRun_cons_eq_some {i : Instr} {is : List Instr} {s u : State} {stored returned : List Byte} :
    syncRun (i :: is) s = some (stored, returned, u) ↔
      ∃ t stored' returned', exec i s = .next t ∧ stored = storedAt i t ++ stored' ∧
        returned = returnedAt t ++ returned' ∧ syncRun is t = some (stored', returned', u) := by
  rw [syncRun]
  cases exec i s with
  | next t =>
    rcases hrun : syncRun is t with _ | ⟨stored', returned', v⟩
    · simp [hrun]
    · simp [hrun, eq_comm]
  | fault e => simp
  | refused e => simp

theorem syncRun_keeps_order {is : List Instr} (his : ∀ i ∈ is, EdgeCommand i) {s t : State} (h : SyncReady s)
    {stored returned : List Byte} (hrun : syncRun is s = some (stored, returned, t)) :
    s.sync.ring.contents .sync ++ stored = returned ++ t.sync.ring.contents .sync := by
  induction is generalizing s stored returned with
  | nil =>
    simp only [syncRun, Option.some.injEq, Prod.mk.injEq] at hrun
    obtain ⟨rfl, rfl, rfl⟩ := hrun
    simp
  | cons i is ih =>
    obtain ⟨hi, his⟩ := List.forall_mem_cons.1 his
    obtain ⟨u, stored', returned', hexec, rfl, rfl, hrest⟩ := syncRun_cons_eq_some.1 hrun
    obtain ⟨enq, deq, d, hedge, hstored⟩ := hi.exec_eq h
    obtain rfl := Host.Outcome.next.inj (hedge.symm.trans hexec)
    rw [hstored, ← List.append_assoc, syncEdge_contents h, List.append_assoc, List.append_assoc,
      ih his (syncEdge_ready h enq deq d) hrest]

/-- Settles O15: the law of one edge, by induction on the run; an empty buffer has no outstanding bytes. -/
theorem fifoOrderAlongEveryRun : Obligations.FifoOrderAlongEveryRun := by
  unfold Obligations.FifoOrderAlongEveryRun
  intro is s t stored returned h his hrun
  have horder := syncRun_keeps_order his h hrun
  refine ⟨horder, fun hempty => ⟨t.sync.ring.contents .sync, ?_⟩⟩
  have hnone : s.sync.ring.contents .sync = [] := by
    rw [← List.length_eq_zero_iff, contents_length, (occ_eq_zero_iff h.inRange).2 hempty]
  rw [← horder, hnone, List.nil_append]

/-- Settles O16: each of the five commands answers, and leaves the block ready for the next. -/
theorem syncRunsNeverStop : Obligations.SyncRunsNeverStop := by
  unfold Obligations.SyncRunsNeverStop
  intro is s h his
  induction is generalizing s with
  | nil => exact ⟨[], [], s, rfl, h⟩
  | cons i is ih =>
    obtain ⟨hi, his⟩ := List.forall_mem_cons.1 his
    have answers : ∃ t, exec i s = .next t ∧ SyncReady t := by
      by_cases hinit : i = .init
      · subst hinit
        exact exec_init_ready h.two_le_cap
      · have hedge : EdgeCommand i := by simpa [EdgeCommand, hinit] using hi
        obtain ⟨enq, deq, d, hexec, -⟩ := hedge.exec_eq h
        exact ⟨_, hexec, syncEdge_ready h enq deq d⟩
    obtain ⟨t, hexec, ht⟩ := answers
    obtain ⟨stored, returned, u, hrun, hu⟩ := ih t ht his
    exact ⟨_, _, u, syncRun_cons_eq_some.2 ⟨t, stored, returned, hexec, rfl, rfl, hrun⟩, hu⟩

end Sys2Proof.Machine

namespace Sys2Proof.Machine

/-! ### The flags of a ring buffer, negated and counted (R22 to R24) -/

section

variable {r : Ring}

theorem empty_eq_false_iff : r.empty = false ↔ r.head ≠ r.tail := by simp [Ring.empty]

theorem full_eq_false_iff : r.full = false ↔ next r.cap r.tail ≠ r.head := by simp [Ring.full]

/-- The two flags exclude each other (R23). -/
theorem not_full_of_empty (hcap : 2 ≤ r.cap) (hr : r.inRange = true) (hempty : r.empty = true) : r.full = false := by
  obtain ⟨-, htail⟩ := (inRange_iff r).1 hr
  by_contra hfull
  simp [not_empty_of_full hcap htail (by simpa using hfull)] at hempty

theorem occ_le (hcap : 2 ≤ r.cap) (hr : r.inRange = true) : r.occ ≤ r.cap - 1 := by
  obtain ⟨hhead, htail⟩ := (inRange_iff r).1 hr
  obtain ⟨-, -, hle, -⟩ := flagsFollowOccupancy r hcap hhead htail
  exact hle

theorem full_iff_occ (hcap : 2 ≤ r.cap) (hr : r.inRange = true) : r.full = true ↔ r.occ = r.cap - 1 := by
  obtain ⟨hhead, htail⟩ := (inRange_iff r).1 hr
  obtain ⟨-, -, -, -, hfull, -⟩ := flagsFollowOccupancy r hcap hhead htail
  exact hfull

/-- A byte taken leaves room for one. -/
theorem pop_not_full (hcap : 2 ≤ r.cap) (hr : r.inRange = true) (hempty : r.empty = false) :
    r.pop.full = false := by
  obtain ⟨-, htail⟩ := (inRange_iff r).1 hr
  have hr' : r.pop.inRange = true := (inRange_iff _).2 ⟨next_lt hcap r.head, htail⟩
  have hle := occ_le hcap hr
  rw [← Bool.not_eq_true, full_iff_occ (r := r.pop) hcap hr', pop_cap]
  rw [occ_pop hcap hr hempty] at hle
  omega

theorem init_empty (r : Ring) : r.init.empty = true := (empty_iff _).2 rfl

theorem init_not_full (hcap : 2 ≤ r.cap) : r.init.full = false := by
  rw [full_eq_false_iff, init_cap, init_tail, init_head, next_eq (by omega)]
  split <;> omega

end

/-! ### One edge of `sync_fifo`, half by half (R150, R155): an accepted half is one operation more on the ring
buffer, a refused one is none. -/

theorem syncEdge_onlySync (enq deq : Bool) (d : Byte) (s : State) : OnlySync s (syncEdge enq deq d s) :=
  ⟨rfl, rfl, rfl, rfl, rfl, rfl⟩

section

variable {s : State}

theorem syncEdge_ring_idle (d : Byte) (s : State) : (syncEdge false false d s).sync.ring = s.sync.ring := rfl

theorem syncEdge_ring_enq_accepted (hfull : s.sync.ring.full = false) (deq : Bool) (d d' : Byte) :
    (syncEdge true deq d s).sync.ring = (syncEdge false deq d' s).sync.ring.push d := by
  simp only [syncEdge, hfull]
  split <;> rfl

theorem syncEdge_ring_enq_refused (hfull : s.sync.ring.full = true) (deq : Bool) (d d' : Byte) :
    (syncEdge true deq d s).sync.ring = (syncEdge false deq d' s).sync.ring := by
  simp [syncEdge, hfull]

theorem syncEdge_ring_deq_accepted (hempty : s.sync.ring.empty = false) (enq : Bool) (d : Byte) :
    (syncEdge enq true d s).sync.ring = (syncEdge enq false d s).sync.ring.pop := by
  simp [syncEdge, hempty]

theorem syncEdge_ring_deq_refused (hempty : s.sync.ring.empty = true) (enq : Bool) (d : Byte) :
    (syncEdge enq true d s).sync.ring = (syncEdge enq false d s).sync.ring := by
  simp [syncEdge, hempty]

theorem enqEdge_ring (hfull : s.sync.ring.full = false) (d : Byte) :
    (syncEdge true false d s).sync.ring = s.sync.ring.push d :=
  syncEdge_ring_enq_accepted hfull false d 0

theorem deqEdge_ring (hempty : s.sync.ring.empty = false) (d : Byte) :
    (syncEdge false true d s).sync.ring = s.sync.ring.pop :=
  syncEdge_ring_deq_accepted hempty false d

/-- Without an enqueue request, what the enqueuing side owns stays. -/
theorem deqEdge_keeps (d : Byte) (s : State) :
    (syncEdge false true d s).sync.ring.tail = s.sync.ring.tail ∧
      (syncEdge false true d s).sync.ring.ghostT = s.sync.ring.ghostT ∧
      (syncEdge false true d s).sync.ring.storage = s.sync.ring.storage := by
  cases hempty : s.sync.ring.empty with
  | false => rw [deqEdge_ring hempty]; exact ⟨rfl, rfl, rfl⟩
  | true => rw [syncEdge_ring_deq_refused hempty]; exact ⟨rfl, rfl, rfl⟩

/-- Without a dequeue request, what the dequeuing side owns stays. -/
theorem enqEdge_keeps (d : Byte) (s : State) :
    (syncEdge true false d s).sync.ring.head = s.sync.ring.head ∧
      (syncEdge true false d s).sync.ring.ghostH = s.sync.ring.ghostH := by
  cases hfull : s.sync.ring.full with
  | false => rw [enqEdge_ring hfull]; exact ⟨rfl, rfl⟩
  | true => rw [syncEdge_ring_enq_refused hfull false d d]; exact ⟨rfl, rfl⟩

end

section

variable {s : State} (h : SyncReady s)

include h

/-- ENQ answers BufferFull on a full buffer only, so a byte is outstanding after it in every case. -/
theorem enqEdge_not_empty (d : Byte) : (syncEdge true false d s).sync.ring.empty = false := by
  have hcap := h.two_le_cap
  have hr := h.inRange
  obtain ⟨-, htail⟩ := (inRange_iff _).1 hr
  cases hfull : s.sync.ring.full with
  | false => rw [enqEdge_ring hfull]; exact push_not_empty hcap hr hfull d
  | true => rw [syncEdge_ring_enq_refused hfull false d d]; exact not_empty_of_full hcap htail hfull

/-- DEQ answers BufferEmpty on an empty buffer only, so there is room for a byte after it in every case. -/
theorem deqEdge_not_full (d : Byte) : (syncEdge false true d s).sync.ring.full = false := by
  cases hempty : s.sync.ring.empty with
  | false => rw [deqEdge_ring hempty]; exact pop_not_full h.two_le_cap h.inRange hempty
  | true => rw [syncEdge_ring_deq_refused hempty]; exact not_full_of_empty h.two_le_cap h.inRange hempty

/-- A byte stored behind an outstanding one is in another cell, so `dout` stays. -/
theorem enqEdge_syncDout (hempty : s.sync.ring.empty = false) (d : Byte) :
    syncDout (syncEdge true false d s) = syncDout s := by
  rw [syncDout_eq_oldest (syncEdge_ready h true false d) (enqEdge_not_empty h d), syncDout_eq_oldest h hempty]
  cases hfull : s.sync.ring.full with
  | false =>
    obtain ⟨-, -, -, -, -, -, hother⟩ := push_accepts .sync s.sync.ring d
    rw [enqEdge_ring hfull, push_head]
    exact hother _ (empty_eq_false_iff.1 hempty)
  | true => rw [syncEdge_ring_enq_refused hfull false d d, syncEdge_ring_idle]

/-- The same occupancy before and after, and so the same flags. -/
theorem syncEdge_flags_of_occ_eq {enq deq : Bool} {d : Byte}
    (hocc : (syncEdge enq deq d s).sync.ring.occ = s.sync.ring.occ) :
    (syncEdge enq deq d s).sync.ring.empty = s.sync.ring.empty ∧
      (syncEdge enq deq d s).sync.ring.full = s.sync.ring.full := by
  have ready' := syncEdge_ready h enq deq d
  constructor
  · rw [Bool.eq_iff_iff, ← occ_eq_zero_iff ready'.inRange, ← occ_eq_zero_iff h.inRange, hocc]
  · rw [Bool.eq_iff_iff, full_iff_occ ready'.two_le_cap ready'.inRange, full_iff_occ h.two_le_cap h.inRange, hocc,
      syncEdge_cap]

end

/-! ### The commands of `sync_fifo` (R152 to R157) -/

/-- Settles O8: an edge without a request. -/
theorem syncNopChangesNoRegister : Obligations.SyncNopChangesNoRegister := by
  unfold Obligations.SyncNopChangesNoRegister
  refine ⟨fun w => decode_x_nop, fun s h => ⟨_, exec_nop h, ?_⟩⟩
  exact ⟨syncEdge_ring_idle 0 s, rfl, rfl, rfl, rfl, syncEdge_onlySync false false 0 s⟩

/-- Settles O9, by the flag `full` before the edge. -/
theorem syncEnqStoresOrReportsFull : Obligations.SyncEnqStoresOrReportsFull := by
  unfold Obligations.SyncEnqStoresOrReportsFull
  refine ⟨fun w => decode_x_enq, fun s d h => ⟨_, exec_enq h d, ?_⟩⟩
  refine ⟨syncEdge_onlySync true false d s, rfl, rfl, rfl, fun hindices => ?_, fun hindices => ?_⟩
  · have hfull : s.sync.ring.full = true := (full_iff _).2 hindices
    exact ⟨syncEdge_ring_enq_refused hfull false d d, by simp [hfull]⟩
  · have hfull : s.sync.ring.full = false := full_eq_false_iff.2 hindices
    have ready' := syncEdge_ready h true false d
    refine ⟨?_, by simp [hfull], enqEdge_not_empty h d, ?_⟩
    · rw [enqEdge_ring hfull]
      exact push_accepts .sync _ d
    · rw [full_iff_occ ready'.two_le_cap ready'.inRange, syncEdge_cap]

/-- Settles O10, by the flag `empty` before the edge. -/
theorem syncDeqReturnsOrReportsEmpty : Obligations.SyncDeqReturnsOrReportsEmpty := by
  unfold Obligations.SyncDeqReturnsOrReportsEmpty
  refine ⟨fun w => decode_x_deq, fun s h => ⟨_, exec_deq h, ?_⟩⟩
  refine ⟨syncEdge_onlySync false true 0 s, rfl, rfl, fun hindices => ?_, fun hindices => ?_⟩
  · have hempty : s.sync.ring.empty = true := (empty_iff _).2 hindices
    exact ⟨syncEdge_ring_deq_refused hempty false 0, by simp [hempty], by simp [hempty]⟩
  · have hempty : s.sync.ring.empty = false := empty_eq_false_iff.2 hindices
    have ready' := syncEdge_ready h false true 0
    refine ⟨?_, ?_, deqEdge_not_full h 0, ?_, syncDout_eq_oldest ready'⟩
    · rw [deqEdge_ring hempty]
      exact pop_releases _
    · rw [syncEdge_deqOut, hempty, syncDout_eq_oldest h hempty]
      rfl
    · rw [← occ_eq_zero_iff ready'.inRange, deqEdge_ring hempty, occ_pop h.two_le_cap h.inRange hempty]
      omega

/-- Settles O11: each half by its own flag before the edge, as one operation more than the edge with the other half
alone; two successes cancel in the law of one edge. -/
theorem syncEnqdeqDecidesOnPreEdgeFlags : Obligations.SyncEnqdeqDecidesOnPreEdgeFlags := by
  unfold Obligations.SyncEnqdeqDecidesOnPreEdgeFlags
  refine ⟨fun w => decode_x_enqdeq, fun s d h => ⟨_, exec_enqdeq h d, ?_⟩⟩
  obtain ⟨htail, hghostT, hstorage⟩ := deqEdge_keeps 0 s
  obtain ⟨hhead, hghostH⟩ := enqEdge_keeps d s
  refine ⟨syncEdge_onlySync true true d s, rfl, syncEdge_cap true true d s, fun hindices => ?_, fun hindices => ?_,
    fun hindices => ?_, fun hindices => ?_, fun henq hdeq => ?_, ?_⟩
  · have hfull : s.sync.ring.full = true := (full_iff _).2 hindices
    rw [syncEdge_ring_enq_refused hfull true d 0]
    exact ⟨htail, hghostT, hstorage, by simp [hfull]⟩
  · have hfull : s.sync.ring.full = false := full_eq_false_iff.2 hindices
    obtain ⟨-, -, -, htail', hghostT', hbyte, hother⟩ :=
      push_accepts .sync (syncEdge false true 0 s).sync.ring d
    rw [syncEdge_ring_enq_accepted hfull true d 0]
    rw [htail, syncEdge_cap] at htail'
    rw [hghostT] at hghostT'
    rw [htail] at hbyte hother
    refine ⟨htail', hghostT', hbyte, fun a ha => ?_, by simp [hfull]⟩
    rw [hother a ha, Ring.cell, hstorage, Ring.cell]
  · have hempty : s.sync.ring.empty = true := (empty_iff _).2 hindices
    rw [syncEdge_ring_deq_refused hempty]
    exact ⟨hhead, hghostH, by simp [hempty], by simp [hempty]⟩
  · have hempty : s.sync.ring.empty = false := empty_eq_false_iff.2 hindices
    rw [syncEdge_ring_deq_accepted hempty, pop_head, pop_ghostH, syncEdge_cap, hhead, hghostH]
    refine ⟨rfl, rfl, ?_⟩
    rw [syncEdge_deqOut, hempty, syncDout_eq_oldest h hempty]
    rfl
  · have hlaw := syncEdge_occ h true true d
    rw [henq, hdeq] at hlaw
    have hocc := Nat.add_right_cancel hlaw
    exact ⟨hocc, syncEdge_flags_of_occ_eq h hocc⟩
  · rintro ⟨hfull, hempty⟩
    rw [syncEdge_enqOut, Bool.true_and] at hfull
    rw [syncEdge_deqOut, Bool.true_and] at hempty
    simp [not_full_of_empty h.two_le_cap h.inRange hempty] at hfull

/-- INIT and the whole of what it leaves in the block (R156). -/
theorem exec_init_sync {s : State} (hcap : 2 ≤ s.sync.ring.cap) :
    ∃ t, exec .init s = .next t ∧ OnlySync s t ∧
      t.sync = ⟨true, s.sync.ring.init, ⟨false, false⟩, ⟨false, false, syncDout s⟩⟩ := by
  rw [exec, execInit, firstRefusal_cons, capOk_iff.2 hcap]
  exact ⟨_, rfl, ⟨rfl, rfl, rfl, rfl, rfl, rfl⟩, rfl⟩

/-- Settles O12: INIT asks for a legal capacity alone, and two indices at 0 are an empty buffer. -/
theorem syncInitResetsBothIndices : Obligations.SyncInitResetsBothIndices := by
  unfold Obligations.SyncInitResetsBothIndices
  refine ⟨fun w => decode_x_init, fun s hcap => ?_⟩
  obtain ⟨t, ht, honly, hsync⟩ := exec_init_sync hcap
  refine ⟨t, ht, honly, ?_⟩
  rw [hsync]
  exact ⟨init_flushed _, rfl, rfl, rfl, rfl, init_empty _, init_not_full hcap⟩

/-- Settles O13: ENQ leaves a byte outstanding and DEQ leaves room, so the half that comes second succeeds; on an empty
or a full buffer it is the half that the edge refuses. -/
theorem enqdeqIsTwoOperationsInOrder : Obligations.EnqdeqIsTwoOperationsInOrder := by
  unfold Obligations.EnqdeqIsTwoOperationsInOrder
  intro s t d h ht
  obtain rfl := Host.Outcome.next.inj ((exec_enqdeq h d).symm.trans ht)
  have byteLeft := enqEdge_not_empty h d
  have roomLeft := deqEdge_not_full h 0
  have enqFirst := exec_deq (syncEdge_ready h true false d)
  have deqFirst := exec_enq (syncEdge_ready h false true 0) d
  refine ⟨fun hempty => ⟨_, _, exec_enq h d, enqFirst, ?_, rfl, ?_⟩,
    fun hfull => ⟨_, _, exec_deq h, deqFirst, ?_, ?_, rfl⟩,
    fun hfull => ⟨_, _, exec_deq h, deqFirst, ?_⟩, fun hempty => ⟨_, _, exec_enq h d, enqFirst, ?_⟩⟩
  · rw [deqEdge_ring byteLeft, syncEdge_ring_deq_accepted hempty]
  · rw [syncEdge_deqOut, syncEdge_deqOut, byteLeft, hempty, enqEdge_syncDout h hempty]
  · rw [enqEdge_ring roomLeft, syncEdge_ring_enq_accepted hfull true d 0]
  · rw [syncEdge_enqOut, syncEdge_enqOut, roomLeft, hfull]
  · simp [deqEdge_not_full h, hfull]
  · simp [byteLeft, hempty]

end Sys2Proof.Machine

namespace Sys2Proof.Machine

/-! ### One edge of either clock of `async_fifo` (R186 to R189, R192 to R194)

An edge shifts its own synchroniser; for the index of its own domain it is one operation on the ring buffer, or none. -/

/-- One crossing of `async_fifo`: the index and its code register in the domain that owns them, the auxiliaries of the
crossing, and the two stages in the other domain (R31 to R33). -/
structure CodeCrossing where
  index : Nat
  code : Nat
  prev : Nat
  fresh : Bool
  stage1 : Nat
  stage2 : Nat

/-- The crossing of `head_gray` into the write domain. -/
def AsyncFifo.headCrossing (a : AsyncFifo) : CodeCrossing :=
  ⟨a.ring.head, a.headGray, a.headPrev, a.headFresh, a.hs1, a.hs2⟩

/-- The crossing of `tail_gray` into the read domain. -/
def AsyncFifo.tailCrossing (a : AsyncFifo) : CodeCrossing :=
  ⟨a.ring.tail, a.tailGray, a.tailPrev, a.tailFresh, a.ts1, a.ts2⟩

namespace CodeCrossing

/-- An edge of the other domain, whose sample is `v`. -/
def shift (v : Nat) (c : CodeCrossing) : CodeCrossing := { c with stage2 := c.stage1, stage1 := v, fresh := false }

/-- An edge of the domain that owns the index, without an accepted request. -/
def rest (c : CodeCrossing) : CodeCrossing := { c with fresh := false }

/-- An edge of the domain that owns the index, with an accepted request. -/
def advance (n : Nat) (c : CodeCrossing) : CodeCrossing :=
  { c with index := next n c.index, code := gray n (next n c.index), prev := c.code, fresh := true }

end CodeCrossing

section

variable {s t : State} {d : Byte}

/-- The outcome fixed for a racing sample is the one it takes (R193). -/
theorem sample_takeDraw_fixed {α : Type} {fresh b : Bool} {ds : List Bool} (old cur : α) (hfresh : fresh = true)
    (hdraws : s.draws = b :: ds) :
    sample fresh old cur (takeDraw fresh s).1 = (if b then cur else old) ∧ (takeDraw fresh s).2.draws = ds := by
  subst hfresh
  rw [takeDraw_fixed hdraws]
  exact ⟨rfl, rfl⟩

/-- A stable signal takes no draw. -/
theorem takeDraw_stable_draws {fresh : Bool} (hfresh : fresh = false) : (takeDraw fresh s).2.draws = s.draws := by
  rw [hfresh, takeDraw_stable]

theorem wEdge_onlyAsync (enq : Bool) (d : Byte) (s : State) : OnlyAsync s (wEdge enq d s) := by
  simp [OnlyAsync, wEdge]

theorem rEdge_onlyAsync (deq : Bool) (s : State) : OnlyAsync s (rEdge deq s) := by
  simp [OnlyAsync, rEdge]

theorem wEdge_shifts (enq : Bool) (d : Byte) (s : State) : WShifts s (wEdge enq d s) := by
  unfold wEdge
  dsimp only
  split <;>
    exact ⟨rfl, sample_sampled .., fun _ _ => sample_takeDraw_fixed _ _, takeDraw_stable_draws,
      rfl, rfl, rfl, rfl, rfl, rfl, rfl, rfl⟩

theorem rEdge_shifts (deq : Bool) (s : State) : RShifts s (rEdge deq s) := by
  unfold rEdge
  dsimp only
  split <;>
    exact ⟨rfl, sample_sampled .., fun _ _ => sample_takeDraw_fixed _ _, takeDraw_stable_draws,
      rfl, rfl, rfl, rfl, rfl, rfl, rfl, rfl⟩

theorem wEdge_headCrossing (enq : Bool) (d : Byte) (s : State) :
    (wEdge enq d s).async.headCrossing = s.async.headCrossing.shift (wEdge enq d s).async.hs1 := by
  unfold wEdge
  dsimp only
  split <;> rfl

theorem rEdge_tailCrossing (deq : Bool) (s : State) :
    (rEdge deq s).async.tailCrossing = s.async.tailCrossing.shift (rEdge deq s).async.ts1 := by
  unfold rEdge
  dsimp only
  split <;> rfl

theorem wEdge_stays {enq : Bool} (h : (enq && !s.async.fullW) = false) :
    (wEdge enq d s).async.ring = s.async.ring ∧ (wEdge enq d s).async.tailCrossing = s.async.tailCrossing.rest := by
  simp only [wEdge, h]
  exact ⟨rfl, rfl⟩

theorem wEdge_stores (h : s.async.fullW = false) :
    (wEdge true d s).async.ring = s.async.ring.push d ∧
      (wEdge true d s).async.tailCrossing = s.async.tailCrossing.advance s.async.ring.cap := by
  simp only [wEdge, h]
  exact ⟨rfl, rfl⟩

theorem rEdge_stays {deq : Bool} (h : (deq && !s.async.emptyR) = false) :
    (rEdge deq s).async.ring = s.async.ring ∧ (rEdge deq s).async.headCrossing = s.async.headCrossing.rest := by
  simp only [rEdge, h]
  exact ⟨rfl, rfl⟩

theorem rEdge_takes (h : s.async.emptyR = false) :
    (rEdge true s).async.ring = s.async.ring.pop ∧
      (rEdge true s).async.headCrossing = s.async.headCrossing.advance s.async.ring.cap := by
  simp only [rEdge, h]
  exact ⟨rfl, rfl⟩

@[simp] theorem wEdge_enqOut (enq : Bool) (d : Byte) (s : State) :
    (wEdge enq d s).async.enqOut = ⟨enq && !s.async.fullW, enq && s.async.fullW⟩ := by
  simp only [wEdge]
  split <;> rfl

@[simp] theorem rEdge_deqOk (deq : Bool) (s : State) :
    (rEdge deq s).async.deqOut.ok = (deq && !s.async.emptyR) := by
  simp only [rEdge]
  split <;> rfl

@[simp] theorem rEdge_deqErr (deq : Bool) (s : State) :
    (rEdge deq s).async.deqOut.err = (deq && s.async.emptyR) := by
  simp only [rEdge]
  split <;> rfl

/-- The byte returned is the oldest one (R185, R189). -/
theorem rEdge_deqOut_takes (h : s.async.emptyR = false) :
    (rEdge true s).async.deqOut = ⟨true, false, s.async.ring.cell .async s.async.ring.head⟩ := by
  simp [rEdge, asyncDout, h]

/-! ### The commands of `async_fifo` that run -/

theorem unlessHeld_running {request : Bool} {held edge : State → State} (harst : s.async.arst = false) :
    unlessHeld request held edge s = .next (edge s) := by
  rw [unlessHeld, harst]
  rfl

theorem unlessHeld_quiet {held edge : State → State} (harst : s.async.arst = true) :
    unlessHeld false held edge s = .next (held s) := by
  rw [unlessHeld, harst]
  rfl

theorem unlessHeld_request {held edge : State → State} (harst : s.async.arst = true) :
    unlessHeld true held edge s = .refused .resetUnderTraffic := by
  rw [unlessHeld, harst]
  rfl

/-- A request that is answered finds a ready block that runs. -/
theorem guarded_request_next {held edge : State → State}
    (h : guarded (asyncGuard s) (unlessHeld true held edge s) = .next t) :
    AsyncReady s ∧ s.async.arst = false ∧ t = edge s := by
  obtain ⟨hready, h⟩ := guarded_next.1 h
  cases harst : s.async.arst with
  | false =>
    rw [unlessHeld_running harst] at h
    exact ⟨(asyncGuard_iff s).1 hready, rfl, (Host.Outcome.next.inj h).symm⟩
  | true => simp [unlessHeld_request harst] at h

theorem AsyncReady.guarded (h : AsyncReady s) (go : Result) : guarded (asyncGuard s) go = go := by
  rw [(asyncGuard_iff s).2 h, guarded_none]

variable (h : AsyncReady s) (harst : s.async.arst = false)

include h harst

theorem exec_wNop : exec .wNop s = .next (wEdge false 0 s) := (h.guarded _).trans (unlessHeld_running harst)

theorem exec_wEnq (d : Byte) : exec (.wEnq d) s = .next (wEdge true d s) :=
  (h.guarded _).trans (unlessHeld_running harst)

theorem exec_rNop : exec .rNop s = .next (rEdge false s) := (h.guarded _).trans (unlessHeld_running harst)

theorem exec_rDeq : exec .rDeq s = .next (rEdge true s) := (h.guarded _).trans (unlessHeld_running harst)

end

section

variable {a : AsyncFifo}

theorem fullW_iff : a.fullW = true ↔ gray a.ring.cap (next a.ring.cap a.ring.tail) = a.hs2 := by
  simp [AsyncFifo.fullW]

theorem emptyW_iff : a.emptyW = true ↔ a.tailGray = a.hs2 := by simp [AsyncFifo.emptyW]

theorem emptyR_iff : a.emptyR = true ↔ a.headGray = a.ts2 := by simp [AsyncFifo.emptyR]

theorem fullR_iff : a.fullR = true ↔ a.ts2 = gray a.ring.cap (prev a.ring.cap a.ring.head) := by
  simp [AsyncFifo.fullR]

end

/-- Settles O21: an edge of `wclk` without a request. -/
theorem wNopShiftsTheSynchroniser : Obligations.WNopShiftsTheSynchroniser := by
  unfold Obligations.WNopShiftsTheSynchroniser
  refine ⟨fun w => decode_w_nop, fun s h harst => ⟨_, exec_wNop h harst, wEdge_onlyAsync .., wEdge_shifts .., ?_⟩⟩
  obtain ⟨hring, htail⟩ := wEdge_stays (enq := false) (d := 0) (s := s) rfl
  exact ⟨hring, congrArg CodeCrossing.code htail, congrArg CodeCrossing.prev htail,
      congrArg CodeCrossing.fresh htail, wEdge_enqOut ..⟩

/-- Settles O22, by the flag `full_w` before the edge. -/
theorem wEnqStoresOrReportsFull : Obligations.WEnqStoresOrReportsFull := by
  unfold Obligations.WEnqStoresOrReportsFull
  refine fun s d h harst =>
    ⟨_, exec_wEnq h harst d, wEdge_onlyAsync .., wEdge_shifts .., fun hview => ?_, fun hview => ?_⟩
  · have hfull : s.async.fullW = true := fullW_iff.2 hview
    obtain ⟨hring, htail⟩ := wEdge_stays (enq := true) (d := d) (s := s) (by simp [hfull])
    exact ⟨hring, congrArg CodeCrossing.code htail, congrArg CodeCrossing.prev htail,
      congrArg CodeCrossing.fresh htail, by simp [hfull]⟩
  · have hfull : s.async.fullW = false := Bool.eq_false_iff.2 (mt fullW_iff.1 hview)
    obtain ⟨hring, htail⟩ := wEdge_stores (d := d) hfull
    exact ⟨hring ▸ push_accepts .async _ d, congrArg CodeCrossing.code htail, congrArg CodeCrossing.prev htail,
      congrArg CodeCrossing.fresh htail, by simp [hfull]⟩

/-- Settles O23: an edge of `rclk` without a request. -/
theorem rNopShiftsTheSynchroniser : Obligations.RNopShiftsTheSynchroniser := by
  unfold Obligations.RNopShiftsTheSynchroniser
  refine ⟨rfl, fun s h harst => ⟨_, exec_rNop h harst, rEdge_onlyAsync .., rEdge_shifts .., ?_⟩⟩
  obtain ⟨hring, hhead⟩ := rEdge_stays (deq := false) (s := s) rfl
  exact ⟨hring, congrArg CodeCrossing.code hhead, congrArg CodeCrossing.prev hhead,
      congrArg CodeCrossing.fresh hhead, rEdge_deqOk .., rEdge_deqErr ..⟩

/-- Settles O24, by the flag `empty_r` before the edge. -/
theorem rDeqReturnsOrReportsEmpty : Obligations.RDeqReturnsOrReportsEmpty := by
  unfold Obligations.RDeqReturnsOrReportsEmpty
  refine fun s h harst => ⟨_, exec_rDeq h harst, rEdge_onlyAsync .., rEdge_shifts .., fun hview => ?_, fun hview => ?_⟩
  · have hempty : s.async.emptyR = true := emptyR_iff.2 hview
    obtain ⟨hring, hhead⟩ := rEdge_stays (deq := true) (s := s) (by simp [hempty])
    exact ⟨hring, congrArg CodeCrossing.code hhead, congrArg CodeCrossing.prev hhead,
      congrArg CodeCrossing.fresh hhead, by simp [hempty], by simp [hempty]⟩
  · have hempty : s.async.emptyR = false := Bool.eq_false_iff.2 (mt emptyR_iff.1 hview)
    obtain ⟨hring, hhead⟩ := rEdge_takes hempty
    exact ⟨hring ▸ pop_releases _, congrArg CodeCrossing.code hhead, congrArg CodeCrossing.prev hhead,
      congrArg CodeCrossing.fresh hhead, rEdge_deqOut_takes hempty⟩

/-! ### The reset of both domains (R190, R301, R321) -/

/-- The reset events check the capacity alone. -/
theorem raiseReset_eq {s : State} (hcap : 2 ≤ s.async.ring.cap) (heven : s.async.ring.cap % 2 = 0) (arst : Bool) :
    raiseReset arst s = .next { s with async := asyncReset arst s.free s.async, free := s.free + 1 } := by
  simp [raiseReset, firstRefusal_cons, asyncCapOk_iff.2 ⟨hcap, heven⟩]

theorem asyncReset_atReset (arst : Bool) (free : Nat) (a : AsyncFifo) : (asyncReset arst free a).AtReset :=
  ⟨rfl, rfl, rfl, rfl, rfl, rfl, rfl, rfl, rfl, rfl, rfl, rfl, rfl, rfl, rfl⟩

/-- At reset each side sees the buffer empty, and not full, since the codes of 0 and of its neighbours differ. -/
theorem AsyncFifo.AtReset.flags {a : AsyncFifo} (h : a.AtReset) (hcap : 2 ≤ a.ring.cap) (heven : a.ring.cap % 2 = 0) :
    a.emptyW = true ∧ a.emptyR = true ∧ a.fullW = false ∧ a.fullR = false := by
  obtain ⟨-, hhead, htail, -, -, htailGray, hheadGray, -, hhs2, -, hts2, -⟩ := h
  have hpos : 0 < a.ring.cap := by omega
  refine ⟨emptyW_iff.2 (htailGray.trans hhs2.symm), emptyR_iff.2 (hheadGray.trans hts2.symm),
    Bool.eq_false_iff.2 fun hfull => ?_, Bool.eq_false_iff.2 fun hfull => ?_⟩
  · rw [fullW_iff, htail, hhs2, next_eq hpos, if_neg (by omega)] at hfull
    exact absurd (gray_injective heven hcap hpos hfull) (by decide)
  · rw [fullR_iff, hhead, hts2, prev, Nat.zero_add, Nat.mod_eq_of_lt (by omega)] at hfull
    have := gray_injective heven hpos (by omega) hfull
    omega

/-- Settles O25: a legal capacity is all the rise of `arst` asks for; A.RUN writes the level `arst` has. -/
theorem aInitResetsBothDomains : Obligations.AInitResetsBothDomains := by
  unfold Obligations.AInitResetsBothDomains
  refine fun s hcap heven => ⟨⟨_, raiseReset_eq hcap heven false, ?_⟩, fun h harst => ?_⟩
  · have hreset := asyncReset_atReset false s.free s.async
    exact ⟨⟨rfl, rfl, rfl, rfl, rfl⟩, rfl, rfl, hreset, rfl, rfl, rfl, hreset.flags hcap heven⟩
  · have same : ({ s with async := { s.async with arst := false } } : State) = s := by rw [← harst]
    exact (h.guarded _).trans (congrArg _ same)

/-- Settles O26: under a held `arst` an edge takes its held branch. -/
theorem heldResetFreezesTheBlock : Obligations.HeldResetFreezesTheBlock := by
  unfold Obligations.HeldResetFreezesTheBlock
  refine fun s d =>
    ⟨fun hcap heven => ⟨_, raiseReset_eq hcap heven true, ?_⟩, fun h harst => ⟨?_, ⟨heldREdge s, ?_⟩, ?_⟩⟩
  · exact ⟨⟨rfl, rfl, rfl, rfl, rfl⟩, asyncReset_atReset .., rfl, rfl⟩
  · exact (h.guarded _).trans (unlessHeld_quiet harst)
  · exact ⟨(h.guarded _).trans (unlessHeld_quiet harst), ⟨rfl, rfl, rfl, rfl, rfl⟩, rfl, rfl⟩
  · exact ⟨(h.guarded _).trans (unlessHeld_request harst), (h.guarded _).trans (unlessHeld_request harst), h.guarded _⟩

end Sys2Proof.Machine

namespace Sys2Proof.Machine

/-! ### What each side sees of a quiet other side (R199) -/

section

variable {s t : State} {deq enq : Bool} {d : Byte}

theorem Sampled.eq_of_stable {α : Type} {fresh : Bool} {old cur v : α} (h : Sampled fresh old cur v)
    (hfresh : fresh = false) : v = cur := by
  obtain hv | ⟨hf, -⟩ := h
  · exact hv
  · simp [hfresh] at hf

@[simp] theorem rEdge_ts2 : (rEdge deq s).async.ts2 = s.async.ts1 := (rEdge_shifts deq s).1

@[simp] theorem rEdge_tailFresh : (rEdge deq s).async.tailFresh = false := by
  obtain ⟨-, -, -, -, hfresh, -⟩ := rEdge_shifts deq s
  exact hfresh

@[simp] theorem rEdge_tailGray : (rEdge deq s).async.tailGray = s.async.tailGray := by
  obtain ⟨-, -, -, -, -, -, hgray, -⟩ := rEdge_shifts deq s
  exact hgray

theorem rEdge_ts1_of_stable (hfresh : s.async.tailFresh = false) : (rEdge deq s).async.ts1 = s.async.tailGray := by
  obtain ⟨-, hsampled, -⟩ := rEdge_shifts deq s
  exact hsampled.eq_of_stable hfresh

@[simp] theorem wEdge_hs2 : (wEdge enq d s).async.hs2 = s.async.hs1 := (wEdge_shifts enq d s).1

@[simp] theorem wEdge_headFresh : (wEdge enq d s).async.headFresh = false := by
  obtain ⟨-, -, -, -, hfresh, -⟩ := wEdge_shifts enq d s
  exact hfresh

@[simp] theorem wEdge_headGray : (wEdge enq d s).async.headGray = s.async.headGray := by
  obtain ⟨-, -, -, -, -, -, hgray, -⟩ := wEdge_shifts enq d s
  exact hgray

theorem wEdge_hs1_of_stable (hfresh : s.async.headFresh = false) : (wEdge enq d s).async.hs1 = s.async.headGray := by
  obtain ⟨-, hsampled, -⟩ := wEdge_shifts enq d s
  exact hsampled.eq_of_stable hfresh

/-- The registers that hold code words (R105), as `AsyncReady` lists them. -/
def AsyncFifo.codeRegisters (a : AsyncFifo) : List Nat :=
  [a.tailGray, a.hs1, a.hs2, a.headGray, a.ts1, a.ts2, a.tailPrev, a.headPrev]

/-- A block stays ready when its ring buffer stays and its code registers take their values from one another. -/
theorem AsyncReady.of_codeRegisters (h : AsyncReady s) (hring : t.async.ring = s.async.ring)
    (hup : t.async.up = s.async.up) (hcodes : t.async.codeRegisters ⊆ s.async.codeRegisters) : AsyncReady t := by
  obtain ⟨hcap, heven, hsup, hhead, htail, hsCodes⟩ := h
  unfold AsyncReady
  rw [hring]
  exact ⟨hcap, heven, hup.trans hsup, hhead, htail, fun g hg => hsCodes g (hcodes hg)⟩

/-- An edge without a request leaves a running block ready for the next one. -/
theorem rNopEdge_ready (h : AsyncReady s) (harst : s.async.arst = false) :
    AsyncReady (rEdge false s) ∧ (rEdge false s).async.arst = false := by
  obtain ⟨hts2, hsampled, -, -, -, htailPrev, htailGray, hhs1, hhs2, -, hup, harst'⟩ := rEdge_shifts false s
  obtain ⟨hring, hhead⟩ := rEdge_stays (deq := false) (s := s) rfl
  have hheadGray : (rEdge false s).async.headGray = s.async.headGray := congrArg CodeCrossing.code hhead
  have hheadPrev : (rEdge false s).async.headPrev = s.async.headPrev := congrArg CodeCrossing.prev hhead
  refine ⟨h.of_codeRegisters hring hup ?_, harst'.trans harst⟩
  rw [AsyncFifo.codeRegisters, hts2, htailPrev, htailGray, hhs1, hhs2, hheadGray, hheadPrev]
  rcases hsampled with hts1 | ⟨-, hts1⟩ <;> simp [AsyncFifo.codeRegisters, hts1]

theorem wNopEdge_ready (h : AsyncReady s) (harst : s.async.arst = false) (d : Byte) :
    AsyncReady (wEdge false d s) ∧ (wEdge false d s).async.arst = false := by
  obtain ⟨hhs2, hsampled, -, -, -, hheadPrev, hheadGray, hts1, hts2, -, hup, harst'⟩ := wEdge_shifts false d s
  obtain ⟨hring, htail⟩ := wEdge_stays (enq := false) (d := d) (s := s) rfl
  have htailGray : (wEdge false d s).async.tailGray = s.async.tailGray := congrArg CodeCrossing.code htail
  have htailPrev : (wEdge false d s).async.tailPrev = s.async.tailPrev := congrArg CodeCrossing.prev htail
  refine ⟨h.of_codeRegisters hring hup ?_, harst'.trans harst⟩
  rw [AsyncFifo.codeRegisters, hhs2, hheadPrev, hheadGray, hts1, hts2, htailGray, htailPrev]
  rcases hsampled with hhs1 | ⟨-, hhs1⟩ <;> simp [AsyncFifo.codeRegisters, hhs1]

end

/-- Settles O31: after one edge the crossing is stable, so the second edge samples the register as it is, and the third
moves that into the view. -/
theorem viewsAreExactAfterThreeEdges : Obligations.ViewsAreExactAfterThreeEdges := by
  unfold Obligations.ViewsAreExactAfterThreeEdges
  refine fun s h harst => ⟨?_, ?_⟩
  · obtain ⟨ha, harstA⟩ := rNopEdge_ready h harst
    obtain ⟨hb, harstB⟩ := rNopEdge_ready ha harstA
    refine ⟨_, _, _, exec_rNop h harst, exec_rNop ha harstA, exec_rNop hb harstB, ?_, ?_, rEdge_ts1_of_stable⟩
    · rw [rEdge_ts2, rEdge_ts1_of_stable rEdge_tailFresh, rEdge_tailGray]
    · exact rEdge_ts2.trans
  · obtain ⟨ha, harstA⟩ := wNopEdge_ready h harst 0
    obtain ⟨hb, harstB⟩ := wNopEdge_ready ha harstA 0
    refine ⟨_, _, _, exec_wNop h harst, exec_wNop ha harstA, exec_wNop hb harstB, ?_, ?_, wEdge_hs1_of_stable⟩
    · rw [wEdge_hs2, wEdge_hs1_of_stable wEdge_headFresh, wEdge_headGray]
    · exact wEdge_hs2.trans

end Sys2Proof.Machine

namespace Sys2Proof.Machine

/-! ### The chain of the six counts (R197), read as what each side knows -/

/-- Codes of residues determine the counts of a range shorter than the capacity (R103, R196). -/
theorem gray_residue_eq_iff {n a b : Nat} (hpos : 0 < n) (heven : n % 2 = 0) (hab : a ≤ b) (hba : b < a + n) :
    gray n (a % n) = gray n (b % n) ↔ a = b := by
  refine ⟨fun hcode => ?_, fun h => by rw [h]⟩
  have hmod : a ≡ b [MOD n] := gray_injective heven (Nat.mod_lt a hpos) (Nat.mod_lt b hpos) hcode
  have := Nat.eq_zero_of_dvd_of_lt ((Nat.modEq_iff_dvd' hab).1 hmod) (by omega)
  omega

namespace CodeCrossing

/-- The registers are the residues and codes of the counts `m` of the index, `k1` and `k2` of the stages, and a fresh
change is one step that the other side has not sampled (R182, R196, R197). -/
structure Ok (n m k1 k2 : Nat) (c : CodeCrossing) : Prop where
  index : c.index = m % n
  code : c.code = gray n c.index
  stage1 : c.stage1 = gray n (k1 % n)
  stage2 : c.stage2 = gray n (k2 % n)
  prev : ∃ i < n, c.prev = gray n i
  fresh : c.fresh = true → k1 + 1 ≤ m ∧ c.prev = gray n ((m - 1) % n)

namespace Ok

variable {n m k1 k2 v : Nat} {c : CodeCrossing} (h : c.Ok n m k1 k2)

include h

theorem code_eq : c.code = gray n (m % n) := h.code.trans (by rw [h.index])

/-- The sample is the code of a count between the first stage's and the index's. -/
theorem shift (hle : k1 ≤ m) (hv : Sampled c.fresh c.prev c.code v) :
    ∃ k, k1 ≤ k ∧ k ≤ m ∧ (c.shift v).Ok n m k k1 := by
  have after (k : Nat) (hk : v = gray n (k % n)) : (c.shift v).Ok n m k k1 :=
    ⟨h.index, h.code, hk, h.stage1, h.prev, nofun⟩
  obtain rfl | ⟨hfresh, rfl⟩ := hv
  · exact ⟨m, hle, le_rfl, after m h.code_eq⟩
  · obtain ⟨hlt, hprev⟩ := h.fresh hfresh
    exact ⟨m - 1, by omega, by omega, after _ hprev⟩

theorem rest : c.rest.Ok n m k1 k2 := ⟨h.index, h.code, h.stage1, h.stage2, h.prev, nofun⟩

theorem advance (hpos : 0 < n) (hle : k1 ≤ m) : (c.advance n).Ok n (m + 1) k1 k2 where
  index := (congrArg (next n) h.index).trans (next_mod n m)
  code := rfl
  stage1 := h.stage1
  stage2 := h.stage2
  prev := ⟨m % n, Nat.mod_lt m hpos, h.code_eq⟩
  fresh _ := ⟨by omega, h.code_eq⟩

end Ok

theorem ok_atReset {n : Nat} {c : CodeCrossing} (hpos : 0 < n)
    (h : c = ⟨0, gray n 0, gray n 0, false, gray n 0, gray n 0⟩) : c.Ok n 0 0 0 := by
  subst h
  have hzero : gray n 0 = gray n (0 % n) := by rw [Nat.zero_mod]
  exact ⟨(Nat.zero_mod n).symm, rfl, hzero, hzero, ⟨0, hpos, rfl⟩, nofun⟩

end CodeCrossing

/-- `AsyncFifo.Cdc` with the counts of the stages given. -/
structure AsyncFifo.Counts (a : AsyncFifo) (h2 h1 t2 t1 : Nat) : Prop where
  chain : h2 ≤ h1 ∧ h1 ≤ a.ring.ghostH ∧ a.ring.ghostH ≤ t2 ∧ t2 ≤ t1 ∧ t1 ≤ a.ring.ghostT ∧
    a.ring.ghostT ≤ h2 + (a.ring.cap - 1)
  head : a.headCrossing.Ok a.ring.cap a.ring.ghostH h1 h2
  tail : a.tailCrossing.Ok a.ring.cap a.ring.ghostT t1 t2

theorem cdc_iff_counts (a : AsyncFifo) : a.Cdc ↔ ∃ h2 h1 t2 t1, a.Counts h2 h1 t2 t1 := by
  constructor
  · rintro ⟨h2, h1, t2, t1, hhs, hh1, hht, hts, ht1, hroom, hregisters⟩
    obtain ⟨hhead, htail, hhg, htg, hhs2, hhs1, hts2, hts1, hhp, htp, hhf, htf⟩ := hregisters
    exact ⟨h2, h1, t2, t1, ⟨hhs, hh1, hht, hts, ht1, hroom⟩, ⟨hhead, hhg, hhs1, hhs2, hhp, hhf⟩,
      ⟨htail, htg, hts1, hts2, htp, htf⟩⟩
  · rintro ⟨h2, h1, t2, t1, ⟨hhs, hh1, hht, hts, ht1, hroom⟩, ⟨hhead, hhg, hhs1, hhs2, hhp, hhf⟩,
      ⟨htail, htg, hts1, hts2, htp, htf⟩⟩
    exact ⟨h2, h1, t2, t1, hhs, hh1, hht, hts, ht1, hroom, hhead, htail, hhg, htg, hhs2, hhs1, hts2, hts1, hhp, htp,
      hhf, htf⟩

theorem Ring.GhostOk.inRange {r : Ring} (h : r.GhostOk) (hcap : 2 ≤ r.cap) : r.inRange = true := by
  obtain ⟨hhead, htail, -, -⟩ := h
  have hpos : 0 < r.cap := by omega
  exact (inRange_iff r).2 ⟨hhead ▸ Nat.mod_lt _ hpos, htail ▸ Nat.mod_lt _ hpos⟩

/-- The occupancy is the distance of the ghost counts (R24, R27). -/
theorem Ring.GhostOk.occ_eq {r : Ring} (h : r.GhostOk) (hcap : 2 ≤ r.cap) : r.occ = r.ghostT - r.ghostH := by
  have hr := h.inRange hcap
  obtain ⟨hhead, htail, hle, hroom⟩ := h
  have hocc := occ_le hcap hr
  have hmod : r.ghostH + r.occ ≡ r.ghostH + (r.ghostT - r.ghostH) [MOD r.cap] := by
    rw [Nat.ModEq, Nat.add_sub_cancel' hle, ← htail, ← head_add_occ hr, hhead, Nat.mod_add_mod]
  exact (Nat.ModEq.add_left_cancel' _ hmod).eq_of_lt_of_lt (by omega) (by omega)

/-! ### The status bits as comparisons of counts (R184, R185, R198) -/

namespace AsyncFifo.Counts

variable {a : AsyncFifo} {h2 h1 t2 t1 : Nat} (h : a.Counts h2 h1 t2 t1)

include h

theorem ghostOk : a.ring.GhostOk := by
  have := h.chain
  exact ⟨h.head.index, h.tail.index, by omega, by omega⟩

variable (hcap : 2 ≤ a.ring.cap) (heven : a.ring.cap % 2 = 0)

include hcap

theorem occ_eq : a.ring.occ = a.ring.ghostT - a.ring.ghostH := h.ghostOk.occ_eq hcap

include heven

theorem fullW_iff_count : a.fullW = true ↔ a.ring.ghostT = h2 + (a.ring.cap - 1) := by
  have := h.chain
  have htail : a.ring.tail = a.ring.ghostT % a.ring.cap := h.tail.index
  have hhs2 : a.hs2 = gray a.ring.cap ((h2 + a.ring.cap) % a.ring.cap) := by
    rw [Nat.add_mod_right]
    exact h.head.stage2
  rw [fullW_iff, htail, next_mod, hhs2, gray_residue_eq_iff (by omega) heven (by omega) (by omega)]
  omega

theorem emptyW_iff_count : a.emptyW = true ↔ a.ring.ghostT = h2 := by
  have := h.chain
  have hhs2 : a.hs2 = gray a.ring.cap (h2 % a.ring.cap) := h.head.stage2
  have htailGray : a.tailGray = gray a.ring.cap (a.ring.ghostT % a.ring.cap) := h.tail.code_eq
  rw [emptyW_iff, htailGray, hhs2, eq_comm, gray_residue_eq_iff (by omega) heven (by omega) (by omega),
    eq_comm]

theorem emptyR_iff_count : a.emptyR = true ↔ a.ring.ghostH = t2 := by
  have := h.chain
  have hts2 : a.ts2 = gray a.ring.cap (t2 % a.ring.cap) := h.tail.stage2
  have hheadGray : a.headGray = gray a.ring.cap (a.ring.ghostH % a.ring.cap) := h.head.code_eq
  rw [emptyR_iff, hheadGray, hts2, gray_residue_eq_iff (by omega) heven (by omega) (by omega)]

theorem fullR_iff_count : a.fullR = true ↔ t2 = a.ring.ghostH + (a.ring.cap - 1) := by
  have := h.chain
  have hhead : a.ring.head = a.ring.ghostH % a.ring.cap := h.head.index
  have hts2 : a.ts2 = gray a.ring.cap (t2 % a.ring.cap) := h.tail.stage2
  have hprev : prev a.ring.cap a.ring.head = (a.ring.ghostH + (a.ring.cap - 1)) % a.ring.cap := by
    rw [prev, hhead, Nat.add_sub_assoc (by omega), Nat.mod_add_mod]
  rw [fullR_iff, hts2, hprev, gray_residue_eq_iff (by omega) heven (by omega) (by omega)]

/-- The head the writer knows is not ahead of the real one, nor is the tail the reader knows, so a writer may only miss
room and a reader may only miss an element (R198). -/
theorem conservative :
    (a.ring.occ = a.ring.cap - 1 → a.fullW = true) ∧ (a.emptyW = true → a.ring.occ = 0) ∧
      (a.ring.occ = 0 → a.emptyR = true) ∧ (a.fullR = true → a.ring.occ = a.ring.cap - 1) := by
  have := h.chain
  rw [h.fullW_iff_count hcap heven, h.emptyW_iff_count hcap heven, h.emptyR_iff_count hcap heven,
    h.fullR_iff_count hcap heven, h.occ_eq hcap]
  omega

theorem ring_not_full (hfull : a.fullW = false) : a.ring.full = false := by
  obtain ⟨hfullW, -⟩ := h.conservative hcap heven
  refine Bool.eq_false_iff.2 fun hring => ?_
  simp [hfullW ((full_iff_occ hcap (h.ghostOk.inRange hcap)).1 hring)] at hfull

theorem ring_not_empty (hempty : a.emptyR = false) : a.ring.empty = false := by
  obtain ⟨-, -, hemptyR, -⟩ := h.conservative hcap heven
  refine Bool.eq_false_iff.2 fun hring => ?_
  simp [hemptyR ((occ_eq_zero_iff (h.ghostOk.inRange hcap)).2 hring)] at hempty

end AsyncFifo.Counts

/-! ### The invariant of `async_fifo` under its operations -/

namespace State.AsyncInv

variable {s t : State}

theorem exists_counts (h : s.AsyncInv) (hup : s.async.up = true) :
    ∃ h2 h1 t2 t1, s.async.Counts h2 h1 t2 t1 := by
  obtain ⟨-, -, -, hinv⟩ := h
  exact (cdc_iff_counts _).1 (hinv hup).1

/-- The ring buffer of a block that has been reset meets its own invariant. -/
theorem ring_inv (h : s.AsyncInv) (hup : s.async.up = true) : s.async.ring.Inv := by
  obtain ⟨h2, h1, t2, t1, hcounts⟩ := h.exists_counts hup
  obtain ⟨hcap, -, hstorage, hinv⟩ := h
  exact ⟨hcap, hcounts.ghostOk.inRange hcap, hstorage, hcounts.ghostOk, (hinv hup).2⟩

theorem of_counts {h2 h1 t2 t1 : Nat} (hring : s.async.ring.Inv) (heven : s.async.ring.cap % 2 = 0)
    (hcounts : s.async.Counts h2 h1 t2 t1) : s.AsyncInv := by
  obtain ⟨hcap, -, hstorage, -, hlive⟩ := hring
  exact ⟨hcap, heven, hstorage, fun _ => ⟨(cdc_iff_counts _).2 ⟨_, _, _, _, hcounts⟩, hlive⟩⟩

theorem of_async_eq (h : s.AsyncInv) (hasync : t.async = s.async) : t.AsyncInv := by
  unfold State.AsyncInv
  rwa [hasync]

end State.AsyncInv

section

variable {s t : State}

/-- An edge of `wclk`: the writer's view of the head moves up the chain, and a byte is stored only where the view before
the edge leaves room for it. -/
theorem wEdge_asyncInv (h : s.AsyncInv) (hup : s.async.up = true) (enq : Bool) (d : Byte) :
    (wEdge enq d s).AsyncInv := by
  obtain ⟨h2, h1, t2, t1, hc⟩ := h.exists_counts hup
  have hinv := h.ring_inv hup
  have hcap := hinv.two_le_cap
  obtain ⟨-, heven, -⟩ := h
  have hchain := hc.chain
  obtain ⟨-, hsampled, -⟩ := wEdge_shifts enq d s
  obtain ⟨k, hle, hge, hhead⟩ := hc.head.shift (by omega) hsampled
  rw [← wEdge_headCrossing] at hhead
  cases hstored : enq && !s.async.fullW with
  | false =>
    obtain ⟨hring, htail⟩ := wEdge_stays (d := d) hstored
    refine .of_counts (h2 := h1) (h1 := k) (t2 := t2) (t1 := t1) (hring ▸ hinv) (hring ▸ heven) ⟨?_, ?_, ?_⟩
    · rw [hring]
      omega
    · rwa [hring]
    · rw [hring, htail]
      exact hc.tail.rest
  | true =>
    simp only [Bool.and_eq_true, Bool.not_eq_true'] at hstored
    obtain ⟨rfl, hfull⟩ := hstored
    obtain ⟨hring, htail⟩ := wEdge_stores (d := d) hfull
    have hroom := mt (hc.fullW_iff_count hcap heven).2 (by simp [hfull])
    have hpush := hinv.push (hc.ring_not_full hcap heven hfull) d
    refine .of_counts (h2 := h1) (h1 := k) (t2 := t2) (t1 := t1) (hring ▸ hpush) (hring ▸ heven) ⟨?_, ?_, ?_⟩
    · simp only [hring, push_cap, push_ghostH, push_ghostT]
      omega
    · rwa [hring]
    · rw [hring, htail]
      exact hc.tail.advance (by omega) (by omega)

/-- An edge of `rclk`: the reader's view of the tail moves up the chain, and an element is taken only where the view
before the edge shows one. -/
theorem rEdge_asyncInv (h : s.AsyncInv) (hup : s.async.up = true) (deq : Bool) : (rEdge deq s).AsyncInv := by
  obtain ⟨h2, h1, t2, t1, hc⟩ := h.exists_counts hup
  have hinv := h.ring_inv hup
  have hcap := hinv.two_le_cap
  obtain ⟨-, heven, -⟩ := h
  have hchain := hc.chain
  obtain ⟨-, hsampled, -⟩ := rEdge_shifts deq s
  obtain ⟨k, hle, hge, htail⟩ := hc.tail.shift (by omega) hsampled
  rw [← rEdge_tailCrossing] at htail
  cases htaken : deq && !s.async.emptyR with
  | false =>
    obtain ⟨hring, hhead⟩ := rEdge_stays htaken
    refine .of_counts (h2 := h2) (h1 := h1) (t2 := t1) (t1 := k) (hring ▸ hinv) (hring ▸ heven) ⟨?_, ?_, ?_⟩
    · rw [hring]
      omega
    · rw [hring, hhead]
      exact hc.head.rest
    · rwa [hring]
  | true =>
    simp only [Bool.and_eq_true, Bool.not_eq_true'] at htaken
    obtain ⟨rfl, hempty⟩ := htaken
    obtain ⟨hring, hhead⟩ := rEdge_takes hempty
    have hsome := mt (hc.emptyR_iff_count hcap heven).2 (by simp [hempty])
    have hpop := hinv.pop (hc.ring_not_empty hcap heven hempty)
    refine .of_counts (h2 := h2) (h1 := h1) (t2 := t1) (t1 := k) (hring ▸ hpop) (hring ▸ heven) ⟨?_, ?_, ?_⟩
    · simp only [hring, pop_cap, pop_ghostH, pop_ghostT]
      omega
    · rw [hring, hhead]
      exact hc.head.advance (by omega) (by omega)
    · rwa [hring]

/-- At reset every count is 0. -/
theorem AsyncFifo.AtReset.counts {a : AsyncFifo} (h : a.AtReset) (hpos : 0 < a.ring.cap) : a.Counts 0 0 0 0 := by
  obtain ⟨-, hhead, htail, hH, hT, htailGray, hheadGray, hhs1, hhs2, hts1, hts2, htailPrev, hheadPrev, htailFresh,
    hheadFresh⟩ := h
  refine ⟨by omega, ?_, ?_⟩
  · rw [hH]
    exact CodeCrossing.ok_atReset hpos (by simp [AsyncFifo.headCrossing, *])
  · rw [hT]
    exact CodeCrossing.ok_atReset hpos (by simp [AsyncFifo.tailCrossing, *])

theorem raiseReset_asyncInv (h : s.AsyncInv) (arst : Bool) : Ensures State.AsyncInv (raiseReset arst s) := by
  obtain ⟨hcap, heven, hstorage, -⟩ := h
  have hcounts := (asyncReset_atReset arst s.free s.async).counts (show 0 < s.async.ring.cap by omega)
  exact (ensures_next.2 (.of_counts (init_inv hcap hstorage) heven hcounts)).guarded _

/-- Every operation of the block makes the checks, so it runs after the first reset (R303). -/
theorem guarded_asyncInv {go : Result} (h : s.async.up = true → Ensures State.AsyncInv go) :
    Ensures State.AsyncInv (guarded (asyncGuard s) go) := by
  intro t ht
  obtain ⟨hready, ht⟩ := guarded_next.1 ht
  obtain ⟨-, -, hup, -⟩ := (asyncGuard_iff s).1 hready
  exact h hup t ht

theorem heldREdge_asyncInv (h : s.AsyncInv) : (heldREdge s).AsyncInv := h

theorem clearArst_asyncInv (h : s.AsyncInv) :
    ({ s with async := { s.async with arst := false } } : State).AsyncInv := h

/-- The commands of the other blocks leave `async_fifo` alone. -/
theorem exec_asyncInv (h : s.AsyncInv) (i : Instr) : Ensures State.AsyncInv (exec i s) := by
  by_cases hi : .async ∈ commandMoves i
  · cases i with
    | wNop => exact guarded_asyncInv fun hup => unlessHeld_ensures h (wEdge_asyncInv h hup _ _)
    | wEnq d => exact guarded_asyncInv fun hup => unlessHeld_ensures h (wEdge_asyncInv h hup _ _)
    | rNop => exact guarded_asyncInv fun hup => unlessHeld_ensures (heldREdge_asyncInv h) (rEdge_asyncInv h hup _)
    | rDeq => exact guarded_asyncInv fun hup => unlessHeld_ensures (heldREdge_asyncInv h) (rEdge_asyncInv h hup _)
    | aRun => exact (ensures_next.2 (clearArst_asyncInv h)).guarded _
    | aInit => exact raiseReset_asyncInv h false
    | _ => simp [commandMoves, uartInitMoves] at hi
  · exact (exec_movesOnly i s).mono fun t ht => h.of_async_eq (ht.same .async hi)

theorem async_not_mem_microStepMoves {f : Fg} : .async ∉ microStepMoves f := by
  cases f <;> simp [microStepMoves, uartInitMoves]

/-- An event that does not leave `async_fifo` alone is a command or the rise of a held `arst`. -/
theorem runEvent_async_cases {e : Event} (ht : runEvent e s = .next t) :
    t.async = s.async ∨ (∃ i, e.command = some i ∧ exec i s = .next t) ∨
      (e = .holdReset ∧ raiseReset true s = .next t) := by
  by_cases hasync : t.async = s.async
  · exact .inl hasync
  · obtain ⟨i, hi, -⟩ | ⟨-, hp⟩ | ⟨-, hp⟩ | ⟨rfl, -⟩ := runEvent_movedBy ht (p := .async) hasync
    · exact .inr (.inl ⟨i, hi, by rwa [runEvent_command hi] at ht⟩)
    · exact absurd hp async_not_mem_microStepMoves
    · simp at hp
    · exact .inr (.inr ⟨rfl, ht⟩)

theorem runEvent_asyncInv (h : s.AsyncInv) (e : Event) : Ensures State.AsyncInv (runEvent e s) := by
  intro t ht
  obtain hasync | ⟨i, -, hexec⟩ | ⟨-, hreset⟩ := runEvent_async_cases ht
  · exact h.of_async_eq hasync
  · exact exec_asyncInv h i t hexec
  · exact raiseReset_asyncInv h true t hreset

end

/-- Settles O27: an edge moves the counts of its own synchroniser up the chain and its own index by at most one, within
what it knows of the other side; a reset sets every count to 0; every other event leaves `async_fifo` alone. -/
theorem asyncInvariantKept : Obligations.AsyncInvariantKept := by
  unfold Obligations.AsyncInvariantKept
  intro s t h ht
  obtain ⟨e, rest, -, hrun⟩ := step_next ht
  have hfetch : ({ s with pending := rest } : State).AsyncInv := h
  exact runEvent_asyncInv hfetch e t hrun

/-- Settles O29: each status bit is a comparison of counts of the chain. -/
theorem asyncStatusBitsAreConservative : Obligations.AsyncStatusBitsAreConservative := by
  unfold Obligations.AsyncStatusBitsAreConservative
  intro s h hup
  obtain ⟨h2, h1, t2, t1, hcounts⟩ := h.exists_counts hup
  obtain ⟨hcap, heven, -⟩ := h
  exact hcounts.conservative hcap heven

end Sys2Proof.Machine

namespace Sys2Proof.Machine

/-! ### What each command does with the ring buffer of `async_fifo` (R181, R201) -/

section

variable {s t : State} {e : Event}

/-- The ring buffer of `async_fifo` is the same in both states. -/
def KeepsAsyncRing (s t : State) : Prop := t.async.ring = s.async.ring

/-- Without a request or a reset, the ring buffer stays. -/
theorem exec_keeps_async_ring {i : Instr} (hw : ∀ d, i ≠ .wEnq d) (hr : i ≠ .rDeq) (hreset : i ≠ .aInit) :
    Ensures (KeepsAsyncRing s) (exec i s) := by
  by_cases hi : .async ∈ commandMoves i
  · cases i with
    | wNop =>
      have held : KeepsAsyncRing s (heldWEdge s) := rfl
      have edge : KeepsAsyncRing s (wEdge false 0 s) := (wEdge_stays rfl).1
      exact (unlessHeld_ensures held edge).guarded _
    | wEnq d => exact absurd rfl (hw d)
    | rNop =>
      have held : KeepsAsyncRing s (heldREdge s) := rfl
      have edge : KeepsAsyncRing s (rEdge false s) := (rEdge_stays rfl).1
      exact (unlessHeld_ensures held edge).guarded _
    | rDeq => exact absurd rfl hr
    | aRun =>
      have released : KeepsAsyncRing s { s with async := { s.async with arst := false } } := rfl
      exact (ensures_next.2 released).guarded _
    | aInit => exact absurd rfl hreset
    | _ => simp [commandMoves, uartInitMoves] at hi
  · exact (exec_movesOnly i s).mono fun t ht => congrArg AsyncFifo.ring (ht.same .async hi)

theorem runEvent_keeps_async_ring (ht : runEvent e s = .next t) (hw : ∀ d, e.command ≠ some (.wEnq d))
    (hr : e.command ≠ some .rDeq) (hreset : ¬ asyncResets e) : t.async.ring = s.async.ring := by
  obtain hasync | ⟨i, hi, hexec⟩ | ⟨rfl, -⟩ := runEvent_async_cases ht
  · rw [hasync]
  · refine exec_keeps_async_ring (fun d hd => hw d ?_) (fun hd => hr ?_) (fun hd => hreset (.inl ?_)) t hexec <;>
      rw [hi, hd]
  · exact absurd (.inr rfl) hreset

theorem asyncAccepted_wEnq {d : Byte} (h : e.command = some (.wEnq d)) :
    asyncAccepted e t = if t.async.enqOut.ok then [d] else [] := by
  simp [asyncAccepted, h]

theorem asyncAccepted_eq_nil (h : ∀ d, e.command ≠ some (.wEnq d)) : asyncAccepted e t = [] := by
  unfold asyncAccepted
  split
  · exact absurd ‹_› (h _)
  · rfl

theorem asyncDelivered_rDeq (h : e.command = some .rDeq) :
    asyncDelivered e t = if t.async.deqOut.ok then [t.async.deqOut.dout] else [] := by
  simp [asyncDelivered, h]

theorem asyncDelivered_eq_nil (h : e.command ≠ some .rDeq) : asyncDelivered e t = [] := by
  unfold asyncDelivered
  split
  · exact absurd ‹_› h
  · rfl

/-- A byte is stored behind the outstanding ones exactly when the write is answered ok. -/
theorem wEdge_contents (h : s.AsyncInv) (hup : s.async.up = true) (d : Byte) :
    (wEdge true d s).async.ring.contents .async =
      s.async.ring.contents .async ++ if (wEdge true d s).async.enqOut.ok then [d] else [] := by
  have hinv := h.ring_inv hup
  obtain ⟨h2, h1, t2, t1, hc⟩ := h.exists_counts hup
  obtain ⟨hcap, heven, -⟩ := h
  cases hfull : s.async.fullW with
  | true =>
    obtain ⟨hring, -⟩ := wEdge_stays (s := s) (enq := true) (d := d) (by simp [hfull])
    simp [hring, hfull]
  | false =>
    obtain ⟨hring, -⟩ := wEdge_stores (d := d) hfull
    rw [hring, contents_push .async d hcap hinv.inRange (hc.ring_not_full hcap heven hfull)]
    simp [hfull]

/-- The oldest outstanding byte is returned exactly when the read is answered ok. -/
theorem rEdge_contents (h : s.AsyncInv) (hup : s.async.up = true) :
    s.async.ring.contents .async =
      (if (rEdge true s).async.deqOut.ok then [(rEdge true s).async.deqOut.dout] else []) ++
        (rEdge true s).async.ring.contents .async := by
  have hinv := h.ring_inv hup
  obtain ⟨h2, h1, t2, t1, hc⟩ := h.exists_counts hup
  obtain ⟨hcap, heven, -⟩ := h
  cases hempty : s.async.emptyR with
  | true =>
    obtain ⟨hring, -⟩ := rEdge_stays (s := s) (deq := true) (by simp [hempty])
    simp [hring, hempty]
  | false =>
    obtain ⟨hring, -⟩ := rEdge_takes hempty
    rw [hring, rEdge_deqOut_takes hempty, contents_pop .async hcap hinv.inRange (hc.ring_not_empty hcap heven hempty)]
    rfl

end

/-- Settles O30: W.ENQ and R.DEQ act at the two ends of the queue, and nothing else but a reset touches it. -/
theorem asyncKeepsFifoOrder : Obligations.AsyncKeepsFifoOrder := by
  unfold Obligations.AsyncKeepsFifoOrder
  intro s t e h hup hreset ht
  by_cases hw : ∃ d, e.command = some (.wEnq d)
  · obtain ⟨d, hd⟩ := hw
    obtain ⟨-, -, rfl⟩ := guarded_request_next ((runEvent_command hd s).symm.trans ht)
    rw [asyncAccepted_wEnq hd, asyncDelivered_eq_nil (by simp [hd]), wEdge_contents h hup, List.nil_append]
  · have hw : ∀ d, e.command ≠ some (.wEnq d) := not_exists.1 hw
    rw [asyncAccepted_eq_nil hw, List.append_nil]
    by_cases hr : e.command = some .rDeq
    · obtain ⟨-, -, rfl⟩ := guarded_request_next ((runEvent_command hr s).symm.trans ht)
      rw [asyncDelivered_rDeq hr]
      exact rEdge_contents h hup
    · rw [asyncDelivered_eq_nil hr, List.nil_append, runEvent_keeps_async_ring ht hw hr hreset]

/-! ### The code registers (R182) -/

section

variable {s t : State}

/-- An index that stays or goes one step takes its code with it, by no bit or by one. -/
theorem gray_step {n i j : Nat} (hn : n % 2 = 0) (hi : i < n) (hj : j = i ∨ j = next n i) :
    gray n j = gray n i ∨ ∃ k, gray n i ^^^ gray n j = 2 ^ k := by
  obtain rfl | rfl := hj
  · exact .inl rfl
  · exact .inr (exists_gray_xor_next hn hi)

theorem wEnq_tail {d : Byte} (ht : exec (.wEnq d) s = .next t) :
    t.async.ring.tail = s.async.ring.tail ∨ t.async.ring.tail = next s.async.ring.cap s.async.ring.tail := by
  obtain ⟨-, -, rfl⟩ := guarded_request_next ht
  cases hfull : s.async.fullW with
  | true => exact .inl (congrArg Ring.tail (wEdge_stays (by simp [hfull])).1)
  | false => exact .inr (congrArg Ring.tail (wEdge_stores hfull).1)

theorem rDeq_head (ht : exec .rDeq s = .next t) :
    t.async.ring.head = s.async.ring.head ∨ t.async.ring.head = next s.async.ring.cap s.async.ring.head := by
  obtain ⟨-, -, rfl⟩ := guarded_request_next ht
  cases hempty : s.async.emptyR with
  | true => exact .inl (congrArg Ring.head (rEdge_stays (by simp [hempty])).1)
  | false => exact .inr (congrArg Ring.head (rEdge_takes hempty).1)

theorem State.AsyncInv.codes (h : s.AsyncInv) (hup : s.async.up = true) :
    s.async.tailGray = gray s.async.ring.cap s.async.ring.tail ∧
      s.async.headGray = gray s.async.ring.cap s.async.ring.head := by
  obtain ⟨_, _, _, _, hcounts⟩ := h.exists_counts hup
  exact ⟨hcounts.tail.code, hcounts.head.code⟩

end

/-- Settles O28: each code register is the code of its index, which only its own accepted request moves, by one step. -/
theorem codeRegistersChangeOneBit : Obligations.CodeRegistersChangeOneBit := by
  unfold Obligations.CodeRegistersChangeOneBit
  intro s t i h hup ht hreset
  have keeps := exec_keepsParameters i s t ht
  obtain ⟨htail, hhead⟩ := h.codes hup
  obtain ⟨htail', hhead'⟩ := (exec_asyncInv h i t ht).codes (keeps.asyncUp hup)
  obtain ⟨hheadLt, htailLt⟩ := (inRange_iff _).1 (h.ring_inv hup).inRange
  obtain ⟨-, heven, -⟩ := h
  refine ⟨htail, hhead, htail', hhead', ?_, ?_⟩ <;> rw [keeps.asyncCap] at htail' hhead'
  · rw [htail, htail']
    by_cases hw : ∃ d, i = .wEnq d
    · obtain ⟨d, rfl⟩ := hw
      exact (gray_step heven htailLt (wEnq_tail ht)).imp_right fun hbit => ⟨⟨d, rfl⟩, hbit⟩
    · have same : t.async.ring.tail = s.async.ring.tail :=
        (exec_movesOnly i s t ht).same .asyncTail fun hmoves => (asyncTail_mem_commandMoves.1 hmoves).elim hreset hw
      exact .inl (congrArg _ same)
  · rw [hhead, hhead']
    by_cases hr : i = .rDeq
    · subst hr
      exact (gray_step heven hheadLt (rDeq_head ht)).imp_right fun hbit => ⟨rfl, hbit⟩
    · have same : t.async.ring.head = s.async.ring.head :=
        (exec_movesOnly i s t ht).same .asyncHead fun hmoves => (asyncHead_mem_commandMoves.1 hmoves).elim hreset hr
      exact .inl (congrArg _ same)

end Sys2Proof.Machine

namespace Sys2Proof.Machine

/-! ### A command changes its own block alone (R35, R180, R230) -/

section

variable {s t u : State} {i : Instr}

theorem OnlyUart.trans (h : OnlyUart s t) (h' : OnlyUart t u) : OnlyUart s u := by
  obtain ⟨hsync, hasync, hquery, hparams, hpending⟩ := h
  obtain ⟨hsync', hasync', hquery', hparams', hpending'⟩ := h'
  exact ⟨hsync'.trans hsync, hasync'.trans hasync, hquery'.trans hquery, hparams'.trans hparams,
    hpending'.trans hpending⟩

theorem OnlyUart.ensures_trans {r : Result} (h : OnlyUart s t) (hr : Ensures (OnlyUart t) r) :
    Ensures (OnlyUart s) r :=
  hr.mono fun _ => h.trans

theorem onlyUart_with (s : State) (v : Transport) : OnlyUart s { s with uart := v } := ⟨rfl, rfl, rfl, rfl, rfl⟩

theorem respond_onlyUart (a : Answer) (s : State) : OnlyUart s (respond a s) := ⟨rfl, rfl, rfl, rfl, rfl⟩

theorem respondByte_onlyUart (b : Byte) (s : State) : OnlyUart s (respondByte b s) := onlyUart_with ..

theorem takeDraw_onlyUart (racing : Bool) (s : State) : OnlyUart s (takeDraw racing s).2 :=
  ⟨takeDraw_sync .., takeDraw_async .., takeDraw_query .., takeDraw_params .., takeDraw_pending ..⟩

theorem writeOutputRegister_onlyUart (b : Byte) (s : State) : Ensures (OnlyUart s) (writeOutputRegister b s) := by
  intro t ht
  obtain ⟨-, rfl⟩ := writeOutputRegister_next.1 ht
  exact onlyUart_with ..

theorem uartInitBody_onlyUart (s : State) : Ensures (OnlyUart s) (uartInitBody s) :=
  (ensures_next.2 ((onlyUart_with s s.uart.initialised).trans (respond_onlyUart ..))).guarded _

theorem primeBody_onlyUart (s : State) : Ensures (OnlyUart s) (primeBody s) := by
  unfold primeBody
  split
  · exact ensures_next.2 (respond_onlyUart ..)
  · split
    · exact ensures_next.2 (respond_onlyUart ..)
    · exact ((onlyUart_with s _).ensures_trans (writeOutputRegister_onlyUart _ _)).andThen
        fun u hu => ensures_next.2 (hu.trans (respond_onlyUart ..))

theorem execSend_onlyUart (d : Byte) (s : State) : Ensures (OnlyUart s) (execSend d s) := by
  refine Ensures.guarded (Ensures.guarded ?_ _) _
  split
  · exact ensures_next.2 (respond_onlyUart ..)
  · exact (onlyUart_with s _).ensures_trans (primeBody_onlyUart _)

theorem execReceive_onlyUart (s : State) : Ensures (OnlyUart s) (execReceive s) := by
  refine Ensures.guarded (Ensures.guarded ?_ _) _
  split
  · exact ensures_next.2 (respond_onlyUart ..)
  · exact ensures_next.2 ((onlyUart_with s _).trans (respondByte_onlyUart ..))

theorem txHandler_onlyUart (s : State) : Ensures (OnlyUart s) (txHandler s) := by
  unfold txHandler
  split
  · exact (onlyUart_with s _).ensures_trans (writeOutputRegister_onlyUart _ _)
  · exact ensures_next.2 (onlyUart_with ..)

theorem rxHandler_onlyUart (s : State) : Ensures (OnlyUart s) (rxHandler s) := by
  intro t ht
  obtain ⟨-, ht⟩ := readInputRegister_next.1 ht
  split at ht
  · exact ensures_next.2 (onlyUart_with ..) t ht
  · exact ensures_next.2 (onlyUart_with ..) t ht

theorem execHwTxDone_onlyUart (s : State) : Ensures (OnlyUart s) (execHwTxDone s) := by
  unfold execHwTxDone
  split
  · exact ensures_refused
  · exact ensures_next.2 (onlyUart_with ..)

theorem deliver_onlyUart (b : Byte) (s : State) : OnlyUart s (deliver b s) := onlyUart_with ..

theorem loseArrival_onlyUart (b : Byte) (s : State) : OnlyUart s (loseArrival b s) := onlyUart_with ..

theorem overrun_onlyUart (b : Byte) (s : State) : Ensures (OnlyUart s) (overrun b s) := by
  unfold overrun
  split
  · exact ensures_refused
  · exact ensures_next.2 (loseArrival_onlyUart b s)
  · exact ensures_next.2 (deliver_onlyUart b s)
  · refine ensures_next.2 ((takeDraw_onlyUart true s).trans ?_)
    split
    · exact deliver_onlyUart ..
    · exact loseArrival_onlyUart ..

theorem execHwRxByte_onlyUart (b : Byte) (s : State) : Ensures (OnlyUart s) (execHwRxByte b s) := by
  refine Ensures.guarded ?_ _
  split
  · exact overrun_onlyUart b s
  · exact ensures_next.2 (deliver_onlyUart b s)

theorem clkEdge_onlyUart (s : State) : OnlyUart s (clkEdge s) :=
  ((takeDraw_onlyUart _ s).trans (takeDraw_onlyUart _ _)).trans (onlyUart_with ..)

theorem execClk_onlyUart (s : State) : Ensures (OnlyUart s) (execClk s) := by
  unfold execClk
  split
  · exact ensures_refused
  · exact ensures_next.2 (clkEdge_onlyUart s)

theorem exec_onlyUart (hi : .uart ∈ commandMoves i) : Ensures (OnlyUart s) (exec i s) := by
  cases i with
  | tNop => exact ((ensures_next.2 (respond_onlyUart ..)).guarded _).guarded _
  | send d => exact execSend_onlyUart d s
  | receive => exact execReceive_onlyUart s
  | uartInit => exact (uartInitBody_onlyUart s).guarded _
  | prime => exact ((primeBody_onlyUart s).guarded _).guarded _
  | txIrq => exact takeInterrupt_ensures (txHandler_onlyUart s) _
  | rxIrq => exact takeInterrupt_ensures (rxHandler_onlyUart s) _
  | hwTxDone => exact execHwTxDone_onlyUart s
  | hwRxByte b => exact execHwRxByte_onlyUart b s
  | clk => exact execClk_onlyUart s
  | _ => simp [commandMoves, asyncResetMoves] at hi

theorem onlyAsync_with (s : State) (a : AsyncFifo) (n : Nat) : OnlyAsync s { s with async := a, free := n } :=
  ⟨rfl, rfl, rfl, rfl, rfl⟩

theorem raiseReset_onlyAsync (arst : Bool) (s : State) : Ensures (OnlyAsync s) (raiseReset arst s) :=
  (ensures_next.2 (onlyAsync_with s ..)).guarded _

theorem exec_onlyAsync (hi : .async ∈ commandMoves i) : Ensures (OnlyAsync s) (exec i s) := by
  have heldW : OnlyAsync s (heldWEdge s) := onlyAsync_with s s.async s.free
  have heldR : OnlyAsync s (heldREdge s) := onlyAsync_with ..
  cases i with
  | wNop => exact (unlessHeld_ensures heldW (wEdge_onlyAsync ..)).guarded _
  | wEnq d => exact (unlessHeld_ensures heldW (wEdge_onlyAsync ..)).guarded _
  | rNop => exact (unlessHeld_ensures heldR (rEdge_onlyAsync ..)).guarded _
  | rDeq => exact (unlessHeld_ensures heldR (rEdge_onlyAsync ..)).guarded _
  | aRun => exact (ensures_next.2 (onlyAsync_with s _ s.free)).guarded _
  | aInit => exact raiseReset_onlyAsync false s
  | _ => simp [commandMoves, uartInitMoves] at hi

theorem execInit_onlySync (s : State) : Ensures (OnlySync s) (execInit s) :=
  (ensures_next.2 ⟨rfl, rfl, rfl, rfl, rfl, rfl⟩).guarded _

theorem exec_onlySync (hi : .sync ∈ commandMoves i) : Ensures (OnlySync s) (exec i s) := by
  cases i with
  | nop => exact (ensures_next.2 (syncEdge_onlySync ..)).guarded _
  | enq d => exact (ensures_next.2 (syncEdge_onlySync ..)).guarded _
  | deq => exact (ensures_next.2 (syncEdge_onlySync ..)).guarded _
  | enqdeq d => exact (ensures_next.2 (syncEdge_onlySync ..)).guarded _
  | init => exact execInit_onlySync s
  | _ => simp [commandMoves, asyncResetMoves, uartInitMoves] at hi

/-- A query changes its own answer alone. -/
theorem guarded_answerQuery_next {why : Option Refusal} {b : Bool}
    (ht : guarded why (.next (answerQuery b s)) = .next t) : t = { s with query := t.query } := by
  obtain ⟨-, ht⟩ := guarded_next.1 ht
  obtain rfl := Host.Outcome.next.inj ht
  rfl

/-! The port of a command fixes its block; the reserved values of `top` belong to none, and answer nothing. -/
theorem sync_mem_commandMoves_of_port (hp : (encode i).1 = .x) : .sync ∈ commandMoves i := by
  cases i <;> simp_all [encode, commandMoves]

theorem async_mem_commandMoves_of_port (hp : (encode i).1 = .w ∨ (encode i).1 = .r ∨ (encode i).1 = .a) :
    .async ∈ commandMoves i := by
  cases i <;> simp_all [encode, commandMoves, asyncResetMoves]

theorem uart_mem_commandMoves_of_port (ht : exec i s = .next t)
    (hp : (encode i).1 = .t ∨ (∃ f, (encode i).1 = .e f) ∨ i = .hwTxDone ∨ (∃ b, i = .hwRxByte b) ∨ i = .clk) :
    .uart ∈ commandMoves i := by
  cases i with
  | tReserved5 => cases ht
  | tReserved6 => cases ht
  | tReserved7 => cases ht
  | _ => simp_all [encode, commandMoves, uartInitMoves]

end

/-- Settles O57: the port of a command fixes its block, and every operation of a block is made of changes of that block
alone. -/
theorem blocksAreIndependent : Obligations.BlocksAreIndependent := by
  unfold Obligations.BlocksAreIndependent
  refine fun i s t ht => ⟨fun hp => ?_, fun hp => ?_, fun hp => ?_, fun hp => ?_⟩
  · exact exec_onlySync (sync_mem_commandMoves_of_port hp) t ht
  · exact exec_onlyAsync (async_mem_commandMoves_of_port hp) t ht
  · obtain ⟨p, rfl⟩ | ⟨p, rfl⟩ := hp
    · exact guarded_answerQuery_next ht
    · exact guarded_answerQuery_next ht
  · exact exec_onlyUart (uart_mem_commandMoves_of_port ht hp) t ht

end Sys2Proof.Machine

namespace Sys2Proof.Machine

/-! ### The operations of the transport controller, case by case (R231 to R236, R243 to R249)

The states that they answer with, by name, and one equation per case. -/

/-- An accepted SEND's byte stands in TXQ (R232). -/
def acceptByte (d : Byte) (s : State) : State := { s with uart := { s.uart with txq := s.uart.txq.push d } }

/-- TXQ's oldest byte goes to the output register, whose condition is cleared (R233, R235). -/
def sendOldest (st : TxState) (s : State) : State :=
  { s with
    uart :=
      { s.uart with
        txq := s.uart.txq.pop
        txState := st
        outReg := some (s.uart.txq.cell .tx s.uart.txq.head)
        tx := s.uart.tx.clear } }

/-- TXH finds TXQ empty (R235). -/
def pauseTransmit (s : State) : State :=
  { s with uart := { s.uart with tx := s.uart.tx.clear, txState := .idle } }

/-- RXH reads the input register and stores its byte (R236). -/
def storeUnread (s : State) : State :=
  { s with uart := { s.uart with rx := s.uart.rx.clear, rxq := s.uart.rxq.push s.uart.inReg } }

/-- RXH reads the input register and finds RXQ full (R236). -/
def dropUnread (s : State) : State := { s with uart := { s.uart with rx := s.uart.rx.clear } }

/-- RECEIVE's byte has left RXQ (R234). -/
def takeReceived (s : State) : State := { s with uart := { s.uart with rxq := s.uart.rxq.pop } }

/-- The hardware takes the byte of the output register (R243). -/
def takeOutput (b : Byte) (s : State) : State :=
  { s with uart := { s.uart with wireTx := s.uart.wireTx ++ [b], outReg := none, tx := s.uart.tx.rise } }

section

variable {s t : State} {d : Byte} {go : Result}

/-! ### The checks -/

theorem guarded_fg (h : FgReady s) (go : Result) : guarded (fgGuard s) (guarded (uartGuard s) go) = go := by
  obtain ⟨hready, hidle⟩ := h
  rw [(fgGuard_iff s).2 hidle, (uartGuard_iff s).2 hready, guarded_none, guarded_none]

theorem guarded_fg_next : guarded (fgGuard s) (guarded (uartGuard s) go) = .next t ↔ FgReady s ∧ go = .next t := by
  rw [guarded_next, guarded_next, fgGuard_iff, uartGuard_iff, FgReady]
  tauto

theorem UartReady.txq_inRange (h : UartReady s) : s.uart.txq.inRange = true := by
  obtain ⟨-, -, -, hhead, htail, -⟩ := h
  exact (inRange_iff _).2 ⟨hhead, htail⟩

theorem UartReady.txq_cap (h : UartReady s) : 2 ≤ s.uart.txq.cap := by
  obtain ⟨hcap, -⟩ := h
  exact hcap

theorem UartReady.acceptByte_not_empty (h : UartReady s) (hfull : s.uart.txq.full = false) :
    (acceptByte d s).uart.txq.empty = false :=
  push_not_empty h.txq_cap h.txq_inRange hfull d

/-! ### The priming step, as it ends -/

theorem primeBody_sends (h : s.uart.txState = .idle) (hempty : s.uart.txq.empty = false)
    (hout : s.uart.outReg = none) : primeBody s = .next (respond .ok (sendOldest .transmitting s)) := by
  rw [primeBody_idle_nonempty h hempty]
  exact andThen_eq_next.2 ⟨_, writeOutputRegister_next.2 ⟨hout, rfl⟩, rfl⟩

theorem primeBody_busy (h : s.uart.txState = .idle) (hempty : s.uart.txq.empty = false)
    (hout : s.uart.outReg ≠ none) : primeBody s = .refused .outputBusy := by
  obtain ⟨b, hb⟩ := Option.ne_none_iff_exists'.1 hout
  rw [primeBody_idle_nonempty h hempty]
  simp [writeOutputRegister, hb]

theorem primeBody_nothing (h : s.uart.txState = .transmitting ∨ s.uart.txq.empty = true) :
    primeBody s = .next (respond .ok s) := by
  cases hst : s.uart.txState with
  | transmitting => exact primeBody_transmitting hst
  | idle => exact primeBody_idle_empty hst (h.resolve_left (by simp [hst]))

/-! ### FG's whole operations -/

theorem exec_tNop (h : FgReady s) : exec .tNop s = .next (respond .ok s) := guarded_fg h _

theorem exec_prime (h : FgReady s) : exec .prime s = primeBody s := guarded_fg h _

theorem exec_send_full (h : FgReady s) (hfull : s.uart.txq.full = true) :
    exec (.send d) s = .next (respond .bufferFull s) := by
  refine (guarded_fg h _).trans ?_
  rw [(enqueue_eq_none_iff ..).2 hfull]

theorem exec_send_room (h : FgReady s) (hfull : s.uart.txq.full = false) :
    exec (.send d) s = primeBody (acceptByte d s) := by
  refine (guarded_fg h _).trans ?_
  rw [(enqueue_eq_some_iff ..).2 ⟨hfull, rfl⟩]
  rfl

theorem exec_receive_empty (h : FgReady s) (hempty : s.uart.rxq.empty = true) :
    exec .receive s = .next (respond .bufferEmpty s) := by
  refine (guarded_fg h _).trans ?_
  rw [(dequeue_eq_none_iff ..).2 hempty]

theorem exec_receive_takes (h : FgReady s) (hempty : s.uart.rxq.empty = false) :
    exec .receive s = .next (respondByte (s.uart.rxq.cell .rx s.uart.rxq.head) (takeReceived s)) := by
  refine (guarded_fg h _).trans ?_
  rw [(dequeue_eq_some_iff ..).2 ⟨hempty, rfl, rfl⟩]
  rfl

theorem exec_uartInit (h : s.uart.fg = .idle) : exec .uartInit s = uartInitBody s := guarded_fgGuard h _

/-- What UART_INIT's own checks ask for (R231, R302). -/
theorem uartInitGuard_iff :
    uartInitGuard s = none ↔
      2 ≤ s.uart.txq.cap ∧ 2 ≤ s.uart.rxq.cap ∧ (s.uart.irqEnabled = true → s.uart.txState = .idle) ∧
        (s.uart.irqEnabled = false →
          s.uart.outReg = none ∧ s.uart.tx.cond = false ∧ s.uart.rx.cond = false) := by
  cases hst : s.uart.txState <;> cases hirq : s.uart.irqEnabled <;>
    simp [uartInitGuard, firstRefusal_cons_none, capOk_iff, Transport.boundaryIdle, hst, hirq, and_assoc]

theorem uartInitBody_eq (h : uartInitGuard s = none) :
    uartInitBody s = .next (respond .ok { s with uart := s.uart.initialised }) := by
  rw [uartInitBody, h, guarded_none]

/-! ### The handler runs -/

theorem takeInterrupt_enabled (h : UartReady s) {pending : Bool} (hreq : pending = true) (body : State → Result) :
    takeInterrupt pending body s = body s := by
  rw [takeInterrupt, (uartGuard_iff s).2 h, guarded_none, if_pos hreq]

theorem takeInterrupt_disabled (h : UartReady s) {pending : Bool} (hreq : pending = false) (body : State → Result) :
    takeInterrupt pending body s = .refused .irqNotEnabled := by
  rw [takeInterrupt, (uartGuard_iff s).2 h, guarded_none, hreq]
  rfl

theorem txHandler_sends (hempty : s.uart.txq.empty = false) (hout : s.uart.outReg = none) :
    txHandler s = .next (sendOldest s.uart.txState s) := by
  rw [txHandler, (dequeue_eq_some_iff ..).2 ⟨hempty, rfl, rfl⟩]
  exact writeOutputRegister_next.2 ⟨hout, rfl⟩

theorem txHandler_pauses (hempty : s.uart.txq.empty = true) : txHandler s = .next (pauseTransmit s) := by
  rw [txHandler, (dequeue_eq_none_iff ..).2 hempty]
  rfl

theorem rxHandler_drops (hcond : s.uart.rx.cond = true) (hfull : s.uart.rxq.full = true) :
    rxHandler s = .next (dropUnread s) := by
  refine readInputRegister_next.2 ⟨hcond, ?_⟩
  rw [(enqueue_eq_none_iff ..).2 hfull]
  rfl

theorem rxHandler_stores (hcond : s.uart.rx.cond = true) (hfull : s.uart.rxq.full = false) :
    rxHandler s = .next (storeUnread s) := by
  refine readInputRegister_next.2 ⟨hcond, ?_⟩
  rw [(enqueue_eq_some_iff ..).2 ⟨hfull, rfl⟩]
  rfl

/-! ### The steps of the hardware and of the core clock -/

theorem exec_hwTxDone {b : Byte} (h : s.uart.outReg = some b) : exec .hwTxDone s = .next (takeOutput b s) := by
  rw [exec, execHwTxDone, h]
  rfl

theorem exec_hwRxByte (h : s.uart.irqEnabled = true) (b : Byte) :
    exec (.hwRxByte b) s = if s.uart.rx.cond then overrun b s else .next (deliver b s) := by
  simp [exec, execHwRxByte, firstRefusal_cons, h]

theorem exec_clk (h : s.params.flagSync = .two) : exec .clk s = .next (clkEdge s) := by
  rw [exec, execClk, h]

end

end Sys2Proof.Machine

namespace Sys2Proof.Machine

/-! ### A step runs the presented event (R107, R250; log 3) -/

/-- Settles O5: the oldest event is fetched, and the word's decoding selects the meaning. -/
theorem stepRunsThePresentedEvent : Obligations.StepRunsThePresentedEvent := by
  unfold Obligations.StepRunsThePresentedEvent
  intro s rest
  have fetched {e : Event} (h : s.pending = e :: rest) : step s = runEvent e { s with pending := rest } := by
    simp [step, fetch, h]
  refine ⟨fun p w i hp hd => ?_, fun p w hp hd => ?_, fun p w hp hd => ?_, fun w i hp hd => ?_, fetched, fetched,
    fun hp => by simp [step, fetch, hp]⟩ <;> simp [fetched hp, runEvent, hd]

/-! ### FG's operations (R231 to R234, R248) -/

section

variable {s : State} {a : Answer} {u : Transport}

/-- An operation that has changed the transport controller alone ends with its answer. -/
theorem respond_fgAnswers (hirq : u.irqEnabled = true) : FgAnswers s (respond a { s with uart := u }) a.code :=
  ⟨rfl, rfl, hirq, onlyUart_with s { u with tres := a.code, rdata := Config.freeByte s.free, fg := .idle }, rfl⟩

theorem FgReady.respond_fgAnswers (h : FgReady s) (a : Answer) : FgAnswers s (respond a s) a.code := by
  obtain ⟨⟨-, -, hirq, -⟩, -⟩ := h
  exact Machine.respond_fgAnswers (u := s.uart) hirq

theorem respond_txPathSame (a : Answer) (s : State) : TxPathSame s (respond a s) := ⟨rfl, rfl, rfl, rfl, rfl⟩

theorem respond_rxPathSame (a : Answer) (s : State) : RxPathSame s (respond a s) := ⟨rfl, rfl, rfl, rfl⟩

end

/-- Settles O32: T.NOP answers, and a reserved `top` decodes to a command that answers nothing. -/
theorem tNopAnswersOk : Obligations.TNopAnswersOk := by
  unfold Obligations.TNopAnswersOk
  refine ⟨fun w => decode_t_nop, fun s w hw htop => ?_, fun s h => ⟨_, exec_tNop h, h.respond_fgAnswers .ok,
    respond_txPathSame .ok s, respond_rxPathSame .ok s⟩⟩
  obtain h5 | h6 | h7 := htop
  · simp [runEvent, decode_t_reserved5 hw h5, exec, execTReserved5]
  · simp [runEvent, decode_t_reserved6 hw h6, exec, execTReserved6]
  · simp [runEvent, decode_t_reserved7 hw h7, exec, execTReserved7]

/-- Settles O34: the checks pass or give the reason, and the interrupt enable tells the first UART_INIT from a later
one. -/
theorem uartInitFlushesBothQueues : Obligations.UartInitFlushesBothQueues := by
  unfold Obligations.UartInitFlushesBothQueues
  intro s htx hrx hfg
  rw [exec_uartInit hfg]
  refine ⟨fun hirq hout htxCond hrxCond => ?_, fun hirq hidle => ?_, fun hirq hbusy => ?_⟩
  · have hguard : uartInitGuard s = none :=
      uartInitGuard_iff.2 ⟨htx, hrx, by simp [hirq], fun _ => ⟨hout, htxCond, hrxCond⟩⟩
    exact ⟨_, uartInitBody_eq hguard, respond_fgAnswers rfl, init_flushed _, init_flushed _, rfl, hout, rfl,
      by simp [Transport.initialised, hirq]⟩
  · have hguard : uartInitGuard s = none := uartInitGuard_iff.2 ⟨htx, hrx, fun _ => hidle, by simp [hirq]⟩
    exact ⟨_, uartInitBody_eq hguard, respond_fgAnswers rfl, init_flushed _, init_flushed _, rfl, rfl, rfl,
      by simp [Transport.initialised, Crossing.zeroStages, hirq]⟩
  · simp [uartInitBody, uartInitGuard, firstRefusal_cons, capOk_iff.2 htx, capOk_iff.2 hrx, hirq, hbusy]

/-- The oldest byte of a queue after one more: the new one, if there was none (R232). -/
theorem cell_push_head (q : FifoId) (r : Ring) (d : Byte) :
    (r.push d).cell q r.head = if r.head = r.tail then d else r.cell q r.head := by
  obtain ⟨-, -, -, -, -, hbyte, hother⟩ := push_accepts q r d
  split
  · next heq => rw [heq, hbyte]
  · next hne => exact hother _ hne

/-- Settles O35: TXQ full, or the priming step from the state with the byte enqueued, which is Transmitting, Idle with
the output register free, or Idle with it busy. -/
theorem sendEnqueuesAndPrimes : Obligations.SendEnqueuesAndPrimes := by
  unfold Obligations.SendEnqueuesAndPrimes
  intro s d h
  have ⟨hready, _⟩ := h
  have ⟨_, _, hirq, _⟩ := hready
  refine ⟨fun hindices => ?_, fun hindices hbusy => ?_, fun hindices hidle hout => ?_, fun hindices hidle hout => ?_⟩
  · exact ⟨_, exec_send_full h ((full_iff _).2 hindices), h.respond_fgAnswers _, respond_txPathSame _ s,
      respond_rxPathSame _ s⟩
  · rw [exec_send_room h (full_eq_false_iff.2 hindices)]
    exact ⟨_, primeBody_transmitting hbusy, respond_fgAnswers hirq, ⟨rfl, rfl, rfl, rfl⟩, push_accepts .tx _ d, hbusy,
      rfl, rfl, rfl⟩
  · have hfull := full_eq_false_iff.2 hindices
    rw [exec_send_room h hfull]
    exact ⟨_, s.uart.txq.push d, primeBody_sends hidle (hready.acceptByte_not_empty hfull) hout,
      respond_fgAnswers hirq, ⟨rfl, rfl, rfl, rfl⟩, push_accepts .tx _ d, pop_releases _, rfl,
      congrArg some (cell_push_head .tx _ d), clear_clears _, rfl⟩
  · have hfull := full_eq_false_iff.2 hindices
    rw [exec_send_room h hfull]
    exact primeBody_busy hidle (hready.acceptByte_not_empty hfull) hout

/-- Settles O36: the four ways the priming step can end. -/
theorem primeStartsTheChain : Obligations.PrimeStartsTheChain := by
  unfold Obligations.PrimeStartsTheChain
  intro s h
  have ⟨⟨_, _, hirq, _⟩, _⟩ := h
  rw [exec_prime h]
  refine ⟨fun hnothing => ?_, fun hidle hindices hout => ?_, fun hidle hindices hout => ?_⟩
  · exact ⟨_, primeBody_nothing (hnothing.imp_right (empty_iff _).2), h.respond_fgAnswers _, respond_txPathSame _ s,
      respond_rxPathSame _ s⟩
  · exact ⟨_, primeBody_sends hidle (empty_eq_false_iff.2 hindices) hout, respond_fgAnswers hirq, ⟨rfl, rfl, rfl, rfl⟩,
      pop_releases _, rfl, rfl, clear_clears _, rfl⟩
  · exact primeBody_busy hidle (empty_eq_false_iff.2 hindices) hout

/-- Settles O37: RXQ empty or not. -/
theorem receiveReturnsOrReportsEmpty : Obligations.ReceiveReturnsOrReportsEmpty := by
  unfold Obligations.ReceiveReturnsOrReportsEmpty
  intro s h
  have ⟨⟨_, _, hirq, _⟩, _⟩ := h
  refine ⟨fun hindices => ?_, fun hindices => ?_⟩
  · exact ⟨_, exec_receive_empty h ((empty_iff _).2 hindices), h.respond_fgAnswers _, respond_txPathSame _ s,
      respond_rxPathSame _ s⟩
  · exact ⟨_, exec_receive_takes h (empty_eq_false_iff.2 hindices), ⟨rfl, rfl, hirq, onlyUart_with s _, rfl⟩,
      ⟨rfl, rfl, rfl, rfl, rfl⟩, pop_releases _, rfl, rfl, rfl, rfl⟩

/-! ### The handler runs (R235, R236, R267) -/

/-- A run that has changed neither FG nor the response port of the transport controller. -/
theorem handlerFrame_with {s : State} {u : Transport} (hfg : u.fg = s.uart.fg) (htres : u.tres = s.uart.tres)
    (hrdata : u.rdata = s.uart.rdata) (hirq : u.irqEnabled = s.uart.irqEnabled) :
    HandlerFrame s { s with uart := u } :=
  ⟨hfg, htres, hrdata, hirq, onlyUart_with s u, rfl⟩

/-- Settles O38: TXQ empty or not, and the request line at 0. -/
theorem txIrqSendsOneByteOrPauses : Obligations.TxIrqSendsOneByteOrPauses := by
  unfold Obligations.TxIrqSendsOneByteOrPauses
  intro s h
  refine ⟨fun hreq hindices hout => ?_, fun hreq hindices => ?_, fun hreq => takeInterrupt_disabled h hreq _⟩
  · exact ⟨_, (takeInterrupt_enabled h hreq _).trans (txHandler_sends (empty_eq_false_iff.2 hindices) hout),
      handlerFrame_with rfl rfl rfl rfl, ⟨rfl, rfl, rfl, rfl⟩, pop_releases _, rfl, clear_clears _, rfl, rfl⟩
  · exact ⟨_, (takeInterrupt_enabled h hreq _).trans (txHandler_pauses ((empty_iff _).2 hindices)),
      handlerFrame_with rfl rfl rfl rfl, ⟨rfl, rfl, rfl, rfl⟩, rfl, rfl, clear_clears _, rfl, rfl⟩

/-- Settles O39: RXQ full or not, and the request line at 0. -/
theorem rxIrqStoresOrDropsOneByte : Obligations.RxIrqStoresOrDropsOneByte := by
  unfold Obligations.RxIrqStoresOrDropsOneByte
  intro s h
  refine ⟨fun hreq hcond => ?_, fun hreq => takeInterrupt_disabled h hreq _⟩
  cases hfull : s.uart.rxq.full with
  | true =>
    exact ⟨_, (takeInterrupt_enabled h hreq _).trans (rxHandler_drops hcond hfull), handlerFrame_with rfl rfl rfl rfl,
      ⟨rfl, rfl, rfl, rfl, rfl⟩, clear_clears _, rfl, rfl, fun _ => rfl, fun hne => absurd ((full_iff _).1 hfull) hne⟩
  | false =>
    exact ⟨_, (takeInterrupt_enabled h hreq _).trans (rxHandler_stores hcond hfull), handlerFrame_with rfl rfl rfl rfl,
      ⟨rfl, rfl, rfl, rfl, rfl⟩, clear_clears _, rfl, rfl, fun heq => absurd heq (full_eq_false_iff.1 hfull),
      fun _ => push_accepts .rx _ _⟩

/-! ### The steps of the hardware and of the core clock (R246, R249) -/

/-- Settles O42: the four values of RX_OVERRUN; a condition that is 1 already does not rise. -/
theorem receiveOverrunFollowsTheParameter : Obligations.ReceiveOverrunFollowsTheParameter := by
  unfold Obligations.ReceiveOverrunFollowsTheParameter
  intro s b hirq hcond
  rw [exec_hwRxByte hirq, if_pos hcond]
  have stays : s.uart.rx.rise = s.uart.rx := if_pos hcond
  refine ⟨fun hnone => by rw [overrun, hnone], fun hsome => ?_⟩
  cases ho : s.params.rxOverrun with
  | none => exact absurd ho hsome
  | keepOld =>
    exact ⟨loseArrival b s, by rw [overrun, ho], loseArrival_onlyUart b s, ⟨rfl, rfl, rfl, rfl, rfl⟩, rfl, rfl, rfl,
      rfl, fun _ => rfl, nofun, nofun, nofun⟩
  | overwrite =>
    exact ⟨deliver b s, by rw [overrun, ho], deliver_onlyUart b s, ⟨rfl, rfl, rfl, rfl, rfl⟩, rfl, stays, rfl, rfl,
      nofun, fun _ => rfl, nofun, nofun⟩
  | either =>
    have frame := takeDraw_onlyUart true s
    have fixed : ∀ d ds, s.draws = d :: ds → (takeDraw true s).1 = d ∧ (takeDraw true s).2.draws = ds :=
      fun d ds hdraws => by rw [takeDraw_fixed hdraws]; exact ⟨rfl, rfl⟩
    cases hv : (takeDraw true s).1 with
    | true =>
      refine ⟨deliver b (takeDraw true s).2, by simp [overrun, ho, hv], frame.trans (deliver_onlyUart b _), ?_⟩
      exact ⟨by simp [TxPathSame, deliver], by simp [deliver], by simp [deliver, stays], by simp [deliver],
        by simp [deliver], nofun, nofun, fun _ => .inr rfl,
        fun d ds _ hdraws => by simp [deliver, ← fixed d ds hdraws, hv]⟩
    | false =>
      refine ⟨loseArrival b (takeDraw true s).2, by simp [overrun, ho, hv], frame.trans (loseArrival_onlyUart b _), ?_⟩
      exact ⟨by simp [TxPathSame, loseArrival], by simp [loseArrival], by simp [loseArrival], by simp [loseArrival],
        by simp [loseArrival], fun _ => by simp [loseArrival], nofun, fun _ => .inl (by simp [loseArrival]),
        fun d ds _ hdraws => by simp [loseArrival, ← fixed d ds hdraws, hv]⟩

/-- Settles O43: the two synchronisers, the draw of the transmit flag first. -/
theorem clkShiftsTheFlagSynchronisers : Obligations.ClkShiftsTheFlagSynchronisers := by
  unfold Obligations.ClkShiftsTheFlagSynchronisers
  refine fun s => ⟨fun hsync => ⟨_, exec_clk hsync, clkEdge_onlyUart s, rfl, rfl, sample_sampled .., rfl, rfl, rfl,
    sample_sampled .., rfl, rfl, fun d ds hfresh hdraws => ?_, fun d ds hstable hfresh hdraws => ?_⟩, fun hsync => ?_⟩
  · simp [clkEdge, hfresh, takeDraw_fixed hdraws, sample]
  · simp [clkEdge, hstable, hfresh, takeDraw_fixed hdraws, sample]
  · simp [exec, execClk, hsync]

end Sys2Proof.Machine

namespace Sys2Proof.Machine

/-! ### What a step can do to the transport controller, said once -/

/-- The effect of a command on the transport controller, with what has enabled it. -/
inductive UartEffect (s : State) : Instr → State → Prop
  | elsewhere {i : Instr} {t : State} (hi : .uart ∉ commandMoves i) (huart : t.uart = s.uart) : UartEffect s i t
  | tNop (h : FgReady s) : UartEffect s .tNop (respond .ok s)
  | sendFull {d : Byte} (h : FgReady s) (hfull : s.uart.txq.full = true) :
    UartEffect s (.send d) (respond .bufferFull s)
  | sendBehind {d : Byte} (h : FgReady s) (hfull : s.uart.txq.full = false) (hbusy : s.uart.txState = .transmitting) :
    UartEffect s (.send d) (respond .ok (acceptByte d s))
  | sendPrimes {d : Byte} (h : FgReady s) (hfull : s.uart.txq.full = false) (hidle : s.uart.txState = .idle)
    (hout : s.uart.outReg = none) :
    UartEffect s (.send d) (respond .ok (sendOldest .transmitting (acceptByte d s)))
  | primeNothing (h : FgReady s) : UartEffect s .prime (respond .ok s)
  | primeSends (h : FgReady s) (hidle : s.uart.txState = .idle) (hempty : s.uart.txq.empty = false) :
    UartEffect s .prime (respond .ok (sendOldest .transmitting s))
  | receiveEmpty (h : FgReady s) (hempty : s.uart.rxq.empty = true) : UartEffect s .receive (respond .bufferEmpty s)
  | receiveTakes (h : FgReady s) (hempty : s.uart.rxq.empty = false) :
    UartEffect s .receive (respondByte (s.uart.rxq.cell .rx s.uart.rxq.head) (takeReceived s))
  | uartInit (hguard : uartInitGuard s = none) :
    UartEffect s .uartInit (respond .ok { s with uart := s.uart.initialised })
  | txSends (h : UartReady s) (hreq : s.txReq = true) (hempty : s.uart.txq.empty = false)
    (hout : s.uart.outReg = none) : UartEffect s .txIrq (sendOldest s.uart.txState s)
  | txPauses (h : UartReady s) (hreq : s.txReq = true) (hempty : s.uart.txq.empty = true) :
    UartEffect s .txIrq (pauseTransmit s)
  | rxStores (h : UartReady s) (hcond : s.uart.rx.cond = true) (hfull : s.uart.rxq.full = false) :
    UartEffect s .rxIrq (storeUnread s)
  | rxDrops (h : UartReady s) (hcond : s.uart.rx.cond = true) (hfull : s.uart.rxq.full = true) :
    UartEffect s .rxIrq (dropUnread s)
  | takesOutput {b : Byte} (hout : s.uart.outReg = some b) : UartEffect s .hwTxDone (takeOutput b s)
  | arrives {b : Byte} {t : State} (hirq : s.uart.irqEnabled = true) (huart : t.uart = (deliver b s).uart)
    (hover : s.uart.rx.cond = true → s.params.rxOverrun = .overwrite ∨ s.params.rxOverrun = .either) :
    UartEffect s (.hwRxByte b) t
  | arrivesInVain {b : Byte} {t : State} (hirq : s.uart.irqEnabled = true) (huart : t.uart = (loseArrival b s).uart)
    (hcond : s.uart.rx.cond = true) (hover : s.params.rxOverrun = .keepOld ∨ s.params.rxOverrun = .either) :
    UartEffect s (.hwRxByte b) t
  | clk : UartEffect s .clk (clkEdge s)

section

variable {s t : State} {i : Instr} {e : Event}

theorem uartInitBody_next :
    uartInitBody s = .next t ↔ uartInitGuard s = none ∧ t = respond .ok { s with uart := s.uart.initialised } := by
  rw [uartInitBody, guarded_next, Host.Outcome.next.injEq, eq_comm (a := t)]

/-- The priming step, when it is not refused: nothing to do, or the oldest byte goes out. -/
theorem primeBody_next (ht : primeBody s = .next t) :
    (t = respond .ok s ∧ (s.uart.txState = .transmitting ∨ s.uart.txq.empty = true)) ∨
      (t = respond .ok (sendOldest .transmitting s) ∧ s.uart.txState = .idle ∧ s.uart.txq.empty = false ∧
        s.uart.outReg = none) := by
  by_cases hnothing : s.uart.txState = .transmitting ∨ s.uart.txq.empty = true
  · rw [primeBody_nothing hnothing] at ht
    exact .inl ⟨(Host.Outcome.next.inj ht).symm, hnothing⟩
  · have hidle : s.uart.txState = .idle := by
      cases hst : s.uart.txState with
      | idle => rfl
      | transmitting => exact absurd (.inl hst) hnothing
    have hempty : s.uart.txq.empty = false := by simpa using fun h => hnothing (.inr h)
    cases hout : s.uart.outReg with
    | some b => rw [primeBody_busy hidle hempty (by simp [hout])] at ht; cases ht
    | none =>
      rw [primeBody_sends hidle hempty hout] at ht
      exact .inr ⟨(Host.Outcome.next.inj ht).symm, hidle, hempty, rfl⟩

theorem execSend_uartEffect (d : Byte) : Ensures (UartEffect s (.send d)) (exec (.send d) s) := by
  intro t ht
  obtain ⟨h, -⟩ := guarded_fg_next.1 ht
  cases hfull : s.uart.txq.full with
  | true =>
    obtain rfl := Host.Outcome.next.inj ((exec_send_full h hfull).symm.trans ht)
    exact .sendFull h hfull
  | false =>
    rw [exec_send_room h hfull] at ht
    have ⟨hready, _⟩ := h
    have hnonempty := hready.acceptByte_not_empty (d := d) hfull
    obtain ⟨rfl, hbusy | hempty⟩ | ⟨rfl, hidle, -, hout⟩ := primeBody_next ht
    · exact .sendBehind h hfull hbusy
    · simp [hnonempty] at hempty
    · exact .sendPrimes h hfull hidle hout

theorem execPrime_uartEffect : Ensures (UartEffect s .prime) (exec .prime s) := by
  intro t ht
  obtain ⟨h, hbody⟩ := guarded_fg_next.1 ht
  obtain ⟨rfl, -⟩ | ⟨rfl, hidle, hempty, -⟩ := primeBody_next hbody
  · exact .primeNothing h
  · exact .primeSends h hidle hempty

theorem execReceive_uartEffect : Ensures (UartEffect s .receive) (exec .receive s) := by
  intro t ht
  obtain ⟨h, -⟩ := guarded_fg_next.1 ht
  cases hempty : s.uart.rxq.empty with
  | true =>
    obtain rfl := Host.Outcome.next.inj ((exec_receive_empty h hempty).symm.trans ht)
    exact .receiveEmpty h hempty
  | false =>
    obtain rfl := Host.Outcome.next.inj ((exec_receive_takes h hempty).symm.trans ht)
    exact .receiveTakes h hempty

theorem execTxIrq_uartEffect : Ensures (UartEffect s .txIrq) (exec .txIrq s) := by
  intro t ht
  obtain ⟨h, hreq, hbody⟩ := takeInterrupt_next.1 ht
  cases hempty : s.uart.txq.empty with
  | true =>
    obtain rfl := Host.Outcome.next.inj ((txHandler_pauses hempty).symm.trans hbody)
    exact .txPauses h hreq hempty
  | false =>
    have hout : s.uart.outReg = none := by
      rw [txHandler, (dequeue_eq_some_iff ..).2 ⟨hempty, rfl, rfl⟩] at hbody
      obtain ⟨hout, -⟩ := writeOutputRegister_next.1 hbody
      exact hout
    obtain rfl := Host.Outcome.next.inj ((txHandler_sends hempty hout).symm.trans hbody)
    exact .txSends h hreq hempty hout

theorem execRxIrq_uartEffect : Ensures (UartEffect s .rxIrq) (exec .rxIrq s) := by
  intro t ht
  obtain ⟨h, -, hbody⟩ := takeInterrupt_next.1 ht
  obtain ⟨hcond, -⟩ := readInputRegister_next.1 hbody
  cases hfull : s.uart.rxq.full with
  | true =>
    obtain rfl := Host.Outcome.next.inj ((rxHandler_drops hcond hfull).symm.trans hbody)
    exact .rxDrops h hcond hfull
  | false =>
    obtain rfl := Host.Outcome.next.inj ((rxHandler_stores hcond hfull).symm.trans hbody)
    exact .rxStores h hcond hfull

theorem execHwTxDone_uartEffect : Ensures (UartEffect s .hwTxDone) (exec .hwTxDone s) := by
  rw [exec, execHwTxDone]
  split
  · exact ensures_refused
  · next b hout => exact ensures_next.2 (.takesOutput hout)

theorem execHwRxByte_uartEffect (b : Byte) : Ensures (UartEffect s (.hwRxByte b)) (exec (.hwRxByte b) s) := by
  intro t ht
  have hirq : s.uart.irqEnabled = true := by
    obtain ⟨hguard, -⟩ := guarded_next.1 ht
    simpa [firstRefusal_cons] using hguard
  rw [exec_hwRxByte hirq] at ht
  split at ht
  · next hcond =>
    unfold overrun at ht
    split at ht <;> cases ht
    · next ho => exact .arrivesInVain hirq rfl hcond (.inl ho)
    · next ho => exact .arrives hirq rfl fun _ => .inl ho
    · next ho =>
      split
      · exact .arrives hirq (by simp [deliver]) fun _ => .inr ho
      · exact .arrivesInVain hirq (by simp [loseArrival]) hcond (.inr ho)
  · next hcond =>
    cases ht
    exact .arrives hirq rfl fun h => absurd h hcond

theorem exec_uartEffect (i : Instr) : Ensures (UartEffect s i) (exec i s) := by
  by_cases hi : .uart ∈ commandMoves i
  · cases i with
    | tNop =>
      intro t ht
      obtain ⟨h, hbody⟩ := guarded_fg_next.1 ht
      obtain rfl := Host.Outcome.next.inj hbody
      exact .tNop h
    | send d => exact execSend_uartEffect d
    | receive => exact execReceive_uartEffect
    | uartInit =>
      intro t ht
      obtain ⟨-, hbody⟩ := guarded_next.1 ht
      obtain ⟨hguard, rfl⟩ := uartInitBody_next.1 hbody
      exact .uartInit hguard
    | prime => exact execPrime_uartEffect
    | txIrq => exact execTxIrq_uartEffect
    | rxIrq => exact execRxIrq_uartEffect
    | hwTxDone => exact execHwTxDone_uartEffect
    | hwRxByte b => exact execHwRxByte_uartEffect b
    | clk =>
      rw [exec, execClk]
      split
      · exact ensures_refused
      · exact ensures_next.2 .clk
    | _ => simp [commandMoves, asyncResetMoves] at hi
  · exact (exec_movesOnly i s).mono fun t ht => .elsewhere hi (ht.same .uart hi)

/-! ### The same for FG's micro-steps -/

/-- FG's progress and the response port aside, the transport controller is the same. -/
def OnlyFg (s t : State) : Prop :=
  t.uart = { s.uart with fg := t.uart.fg, tres := t.uart.tres, rdata := t.uart.rdata }

/-- The micro-steps that act on neither path: they turn to the next one, or answer. -/
def Fg.onlyTurns : Fg → Bool
  | .uartInit | .sendE3 _ | .sendE4 | .primeP5 _ | .primeP6 _ | .primeP7 _ | .recvD4 _ => false
  | _ => true

/-- The effect of a micro-step. -/
inductive FgEffect (s : State) : State → Prop
  | turns {t : State} (hturns : s.uart.fg.onlyTurns = true) (honly : OnlyFg s t) (hhand : t.uart.inHand = []) :
    FgEffect s t
  | initialises (hfg : s.uart.fg = .uartInit) (hguard : uartInitGuard s = none) :
    FgEffect s (respond .ok { s with uart := s.uart.initialised })
  | stores {d : Byte} (hfg : s.uart.fg = .sendE3 d) : FgEffect s (sendStore d s)
  | advances (hfg : s.uart.fg = .sendE4) : FgEffect s (sendAdvance s)
  | pops {b : Byte} (hfg : s.uart.fg = .primeP5 b) : FgEffect s (primeAdvance b s)
  | marks {b : Byte} (hfg : s.uart.fg = .primeP6 b) : FgEffect s (primeMark b s)
  | writes {b : Byte} (hfg : s.uart.fg = .primeP7 b) (hout : s.uart.outReg = none) :
    FgEffect s (respond .ok { s with uart := { s.uart with outReg := some b, tx := s.uart.tx.clear } })
  | delivers {b : Byte} (hfg : s.uart.fg = .recvD4 b) : FgEffect s (receiveAdvance b s)

/-- A micro-step that turns holds no byte. -/
theorem inHand_of_onlyTurns (h : s.uart.fg.onlyTurns = true) : s.uart.inHand = [] := by
  unfold Transport.inHand
  split
  · next b hfg => rw [hfg] at h; cases h
  · next b hfg => rw [hfg] at h; cases h
  · rfl

theorem FgEffect.answers {f : Fg} (hfg : s.uart.fg = f) (a : Answer) (hf : f.onlyTurns = true := by rfl) :
    FgEffect s (respond a s) :=
  .turns (hfg ▸ hf) rfl rfl

theorem FgEffect.turnsTo {f g : Fg} (hfg : s.uart.fg = f) (hf : f.onlyTurns = true := by rfl)
    (hg : (fgGoto g s).uart.inHand = [] := by rfl) : FgEffect s (fgGoto g s) :=
  .turns (hfg ▸ hf) rfl hg

theorem fgMicroStep_fgEffect (s : State) : Ensures (FgEffect s) (fgMicroStep s) := by
  unfold fgMicroStep
  cases hfg : s.uart.fg with
  | idle => exact ensures_refused
  | nop => exact ensures_next.2 (.answers hfg .ok)
  | uartInit =>
    intro t ht
    obtain ⟨hguard, rfl⟩ := uartInitBody_next.1 ht
    exact .initialises hfg hguard
  | sendE1 d => exact ensures_next.2 (.turnsTo hfg)
  | sendE2 d h =>
    refine ensures_next.2 ?_
    unfold sendCheck
    split
    · exact .answers hfg .bufferFull
    · exact .turnsTo hfg
  | sendE3 d => exact ensures_next.2 (.stores hfg)
  | sendE4 => exact ensures_next.2 (.advances hfg)
  | sendS5 => exact ensures_next.2 (.turnsTo hfg)
  | sendS6 st =>
    cases st with
    | idle => exact ensures_next.2 (.turnsTo hfg)
    | transmitting => exact ensures_next.2 (.answers hfg .ok)
  | primeP1 =>
    refine ensures_next.2 ?_
    unfold primeTest
    split
    · exact .turnsTo hfg
    · exact .answers hfg .ok
  | primeP2 => exact ensures_next.2 (.turnsTo hfg)
  | primeP3 t =>
    refine ensures_next.2 ?_
    unfold primeCheck
    split
    · exact .answers hfg .ok
    · exact .turnsTo hfg
  | primeP4 => exact ensures_next.2 (.turnsTo hfg)
  | primeP5 b => exact ensures_next.2 (.pops hfg)
  | primeP6 b => exact ensures_next.2 (.marks hfg)
  | primeP7 b =>
    intro t ht
    obtain ⟨u, hu, ht⟩ := andThen_eq_next.1 ht
    obtain ⟨hout, rfl⟩ := writeOutputRegister_next.1 hu
    cases ht
    exact .writes hfg hout
  | recvD1 => exact ensures_next.2 (.turnsTo hfg)
  | recvD2 t =>
    refine ensures_next.2 ?_
    unfold receiveCheck
    split
    · exact .answers hfg .bufferEmpty
    · exact .turnsTo hfg
  | recvD3 => exact ensures_next.2 (.turnsTo hfg)
  | recvD4 b => exact ensures_next.2 (.delivers hfg)

/-! ### The same for every event -/

theorem startForeground_next (ht : startForeground i s = .next t) :
    s.uart.fg = .idle ∧ ∃ f, fgStart i = some f ∧ t = fgGoto f s := by
  obtain ⟨hguard, ht⟩ := guarded_next.1 ht
  refine ⟨(fgGuard_iff s).1 hguard, ?_⟩
  split at ht
  · next f hf => exact ⟨f, hf, (Host.Outcome.next.inj ht).symm⟩
  · cases ht

/-- The events but for commands and micro-steps turn FG at most. -/
theorem runEvent_uart_cases (ht : runEvent e s = .next t) :
    (∃ i, e.command = some i ∧ UartEffect s i t) ∨ (e = .fgStep ∧ FgEffect s t) ∨
      (e.command = none ∧ e ≠ .fgStep ∧
        (t.uart = s.uart ∨ s.uart.fg = .idle ∧ ∃ i f, fgStart i = some f ∧ t = fgGoto f s)) := by
  by_cases he : e = .fgStep
  · subst he
    exact .inr (.inl ⟨rfl, (fgMicroStep_fgEffect s).guarded _ t ht⟩)
  · obtain ⟨i, hi, hexec⟩ | ⟨hnone, rfl⟩ | ⟨w, i, rfl, -, hstart⟩ | ⟨rfl, -⟩ | ⟨rfl, hreset⟩ := runEvent_next ht
    · exact .inl ⟨i, hi, exec_uartEffect i t hexec⟩
    · exact .inr (.inr ⟨hnone, he, .inl rfl⟩)
    · obtain ⟨hidle, f, hf, rfl⟩ := startForeground_next hstart
      exact .inr (.inr ⟨rfl, he, .inr ⟨hidle, i, f, hf, rfl⟩⟩)
    · exact absurd rfl he
    · have huart : t.uart = s.uart := (raiseReset_movesOnly true s t hreset).same .uart (by simp [asyncResetMoves])
      exact .inr (.inr ⟨rfl, he, .inl huart⟩)

end

/-! ### Who sets the conditions (R243, R244) -/

section

variable {s t : State} {i : Instr} {e : Event}

theorem initialised_tx_cond (h : s.uart.initialised.tx.cond = true) : s.uart.tx.cond = true := by
  unfold Transport.initialised at h
  dsimp only at h
  split at h
  · exact h
  · cases h

theorem initialised_rx_cond (h : s.uart.initialised.rx.cond = true) : s.uart.rx.cond = true := by
  unfold Transport.initialised at h
  dsimp only at h
  split at h
  · exact h
  · cases h

theorem UartEffect.tx_cond (h : UartEffect s i t) (hi : i ≠ .hwTxDone) (hcond : t.uart.tx.cond = true) :
    s.uart.tx.cond = true := by
  cases h with
  | elsewhere hi huart => rwa [huart] at hcond
  | uartInit => exact initialised_tx_cond hcond
  | takesOutput => exact absurd rfl hi
  | arrives hirq huart | arrivesInVain hirq huart => rwa [huart] at hcond
  | sendPrimes | primeSends | txSends | txPauses => cases hcond
  | tNop | sendFull | sendBehind | primeNothing | receiveEmpty | receiveTakes | rxStores | rxDrops | clk => exact hcond

theorem UartEffect.rx_cond (h : UartEffect s i t) (hi : ∀ b, i ≠ .hwRxByte b) (hcond : t.uart.rx.cond = true) :
    s.uart.rx.cond = true := by
  cases h with
  | elsewhere hi huart => rwa [huart] at hcond
  | uartInit => exact initialised_rx_cond hcond
  | arrives | arrivesInVain => exact absurd rfl (hi _)
  | rxStores | rxDrops => cases hcond
  | tNop | sendFull | sendBehind | sendPrimes | primeNothing | primeSends | receiveEmpty | receiveTakes | txSends
  | txPauses | takesOutput | clk => exact hcond

theorem FgEffect.tx_cond (h : FgEffect s t) (hcond : t.uart.tx.cond = true) : s.uart.tx.cond = true := by
  cases h with
  | turns hturns honly => rwa [honly] at hcond
  | initialises => exact initialised_tx_cond hcond
  | writes => cases hcond
  | stores | advances | pops | marks | delivers => exact hcond

theorem FgEffect.rx_cond (h : FgEffect s t) (hcond : t.uart.rx.cond = true) : s.uart.rx.cond = true := by
  cases h with
  | turns hturns honly => rwa [honly] at hcond
  | initialises => exact initialised_rx_cond hcond
  | writes | stores | advances | pops | marks | delivers => exact hcond

theorem runEvent_tx_cond (ht : runEvent e s = .next t) (he : e.command ≠ some .hwTxDone)
    (hcond : t.uart.tx.cond = true) : s.uart.tx.cond = true := by
  obtain ⟨i, hi, heffect⟩ | ⟨-, heffect⟩ | ⟨-, -, huart | ⟨-, i, f, -, rfl⟩⟩ := runEvent_uart_cases ht
  · exact heffect.tx_cond (fun hdone => he (hdone ▸ hi)) hcond
  · exact heffect.tx_cond hcond
  · rwa [huart] at hcond
  · exact hcond

theorem runEvent_rx_cond (ht : runEvent e s = .next t) (he : ∀ b, e.command ≠ some (.hwRxByte b))
    (hcond : t.uart.rx.cond = true) : s.uart.rx.cond = true := by
  obtain ⟨i, hi, heffect⟩ | ⟨-, heffect⟩ | ⟨-, -, huart | ⟨-, i, f, -, rfl⟩⟩ := runEvent_uart_cases ht
  · exact heffect.rx_cond (fun b hbyte => he b (hbyte ▸ hi)) hcond
  · exact heffect.rx_cond hcond
  · rwa [huart] at hcond
  · exact hcond

/-- The port of a command, format E aside, is the one the encoder gives. -/
theorem encode_port_of_decode {p : Port} {w : Nat} (h : decode p w = .command i) (hp : ∀ first, p ≠ .e first) :
    (encode i).1 = p := by
  unfold decode at h
  split at h
  case isFalse => cases h
  cases p with
  | e first => exact absurd rfl (hp first)
  | x => cases h; unfold decodeX; split <;> rfl
  | w => cases h; unfold decodeW; split <;> rfl
  | r => cases h; unfold decodeR; split <;> rfl
  | a => cases h; unfold decodeA; split <;> rfl
  | t => cases h; unfold decodeT; split <;> rfl
  | sEmpty | sFull | hwTxDone | hwRxByte | clk => cases h; rfl

/-- A command that is no handler run is presented on its own port. -/
theorem command_port (h : e.command = some i) (htx : i ≠ .txIrq) (hrx : i ≠ .rxIrq) :
    ∃ w, e = .word (encode i).1 w ∧ (encode i).1.fits w = true := by
  obtain ⟨p, w, rfl, hd⟩ := (command_eq_some_iff e i).1 h
  have hp : ∀ first, p ≠ .e first := fun first hp =>
    ((isHandlerRun_iff_format_e hd).2 ⟨first, hp⟩).elim htx hrx
  obtain rfl := encode_port_of_decode hd hp
  refine ⟨w, rfl, ?_⟩
  unfold decode at hd
  split at hd
  · assumption
  · cases hd

end

/-- Settles O40: every other event clears the condition or leaves it, and the hardware's port has one word. -/
theorem hwTxDoneTakesTheByte : Obligations.HwTxDoneTakesTheByte := by
  unfold Obligations.HwTxDoneTakesTheByte
  refine fun s => ⟨fun b hout => ⟨_, exec_hwTxDone hout, handlerFrame_with rfl rfl rfl rfl, ⟨rfl, rfl, rfl, rfl⟩,
    rfl, rfl, rfl, rfl, ?_⟩, fun hout => by rw [exec, execHwTxDone, hout], fun e t ht hlow hhigh => ?_⟩
  · cases hcond : s.uart.tx.cond <;> simp [takeOutput, Crossing.rise, hcond]
  · have hcommand : e.command = some .hwTxDone := by
      by_contra he
      simp [runEvent_tx_cond ht he hhigh] at hlow
    obtain ⟨w, rfl, hfits⟩ := command_port hcommand nofun nofun
    obtain rfl : w = 0 := by simpa [Port.fits, Port.width, encode] using hfits
    rfl

/-- Settles O41: every other event clears the condition or leaves it. -/
theorem hwRxByteArrives : Obligations.HwRxByteArrives := by
  unfold Obligations.HwRxByteArrives
  refine fun s b => ⟨fun hirq hcond => ?_, fun hirq => ?_, fun hirq hcond hover => ?_, fun e t ht hlow hhigh => ?_⟩
  · have rises : s.uart.rx.rise = { s.uart.rx with cond := true, old := false, fresh := true } := by
      simp [Crossing.rise, hcond]
    refine ⟨deliver b s, by simp [exec_hwRxByte hirq, hcond], handlerFrame_with rfl rfl rfl rfl,
      ⟨rfl, rfl, rfl, rfl, rfl⟩, rfl, rfl, rfl, ?_⟩
    simp [deliver, rises]
  · simp [exec, execHwRxByte, firstRefusal_cons, hirq]
  · rw [exec_hwRxByte hirq, if_pos hcond, overrun, hover]
  · have hcommand : ∃ b, e.command = some (.hwRxByte b) := by
      by_contra he
      simp [runEvent_rx_cond ht (not_exists.1 he) hhigh] at hlow
    obtain ⟨b, hb⟩ := hcommand
    obtain ⟨w, rfl, -⟩ := command_port hb nofun nofun
    exact ⟨w, rfl⟩

end Sys2Proof.Machine

namespace Sys2Proof.Machine

/-! ### ENQUEUE in its two micro-steps (R69): E3 writes the cell, E4 advances the index -/

/-- E3's part of ENQUEUE. -/
def Ring.store (r : Ring) (b : Byte) : Ring := { r with storage := Memory.write r.storage r.tail b }

/-- E4's part of ENQUEUE. -/
def Ring.advance (r : Ring) : Ring := { r with tail := next r.cap r.tail, ghostT := r.ghostT + 1 }

theorem sendStore_txq (d : Byte) (s : State) : (sendStore d s).uart.txq = s.uart.txq.store d := rfl

theorem sendAdvance_txq (s : State) : (sendAdvance s).uart.txq = s.uart.txq.advance := rfl

section

variable {r : Ring}

theorem Ring.Inv.store (h : r.Inv) (b : Byte) : (r.store b).Inv := by
  obtain ⟨hcap, hr, hstorage, hghost, hlive⟩ := h
  obtain ⟨-, htail⟩ := (inRange_iff r).1 hr
  refine ⟨hcap, hr, hstorage.push htail b, hghost, fun k hk => ?_⟩
  have hwritten := hlive k hk
  rw [Ring.store, read_write]
  split
  · rfl
  · exact hwritten

/-- The cell that becomes live has been written before. -/
theorem Ring.Inv.advance (h : r.Inv) (hfull : r.full = false) (hcell : (Memory.read r.storage r.tail).isSome = true) :
    r.advance.Inv := by
  obtain ⟨hcap, hr, hstorage, hghost, hlive⟩ := h
  obtain ⟨hhead, -⟩ := (inRange_iff r).1 hr
  refine ⟨hcap, (inRange_iff _).2 ⟨hhead, next_lt hcap r.tail⟩, hstorage, hghost.push hcap hfull 0, fun k hk => ?_⟩
  have hocc : r.advance.occ = r.occ + 1 := occ_push 0 hcap hr hfull
  rcases Nat.lt_or_ge k r.occ with hlt | hge
  · exact hlive k hlt
  · obtain rfl : k = r.occ := by omega
    exact (head_add_occ hr).symm ▸ hcell

theorem advance_atMostOne (hempty : r.empty = true) : r.advance.AtMostOne :=
  .inr (congrArg (next r.cap) ((empty_iff r).1 hempty))

/-- The only byte is taken. -/
theorem Ring.AtMostOne.pop_empty (h : r.AtMostOne) (hempty : r.empty = false) : r.pop.empty = true :=
  (empty_iff _).2 (h.resolve_left (by simp [hempty]))

/-- An `h` read at E1 and at most N − 1 bytes old shows a full queue at E2 (R69): then `head` has not moved. -/
theorem Ring.Inv.not_full_of_check (h : r.Inv) {n : Nat} (hle : n ≤ r.ghostH) (hroom : r.ghostT ≤ n + (r.cap - 1))
    (hcheck : next r.cap r.tail ≠ n % r.cap) : r.full = false := by
  obtain ⟨hcap, hr, -, hghost, -⟩ := h
  have hocc := hghost.occ_eq hcap
  obtain ⟨hhead, -⟩ := hghost
  by_contra hfull
  have hfull : r.full = true := by simpa using hfull
  have hmax := (full_iff_occ hcap hr).1 hfull
  obtain rfl : n = r.ghostH := by omega
  exact hcheck (hhead ▸ (full_iff r).1 hfull)

/-- A `t` read at D1 shows a byte at D2 that is still there (R70): with none, `tail` has not moved. -/
theorem Ring.Inv.not_empty_of_check (h : r.Inv) {n : Nat} (hle : r.ghostH ≤ n) (hroom : n ≤ r.ghostT)
    (hcheck : r.head ≠ n % r.cap) : r.empty = false := by
  obtain ⟨hcap, hr, -, hghost, -⟩ := h
  have hocc := hghost.occ_eq hcap
  obtain ⟨hhead, -⟩ := hghost
  by_contra hempty
  have hnone := (occ_eq_zero_iff hr).2 (by simpa using hempty)
  obtain rfl : n = r.ghostH := by omega
  exact hcheck hhead

end

/-! ### The request path of a flag (R249) -/

section

variable {c : Crossing}

theorem clear_inv (c : Crossing) : c.clear.Inv := ⟨nofun, nofun, nofun⟩

theorem rise_cond (c : Crossing) : c.rise.cond = true := by
  unfold Crossing.rise
  split
  · assumption
  · rfl

theorem Crossing.Inv.rise (h : c.Inv) : c.rise.Inv := by
  unfold Crossing.rise
  split
  · exact h
  · exact ⟨fun _ => rfl, fun _ => rfl, fun _ => ⟨rfl, rfl⟩⟩

/-- A sample at 1 is one of a condition at 1: the value before a fresh change is 0. -/
theorem Crossing.Inv.edge (h : c.Inv) (d : Bool) : (c.edge false d).Inv := by
  obtain ⟨hf1, -, hfresh⟩ := h
  refine ⟨fun hsample => ?_, hf1, nofun⟩
  obtain hcur | ⟨hrace, -⟩ := sample_sampled c.fresh d c.old c.cond
  · exact hcur ▸ hsample
  · exact (hfresh hrace).1

theorem Crossing.Inv.zeroStages (h : c.Inv) : c.zeroStages.Inv := by
  obtain ⟨-, -, hfresh⟩ := h
  exact ⟨nofun, nofun, hfresh⟩

theorem Crossing.Inv.cond_of_req (h : c.Inv) {f : FlagSync} (hreq : c.req f = true) : c.cond = true := by
  obtain ⟨-, hf2, -⟩ := h
  cases f with
  | none => exact hreq
  | two => exact hf2 hreq

end

/-! ### R239 items 1 to 4: the boundary -/

section

variable {u v : Transport} {b : Byte} {c : Crossing}

/-- FG turns to another step, but not away from P7's write. -/
theorem Transport.BoundaryInv.turn (h : u.BoundaryInv) (hfg : ∀ b, u.fg ≠ .primeP7 b)
    (hv : v = { u with txq := v.txq, rxq := v.rxq, fg := v.fg, tres := v.tres, rdata := v.rdata }) :
    v.BoundaryInv := by
  obtain ⟨htx, hrx, hidle, hcond, hout, hbusy⟩ := h
  rw [hv]
  refine ⟨htx, hrx, hidle, hcond, hout, fun hst => ?_⟩
  obtain hbyte | hdone | ⟨b, hb⟩ := hbusy hst
  · exact .inl hbyte
  · exact .inr (.inl hdone)
  · exact absurd hb (hfg b)

theorem boundaryInv_of_sent (hrx : v.rx.Inv) (htx : v.tx = c.clear) (hout : v.outReg = some b)
    (hst : v.txState = .transmitting) : v.BoundaryInv := by
  simp [Transport.BoundaryInv, htx, clear_inv, hrx, hout, hst]

theorem boundaryInv_of_idle (hrx : v.rx.Inv) (htx : v.tx.Inv) (hcond : v.tx.cond = false) (hout : v.outReg = none)
    (hst : v.txState = .idle) : v.BoundaryInv := by
  simp [Transport.BoundaryInv, htx, hrx, hcond, hout, hst]

/-- The receive flag has a part of its own. -/
theorem Transport.BoundaryInv.with_rx (h : u.BoundaryInv) (hrx : v.rx.Inv)
    (hv : v = { u with rxq := v.rxq, inReg := v.inReg, rx := v.rx, wireRx := v.wireRx }) : v.BoundaryInv := by
  obtain ⟨htx, -, hrest⟩ := h
  rw [hv]
  exact ⟨htx, hrx, hrest⟩

theorem Transport.BoundaryInv.txCond_of_req {s : State} (h : s.uart.BoundaryInv) (hreq : s.txReq = true) :
    s.uart.tx.cond = true ∧ s.uart.outReg = none ∧ s.uart.txState = .transmitting := by
  obtain ⟨htx, -, -, hcond, -⟩ := h
  have hhigh := htx.cond_of_req hreq
  exact ⟨hhigh, hcond hhigh⟩

end

section

variable {s t : State} {i : Instr}

/-- UART_INIT finds the path Idle, and with it the register empty and the condition 0 (R231, R302). -/
theorem initialised_boundaryInv (hguard : uartInitGuard s = none)
    (h : s.uart.irqEnabled = true → s.uart.BoundaryInv) :
    (respond .ok { s with uart := s.uart.initialised }).uart.BoundaryInv := by
  obtain ⟨-, -, hidle, hfirst⟩ := uartInitGuard_iff.1 hguard
  cases hirq : s.uart.irqEnabled with
  | true =>
    obtain ⟨htx, hrx, hfree, -⟩ := h hirq
    obtain ⟨hout, hcond⟩ := hfree (hidle hirq)
    exact boundaryInv_of_idle (by simpa [Transport.initialised, hirq] using hrx.zeroStages)
      (by simpa [Transport.initialised, hirq] using htx.zeroStages)
      (by simpa [Transport.initialised, Crossing.zeroStages, hirq] using hcond) hout rfl
  | false =>
    obtain ⟨hout, -⟩ := hfirst hirq
    exact boundaryInv_of_idle (by simpa [Transport.initialised, hirq] using crossing_reset_inv)
      (by simpa [Transport.initialised, hirq] using crossing_reset_inv)
      (by simp [Transport.initialised, hirq, Crossing.reset]) hout rfl

theorem UartEffect.boundaryInv (h : UartEffect s i t) (hs : s.uart.BoundaryInv) : t.uart.BoundaryInv := by
  have ready (h : FgReady s) : ∀ b, s.uart.fg ≠ .primeP7 b := fun b hb => by
    obtain ⟨-, hfg⟩ := h
    simp [hfg] at hb
  have ⟨htx, hrx, hidle, hcond, hout, hbusy⟩ := hs
  cases h with
  | elsewhere hi huart => rwa [huart]
  | tNop h | sendFull h | primeNothing h | receiveEmpty h => exact hs.turn (ready h) rfl
  | sendBehind h => exact hs.turn (ready h) rfl
  | receiveTakes h => exact hs.turn (ready h) rfl
  | sendPrimes => exact boundaryInv_of_sent hrx rfl rfl rfl
  | primeSends => exact boundaryInv_of_sent hrx rfl rfl rfl
  | uartInit hguard => exact initialised_boundaryInv hguard fun _ => hs
  | txSends _ hreq =>
    obtain ⟨-, -, hst⟩ := hs.txCond_of_req hreq
    exact boundaryInv_of_sent hrx rfl rfl hst
  | txPauses _ hreq =>
    obtain ⟨-, hnone, -⟩ := hs.txCond_of_req hreq
    exact boundaryInv_of_idle hrx (clear_inv _) rfl hnone rfl
  | rxStores | rxDrops => exact hs.with_rx (clear_inv _) rfl
  | takesOutput hbyte =>
    obtain ⟨-, hst⟩ := hout (by simp [hbyte])
    exact ⟨htx.rise, hrx, by simp [takeOutput, hst], fun _ => ⟨rfl, hst⟩, fun h => absurd rfl h,
      fun _ => .inr (.inl (rise_cond _))⟩
  | arrives hirq huart => rw [huart]; exact hs.with_rx hrx.rise rfl
  | arrivesInVain hirq huart => rw [huart]; exact hs.with_rx hrx rfl
  | clk => exact ⟨htx.edge _, hrx.edge _, hidle, hcond, hout, hbusy⟩

end

end Sys2Proof.Machine

namespace Sys2Proof.Machine

/-! ### What FG's micro-steps rest on (R239 item 5, R74, R233) under every command -/

section

variable {s t : State} {i : Instr}

/-- A run of TXH that sends leaves the path Transmitting, and room in TXQ: what FG rests on while the path is Idle asks
for nothing, and FG is at none of the steps that have seen it Idle, nor at P7, where the condition is 0. -/
theorem sendOldest_fgInv (hs : s.uart.Inv) (hcond : s.uart.tx.cond = true) (hst : s.uart.txState = .transmitting)
    (hempty : s.uart.txq.empty = false) : (sendOldest s.uart.txState s).uart.FgInv := by
  obtain ⟨htxq, -, -, hfgInv⟩ := hs
  have busy : s.uart.txState ≠ .idle := by simp [hst]
  have room := pop_not_full htxq.two_le_cap htxq.inRange hempty
  cases hfg : s.uart.fg with
  | sendE2 d h =>
    simp only [Transport.FgInv, hfg, sendOldest] at hfgInv ⊢
    obtain ⟨-, n, hle, hroom, hh⟩ := hfgInv
    exact ⟨fun h => absurd h busy, n, Nat.le_succ_of_le hle, hroom, hh⟩
  | sendE3 d =>
    simp only [Transport.FgInv, hfg, sendOldest]
    exact ⟨fun h => absurd h busy, room⟩
  | sendE4 =>
    simp only [Transport.FgInv, hfg, sendOldest] at hfgInv ⊢
    obtain ⟨-, -, hcell⟩ := hfgInv
    exact ⟨fun h => absurd h busy, room, hcell⟩
  | sendS6 st => cases st <;> simp_all [Transport.FgInv, sendOldest]
  | _ => simp_all [Transport.FgInv, sendOldest]

/-- A run of TXH that pauses has found TXQ empty, which is all that FG rests on while the path is Idle; FG is at none of
the steps that have seen it Idle, nor at P7, where the condition is 0. -/
theorem pauseTransmit_fgInv (hs : s.uart.FgInv) (hcond : s.uart.tx.cond = true)
    (hst : s.uart.txState = .transmitting) (hempty : s.uart.txq.empty = true) : (pauseTransmit s).uart.FgInv := by
  cases hfg : s.uart.fg with
  | sendS6 st => cases st <;> simp_all [Transport.FgInv, pauseTransmit]
  | _ => simp_all [Transport.FgInv, pauseTransmit, Ring.AtMostOne]

/-- A byte stored in RXQ is behind the one that FG is about to take. -/
theorem storeUnread_fgInv (hs : s.uart.Inv) (hfull : s.uart.rxq.full = false) : (storeUnread s).uart.FgInv := by
  obtain ⟨-, hrxq, -, hfgInv⟩ := hs
  have nonempty := push_not_empty hrxq.two_le_cap hrxq.inRange hfull s.uart.inReg
  cases hfg : s.uart.fg with
  | recvD2 t =>
    simp only [Transport.FgInv, hfg, storeUnread] at hfgInv ⊢
    obtain ⟨hidle, n, hle, hroom, ht⟩ := hfgInv
    exact ⟨hidle, n, hle, Nat.le_succ_of_le hroom, ht⟩
  | recvD3 =>
    simp only [Transport.FgInv, hfg, storeUnread] at hfgInv ⊢
    obtain ⟨hidle, -⟩ := hfgInv
    exact ⟨hidle, nonempty⟩
  | recvD4 b =>
    simp only [Transport.FgInv, hfg, storeUnread] at hfgInv ⊢
    obtain ⟨hidle, hempty, hb⟩ := hfgInv
    refine ⟨hidle, nonempty, ?_⟩
    rw [hb, push_head, cell_push_head, if_neg (empty_eq_false_iff.1 hempty)]
  | sendS6 st => cases st <;> simpa only [Transport.FgInv, hfg, storeUnread] using hfgInv
  | _ => simpa only [Transport.FgInv, hfg, storeUnread] using hfgInv

/-- The completion of a byte: FG is not at P7, where the output register is empty. -/
theorem takeOutput_fgInv {b : Byte} (hs : s.uart.FgInv) (hout : s.uart.outReg = some b) :
    (takeOutput b s).uart.FgInv := by
  cases hfg : s.uart.fg with
  | sendS6 st => cases st <;> simpa only [Transport.FgInv, hfg, takeOutput] using hs
  | primeP7 b => simp [Transport.FgInv, hfg, hout] at hs
  | _ => simpa only [Transport.FgInv, hfg, takeOutput] using hs

theorem UartEffect.fgInv (h : UartEffect s i t) (hs : s.uart.Inv) : t.uart.FgInv := by
  have ⟨_, _, hbound, hfgInv⟩ := hs
  have settled (h : FgReady s) : s.uart.txState = .idle → s.uart.txq.empty = true := by
    obtain ⟨-, hfg⟩ := h
    simpa only [Transport.FgInv, hfg] using hfgInv
  cases h with
  | elsewhere hi huart => rwa [huart]
  | tNop h | sendFull h | primeNothing h | receiveEmpty h => exact settled h
  | receiveTakes h => exact settled h
  | sendBehind h hfull hbusy => exact fun hidle => by simp [acceptByte, hbusy] at hidle
  | sendPrimes => exact nofun
  | primeSends => exact nofun
  | uartInit => exact fun _ => init_empty _
  | txSends _ hreq hempty =>
    obtain ⟨hcond, -, hst⟩ := hbound.txCond_of_req hreq
    exact sendOldest_fgInv hs hcond hst hempty
  | txPauses _ hreq hempty =>
    obtain ⟨hcond, -, hst⟩ := hbound.txCond_of_req hreq
    exact pauseTransmit_fgInv hfgInv hcond hst hempty
  | rxStores _ _ hfull => exact storeUnread_fgInv hs hfull
  | rxDrops => exact hfgInv
  | takesOutput hout => exact takeOutput_fgInv hfgInv hout
  | arrives hirq huart | arrivesInVain hirq huart => rw [huart]; exact hfgInv
  | clk => exact hfgInv

/-! ### The two queues (R21, R27, R129) under every command -/

theorem UartEffect.queues_inv (h : UartEffect s i t) (htxq : s.uart.txq.Inv) (hrxq : s.uart.rxq.Inv) :
    t.uart.txq.Inv ∧ t.uart.rxq.Inv := by
  cases h with
  | elsewhere hi huart => rw [huart]; exact ⟨htxq, hrxq⟩
  | tNop | sendFull | primeNothing | receiveEmpty | rxDrops | txPauses | takesOutput | clk => exact ⟨htxq, hrxq⟩
  | arrives hirq huart | arrivesInVain hirq huart => rw [huart]; exact ⟨htxq, hrxq⟩
  | sendBehind _ hfull => exact ⟨htxq.push hfull _, hrxq⟩
  | sendPrimes _ hfull =>
    exact ⟨(htxq.push hfull _).pop (push_not_empty htxq.two_le_cap htxq.inRange hfull _), hrxq⟩
  | primeSends _ _ hempty => exact ⟨htxq.pop hempty, hrxq⟩
  | txSends _ _ hempty => exact ⟨htxq.pop hempty, hrxq⟩
  | receiveTakes _ hempty => exact ⟨htxq, hrxq.pop hempty⟩
  | rxStores _ _ hfull => exact ⟨htxq, hrxq.push hfull _⟩
  | uartInit =>
    exact ⟨init_inv htxq.two_le_cap htxq.storageOk, init_inv hrxq.two_le_cap hrxq.storageOk⟩

end

end Sys2Proof.Machine

namespace Sys2Proof.Machine

/-! ### R239 under FG's micro-steps -/

section

variable {s t : State} {i : Instr} {e : Event}

theorem UartEffect.inv (h : UartEffect s i t) (hs : s.uart.Inv) : t.uart.Inv := by
  have ⟨htxq, hrxq, hbound, _⟩ := hs
  obtain ⟨htxq', hrxq'⟩ := h.queues_inv htxq hrxq
  exact ⟨htxq', hrxq', h.boundaryInv hbound, h.fgInv hs⟩

/-- A micro-step that turns, from a step `f` but P7, has only to establish what its next step rests on. -/
theorem Transport.Inv.turn {f : Fg} (h : s.uart.Inv) (hfg : s.uart.fg = f) (honly : OnlyFg s t)
    (hlocals : t.uart.FgInv) (hf : ∀ b, f ≠ .primeP7 b := by nofun) : t.uart.Inv := by
  obtain ⟨htxq, hrxq, hbound, -⟩ := h
  refine ⟨?_, ?_, hbound.turn (hfg ▸ hf) ?_, hlocals⟩ <;> rw [honly]
  · exact htxq
  · exact hrxq

/-- E1 reads `head`, E2 checks with it, E3 and E4 store and advance: what SEND's ENQUEUE rests on (R69). -/
theorem sendCheck_inv {d : Byte} {h : Nat} (hs : s.uart.Inv) (hfg : s.uart.fg = .sendE2 d h) :
    (sendCheck d h s).uart.Inv := by
  have ⟨htxq, _, _, hlocals⟩ := hs
  rw [Transport.FgInv, hfg] at hlocals
  obtain ⟨hsettled, n, hle, hroom, rfl⟩ := hlocals
  unfold sendCheck
  split
  · exact hs.turn hfg rfl hsettled
  · next hne => exact hs.turn hfg rfl ⟨hsettled, htxq.not_full_of_check hle hroom hne⟩

theorem sendStore_inv {d : Byte} (hs : s.uart.Inv) (hfg : s.uart.fg = .sendE3 d) : (sendStore d s).uart.Inv := by
  obtain ⟨htxq, hrxq, hbound, hlocals⟩ := hs
  rw [Transport.FgInv, hfg] at hlocals
  obtain ⟨hsettled, hfull⟩ := hlocals
  have written : (Memory.read (s.uart.txq.store d).storage s.uart.txq.tail).isSome = true := by
    rw [Ring.store, read_write_same]
    rfl
  exact ⟨htxq.store d, hrxq, hbound.turn (by simp [hfg]) rfl, hsettled, hfull, written⟩

theorem sendAdvance_inv (hs : s.uart.Inv) (hfg : s.uart.fg = .sendE4) : (sendAdvance s).uart.Inv := by
  obtain ⟨htxq, hrxq, hbound, hlocals⟩ := hs
  rw [Transport.FgInv, hfg] at hlocals
  obtain ⟨hsettled, hfull, hcell⟩ := hlocals
  exact ⟨htxq.advance hfull hcell, hrxq, hbound.turn (by simp [hfg]) rfl,
    fun hidle => advance_atMostOne (hsettled hidle)⟩

/-- S5 reads the state that S6 tests: Idle then, it stays so, since only FG primes (R232). -/
theorem sendRead_inv (hs : s.uart.Inv) (hfg : s.uart.fg = .sendS5) :
    (fgGoto (.sendS6 s.uart.txState) s).uart.Inv := by
  have ⟨_, _, _, hone⟩ := hs
  rw [Transport.FgInv, hfg] at hone
  refine hs.turn hfg rfl ?_
  cases hst : s.uart.txState with
  | idle => exact ⟨hst, hone hst⟩
  | transmitting => exact fun hidle => by simp [hst] at hidle

theorem sendTest_inv {st : TxState} (hs : s.uart.Inv) (hfg : s.uart.fg = .sendS6 st) : (sendTest st s).uart.Inv := by
  have ⟨_, _, _, hlocals⟩ := hs
  rw [Transport.FgInv, hfg] at hlocals
  cases st with
  | idle => exact hs.turn hfg rfl hlocals
  | transmitting => exact hs.turn hfg rfl hlocals

theorem primeTest_inv (hs : s.uart.Inv) (hfg : s.uart.fg = .primeP1) : (primeTest s).uart.Inv := by
  have ⟨_, _, _, hsettled⟩ := hs
  rw [Transport.FgInv, hfg] at hsettled
  unfold primeTest
  split
  · next hidle => exact hs.turn hfg rfl ⟨hidle, .inl (hsettled hidle)⟩
  · exact hs.turn hfg rfl hsettled

theorem primeCheck_inv {t : Nat} (hs : s.uart.Inv) (hfg : s.uart.fg = .primeP3 t) : (primeCheck t s).uart.Inv := by
  have ⟨_, _, _, hlocals⟩ := hs
  rw [Transport.FgInv, hfg] at hlocals
  obtain ⟨hidle, hone, rfl⟩ := hlocals
  unfold primeCheck
  split
  · next heq => exact hs.turn hfg rfl fun _ => (empty_iff _).2 heq
  · next hne => exact hs.turn hfg rfl ⟨hidle, hone, empty_eq_false_iff.2 hne⟩

theorem primeAdvance_inv {b : Byte} (hs : s.uart.Inv) (hfg : s.uart.fg = .primeP5 b) :
    (primeAdvance b s).uart.Inv := by
  obtain ⟨htxq, hrxq, hbound, hlocals⟩ := hs
  rw [Transport.FgInv, hfg] at hlocals
  obtain ⟨hidle, hone, hempty, -⟩ := hlocals
  exact ⟨htxq.pop hempty, hrxq, hbound.turn (by simp [hfg]) rfl, hidle, hone.pop_empty hempty⟩

/-- From P6 on the path is Transmitting because FG is about to write (R34, R233). -/
theorem primeMark_inv {b : Byte} (hs : s.uart.Inv) (hfg : s.uart.fg = .primeP6 b) : (primeMark b s).uart.Inv := by
  obtain ⟨htxq, hrxq, ⟨htx, hrx, hfree, -⟩, hlocals⟩ := hs
  rw [Transport.FgInv, hfg] at hlocals
  obtain ⟨hidle, -⟩ := hlocals
  obtain ⟨hout, hcond⟩ := hfree hidle
  exact ⟨htxq, hrxq, ⟨htx, hrx, nofun, fun h => absurd h (by simp [primeMark, hcond]), fun h => absurd hout h,
    fun _ => .inr (.inr ⟨b, rfl⟩)⟩, rfl, hout, hcond⟩

theorem primeWrite_inv {b : Byte} (hs : s.uart.Inv) (hfg : s.uart.fg = .primeP7 b) :
    (respond .ok { s with uart := { s.uart with outReg := some b, tx := s.uart.tx.clear } }).uart.Inv := by
  obtain ⟨htxq, hrxq, ⟨-, hrx, -⟩, hlocals⟩ := hs
  rw [Transport.FgInv, hfg] at hlocals
  obtain ⟨hst, -⟩ := hlocals
  exact ⟨htxq, hrxq, boundaryInv_of_sent hrx rfl rfl hst, fun hidle => by simp [hst] at hidle⟩

theorem receiveCheck_inv {t : Nat} (hs : s.uart.Inv) (hfg : s.uart.fg = .recvD2 t) :
    (receiveCheck t s).uart.Inv := by
  have ⟨_, hrxq, _, hlocals⟩ := hs
  rw [Transport.FgInv, hfg] at hlocals
  obtain ⟨hsettled, n, hle, hroom, rfl⟩ := hlocals
  unfold receiveCheck
  split
  · exact hs.turn hfg rfl hsettled
  · next hne => exact hs.turn hfg rfl ⟨hsettled, hrxq.not_empty_of_check hle hroom hne⟩

theorem receiveAdvance_inv {b : Byte} (hs : s.uart.Inv) (hfg : s.uart.fg = .recvD4 b) :
    (receiveAdvance b s).uart.Inv := by
  obtain ⟨htxq, hrxq, hbound, hlocals⟩ := hs
  rw [Transport.FgInv, hfg] at hlocals
  obtain ⟨hsettled, hempty, -⟩ := hlocals
  exact ⟨htxq, hrxq.pop hempty, hbound.turn (by simp [hfg]) rfl, hsettled⟩

theorem fgMicroStep_inv (hs : s.uart.Inv) (hinit : s.uart.fg ≠ .uartInit) :
    Ensures (fun t => t.uart.Inv) (fgMicroStep s) := by
  have ⟨htxq, hrxq, _, hlocals⟩ := hs
  obtain ⟨-, -, -, ⟨hhead, -, -, hroom⟩, -⟩ := htxq
  obtain ⟨-, -, -, ⟨-, htail, hle, -⟩, -⟩ := hrxq
  unfold fgMicroStep
  cases hfg : s.uart.fg with
  | idle => exact ensures_refused
  | nop =>
    rw [Transport.FgInv, hfg] at hlocals
    exact ensures_next.2 (hs.turn hfg rfl hlocals)
  | uartInit => exact absurd hfg hinit
  | sendE1 d =>
    rw [Transport.FgInv, hfg] at hlocals
    exact ensures_next.2 (hs.turn hfg rfl ⟨hlocals, s.uart.txq.ghostH, le_rfl, hroom, hhead⟩)
  | sendE2 d h => exact ensures_next.2 (sendCheck_inv hs hfg)
  | sendE3 d => exact ensures_next.2 (sendStore_inv hs hfg)
  | sendE4 => exact ensures_next.2 (sendAdvance_inv hs hfg)
  | sendS5 => exact ensures_next.2 (sendRead_inv hs hfg)
  | sendS6 st => exact ensures_next.2 (sendTest_inv hs hfg)
  | primeP1 => exact ensures_next.2 (primeTest_inv hs hfg)
  | primeP2 =>
    rw [Transport.FgInv, hfg] at hlocals
    obtain ⟨hidle, hone⟩ := hlocals
    exact ensures_next.2 (hs.turn hfg rfl ⟨hidle, hone, rfl⟩)
  | primeP3 t => exact ensures_next.2 (primeCheck_inv hs hfg)
  | primeP4 =>
    rw [Transport.FgInv, hfg] at hlocals
    obtain ⟨hidle, hone, hempty⟩ := hlocals
    exact ensures_next.2 (hs.turn hfg rfl ⟨hidle, hone, hempty, rfl⟩)
  | primeP5 b => exact ensures_next.2 (primeAdvance_inv hs hfg)
  | primeP6 b => exact ensures_next.2 (primeMark_inv hs hfg)
  | primeP7 b =>
    intro t ht
    obtain ⟨u, hu, ht⟩ := andThen_eq_next.1 ht
    obtain ⟨-, rfl⟩ := writeOutputRegister_next.1 hu
    obtain rfl := Host.Outcome.next.inj ht
    exact primeWrite_inv hs hfg
  | recvD1 =>
    rw [Transport.FgInv, hfg] at hlocals
    exact ensures_next.2 (hs.turn hfg rfl ⟨hlocals, s.uart.rxq.ghostT, hle, le_rfl, htail⟩)
  | recvD2 t => exact ensures_next.2 (receiveCheck_inv hs hfg)
  | recvD3 =>
    rw [Transport.FgInv, hfg] at hlocals
    obtain ⟨hsettled, hempty⟩ := hlocals
    exact ensures_next.2 (hs.turn hfg rfl ⟨hsettled, hempty, rfl⟩)
  | recvD4 b => exact ensures_next.2 (receiveAdvance_inv hs hfg)

/-- FG takes up an operation at a step that rests on no more than FG at rest. -/
theorem fgStart_inv {f : Fg} (hs : s.uart.Inv) (hidle : s.uart.fg = .idle) (hf : fgStart i = some f) :
    (fgGoto f s).uart.Inv := by
  have ⟨_, _, _, hsettled⟩ := hs
  rw [Transport.FgInv, hidle] at hsettled
  refine hs.turn hidle rfl ?_
  cases i with
  | tNop | send | receive | uartInit | prime => cases hf; exact hsettled
  | _ => cases hf

/-! ### The unread byte (R239 item 9, R246) -/

/-- Where nothing arrives, the unread byte is the last one on the line as before, or there is none. -/
theorem State.UnreadIsLast.of_rx (h : s.UnreadIsLast) (hparams : t.params = s.params)
    (hcond : t.uart.rx.cond = true → s.uart.rx.cond = true) (hinReg : t.uart.inReg = s.uart.inReg)
    (hwire : t.uart.wireRx = s.uart.wireRx) : t.UnreadIsLast := by
  intro hover hhigh
  rw [hparams] at hover
  rw [hwire, hinReg]
  exact h hover (hcond hhigh)

theorem initialised_unreadIsLast (h : s.UnreadIsLast) (hirq : s.uart.irqEnabled = true) :
    (respond .ok { s with uart := s.uart.initialised }).UnreadIsLast :=
  h.of_rx rfl initialised_rx_cond rfl (by simp [Transport.initialised, hirq])

theorem UartEffect.unreadIsLast (h : UartEffect s i t) (hs : s.UnreadIsLast) (hirq : s.uart.irqEnabled = true)
    (hparams : t.params = s.params) : t.UnreadIsLast := by
  cases h with
  | elsewhere hi huart => exact hs.of_rx hparams (by simp [huart]) (by rw [huart]) (by rw [huart])
  | uartInit => exact initialised_unreadIsLast hs hirq
  | rxStores | rxDrops => exact hs.of_rx hparams nofun rfl rfl
  | arrives _ huart => exact fun _ _ => by simp [huart, deliver]
  | arrivesInVain _ huart hcond hover =>
    intro hkept
    rw [hparams] at hkept
    obtain ho | ho := hover <;> simp [ho] at hkept
  | tNop | sendFull | sendBehind | sendPrimes | primeNothing | primeSends | receiveEmpty | receiveTakes | txSends
  | txPauses | takesOutput | clk => exact hs.of_rx hparams id rfl rfl

theorem FgEffect.unreadIsLast (h : FgEffect s t) (hs : s.UnreadIsLast) (hirq : s.uart.irqEnabled = true)
    (hparams : t.params = s.params) : t.UnreadIsLast := by
  cases h with
  | turns hturns honly => exact hs.of_rx hparams (by simp [congrArg Transport.rx honly]) (by rw [honly]) (by rw [honly])
  | initialises => exact initialised_unreadIsLast hs hirq
  | stores | advances | pops | marks | writes | delivers => exact hs.of_rx hparams id rfl rfl

/-! ### R239 under every step -/

theorem State.UartInv.of_inv (h : t.uart.Inv) (hlast : t.UnreadIsLast) : t.UartInv := by
  have ⟨htxq, hrxq, _, _⟩ := h
  exact ⟨htxq.two_le_cap, hrxq.two_le_cap, htxq.storageOk, hrxq.storageOk, fun _ => ⟨h, hlast⟩⟩

theorem State.UartInv.of_uart_eq (h : s.UartInv) (huart : t.uart = s.uart) (hparams : t.params = s.params) :
    t.UartInv := by
  unfold State.UartInv State.UnreadIsLast
  rwa [huart, hparams]

/-- Before the first UART_INIT the queues have only to stay. -/
theorem State.UartInv.of_queues (h : s.UartInv) (htxq : t.uart.txq = s.uart.txq) (hrxq : t.uart.rxq = s.uart.rxq)
    (hirq : t.uart.irqEnabled = false) : t.UartInv := by
  obtain ⟨htxCap, hrxCap, htxStorage, hrxStorage, -⟩ := h
  unfold State.UartInv
  rw [htxq, hrxq]
  exact ⟨htxCap, hrxCap, htxStorage, hrxStorage, by simp [hirq]⟩

theorem initialised_uartInv (h : s.UartInv) (hguard : uartInitGuard s = none) :
    (respond .ok { s with uart := s.uart.initialised }).UartInv := by
  obtain ⟨htxCap, hrxCap, htxStorage, hrxStorage, hinv⟩ := h
  have hbound := initialised_boundaryInv hguard fun hirq => by
    obtain ⟨⟨-, -, hbound, -⟩, -⟩ := hinv hirq
    exact hbound
  refine .of_inv ⟨init_inv htxCap htxStorage, init_inv hrxCap hrxStorage, hbound, fun _ => init_empty _⟩ ?_
  cases hirq : s.uart.irqEnabled with
  | true =>
    obtain ⟨-, hlast⟩ := hinv hirq
    exact initialised_unreadIsLast hlast hirq
  | false => exact fun _ hcond => by simp [Transport.initialised, hirq, Crossing.reset] at hcond

theorem UartEffect.uartInv (h : UartEffect s i t) (hs : s.UartInv) (hparams : t.params = s.params) : t.UartInv := by
  cases hirq : s.uart.irqEnabled with
  | true =>
    obtain ⟨-, -, -, -, hinv⟩ := hs
    obtain ⟨hinv, hlast⟩ := hinv hirq
    exact .of_inv (h.inv hinv) (h.unreadIsLast hlast hirq hparams)
  | false =>
    have enabled {P : Prop} (h : UartReady s) : P := by
      obtain ⟨-, -, hirq', -⟩ := h
      simp [hirq] at hirq'
    cases h with
    | elsewhere hi huart => exact hs.of_queues (by rw [huart]) (by rw [huart]) (by rw [huart, hirq])
    | uartInit hguard => exact initialised_uartInv hs hguard
    | takesOutput | clk => exact hs.of_queues rfl rfl hirq
    | arrives hirq' | arrivesInVain hirq' => simp [hirq] at hirq'
    | tNop h | sendFull h | primeNothing h | receiveEmpty h | sendBehind h | sendPrimes h | primeSends h
    | receiveTakes h => exact enabled h.1
    | txSends h | txPauses h | rxStores h | rxDrops h => exact enabled h

theorem foregroundStep_uartInv (hs : s.UartInv) : Ensures State.UartInv (foregroundStep s) := by
  intro t ht
  by_cases hinit : s.uart.fg = .uartInit
  · rw [foregroundStep_uartInit hinit] at ht
    obtain ⟨hguard, rfl⟩ := uartInitBody_next.1 ht
    exact initialised_uartInv hs hguard
  · by_cases hidle : s.uart.fg = .idle
    · simp [foregroundStep, fgStepGuard, fgMicroStep, hidle] at ht
    · rw [foregroundStep_eq_guarded hidle hinit] at ht
      obtain ⟨hguard, ht⟩ := guarded_next.1 ht
      obtain ⟨-, -, hirq, -⟩ := (uartGuard_iff s).1 hguard
      obtain ⟨-, -, -, -, hinv⟩ := hs
      obtain ⟨hinv, hlast⟩ := hinv hirq
      exact .of_inv (fgMicroStep_inv hinv hinit t ht)
        ((fgMicroStep_fgEffect s t ht).unreadIsLast hlast hirq (fgMicroStep_keepsParameters s t ht).params)

theorem runEvent_uartInv (hs : s.UartInv) (e : Event) : Ensures State.UartInv (runEvent e s) := by
  intro t ht
  have hparams := (runEvent_keepsParameters e s t ht).params
  obtain ⟨i, -, heffect⟩ | ⟨rfl, -⟩ | ⟨-, -, huart | ⟨hidle, i, f, hf, rfl⟩⟩ := runEvent_uart_cases ht
  · exact heffect.uartInv hs hparams
  · exact foregroundStep_uartInv hs t ht
  · exact hs.of_uart_eq huart hparams
  · cases hirq : s.uart.irqEnabled with
    | true =>
      obtain ⟨-, -, -, -, hinv⟩ := hs
      obtain ⟨hinv, hlast⟩ := hinv hirq
      exact .of_inv (fgStart_inv hinv hidle hf) hlast
    | false => exact hs.of_queues rfl rfl hirq

end

/-- Settles O46: every command and every micro-step of FG establishes what the next one rests on. -/
theorem transportInvariantKept : Obligations.TransportInvariantKept := by
  unfold Obligations.TransportInvariantKept
  intro s t h ht
  obtain ⟨e, rest, -, hrun⟩ := step_next ht
  have hfetch : ({ s with pending := rest } : State).UartInv := h
  exact runEvent_uartInv hfetch e t hrun

end Sys2Proof.Machine

namespace Sys2Proof.Machine

/-! ### R239 item 6: no write to a busy output register, no read of an empty input register (R242, R245) -/

/-- The refusals of the two boundary functions (R242, R245). -/
def boundaryRefusals : List Refusal := [.outputBusy, .inputEmpty]

/-- The meaning does not misuse a boundary function. -/
def UsesBoundaryWell (r : Result) : Prop := ∀ e ∈ boundaryRefusals, r ≠ .refused e

section

variable {s t : State} {e : Refusal} {go : Result}

theorem usesBoundaryWell_next : UsesBoundaryWell (.next t) := nofun

theorem usesBoundaryWell_refused (h : e ∉ boundaryRefusals) : UsesBoundaryWell (.refused e) := by
  intro e' he' heq
  cases heq
  exact h he'

/-- The checks made first have reasons of their own; what follows may rely on them. -/
theorem UsesBoundaryWell.guarded {l : List (Bool × Refusal)} (hgo : firstRefusal l = none → UsesBoundaryWell go)
    (hl : ∀ c ∈ l, c.2 ∉ boundaryRefusals := by simp [boundaryRefusals]) :
    UsesBoundaryWell (guarded (firstRefusal l) go) := by
  induction l with
  | nil => exact hgo rfl
  | cons c l ih =>
    obtain ⟨fails, why⟩ := c
    obtain ⟨hwhy, hrest⟩ := List.forall_mem_cons.1 hl
    rw [firstRefusal_cons] at hgo ⊢
    cases fails with
    | true => exact usesBoundaryWell_refused hwhy
    | false => exact ih hgo hrest

theorem statusGuard_usesBoundaryWell (p : StatusPort) : UsesBoundaryWell (guarded (statusGuard p s) (.next t)) := by
  cases p with
  | sync => exact .guarded fun _ => usesBoundaryWell_next
  | asyncWrite => exact .guarded fun _ => usesBoundaryWell_next
  | asyncRead => exact .guarded fun _ => usesBoundaryWell_next

theorem unlessHeld_usesBoundaryWell (request : Bool) (held edge : State → State) :
    UsesBoundaryWell (unlessHeld request held edge s) := by
  unfold unlessHeld
  split
  · split
    · exact usesBoundaryWell_refused (by decide)
    · exact usesBoundaryWell_next
  · exact usesBoundaryWell_next

theorem uartInitBody_usesBoundaryWell : UsesBoundaryWell (uartInitBody s) :=
  .guarded fun _ => usesBoundaryWell_next

theorem raiseReset_usesBoundaryWell (arst : Bool) : UsesBoundaryWell (raiseReset arst s) :=
  .guarded fun _ => usesBoundaryWell_next

/-- What passes the checks of the transport controller may rely on its invariant. -/
theorem UsesBoundaryWell.guarded_uart (h : s.UartInv) (hgo : s.uart.Inv → UsesBoundaryWell go) :
    UsesBoundaryWell (Machine.guarded (uartGuard s) go) := by
  refine .guarded fun hguard => ?_
  obtain ⟨-, -, hirq, -⟩ := (uartGuard_iff s).1 hguard
  obtain ⟨-, -, -, -, hinv⟩ := h
  obtain ⟨hinv, -⟩ := hinv hirq
  exact hgo hinv

/-- The priming step writes while Idle, when the output register is empty. -/
theorem primeBody_usesBoundaryWell (hfree : s.uart.txState = .idle → s.uart.outReg = none) :
    UsesBoundaryWell (primeBody s) := by
  by_cases hnothing : s.uart.txState = .transmitting ∨ s.uart.txq.empty = true
  · rw [primeBody_nothing hnothing]
    exact usesBoundaryWell_next
  · obtain ⟨hidle, hempty⟩ : s.uart.txState = .idle ∧ s.uart.txq.empty = false := by
      cases hst : s.uart.txState <;> simp_all
    rw [primeBody_sends hidle hempty (hfree hidle)]
    exact usesBoundaryWell_next

theorem Transport.Inv.outReg_free (h : s.uart.Inv) (hidle : s.uart.txState = .idle) : s.uart.outReg = none := by
  obtain ⟨-, -, ⟨-, -, hfree, -⟩, -⟩ := h
  obtain ⟨hout, -⟩ := hfree hidle
  exact hout

theorem execSend_usesBoundaryWell (h : s.UartInv) (d : Byte) : UsesBoundaryWell (exec (.send d) s) := by
  refine .guarded fun _ => .guarded_uart h fun hinv => ?_
  cases hq : s.uart.txq.enqueue d with
  | none => exact usesBoundaryWell_next
  | some q => exact primeBody_usesBoundaryWell (s := { s with uart := { s.uart with txq := q } }) hinv.outReg_free

theorem execReceive_usesBoundaryWell (h : s.UartInv) : UsesBoundaryWell (exec .receive s) := by
  refine .guarded fun _ => .guarded_uart h fun _ => ?_
  split <;> exact usesBoundaryWell_next

/-- TXH runs on a request, so the condition is 1 and the output register empty (R235). -/
theorem execTxIrq_usesBoundaryWell (h : s.UartInv) : UsesBoundaryWell (exec .txIrq s) := by
  refine .guarded_uart h fun hinv => ?_
  split
  · next hreq =>
    obtain ⟨-, -, hbound, -⟩ := hinv
    obtain ⟨-, hout, -⟩ := hbound.txCond_of_req hreq
    cases hempty : s.uart.txq.empty with
    | true => rw [txHandler_pauses hempty]; exact usesBoundaryWell_next
    | false => rw [txHandler_sends hempty hout]; exact usesBoundaryWell_next
  · exact usesBoundaryWell_refused (by decide)

/-- RXH runs on a request, so the condition is 1 (R236). -/
theorem execRxIrq_usesBoundaryWell (h : s.UartInv) : UsesBoundaryWell (exec .rxIrq s) := by
  refine .guarded_uart h fun hinv => ?_
  split
  · next hreq =>
    obtain ⟨-, -, ⟨-, hrx, -⟩, -⟩ := hinv
    have hcond := hrx.cond_of_req hreq
    cases hfull : s.uart.rxq.full with
    | true => rw [rxHandler_drops hcond hfull]; exact usesBoundaryWell_next
    | false => rw [rxHandler_stores hcond hfull]; exact usesBoundaryWell_next
  · exact usesBoundaryWell_refused (by decide)

theorem execHwRxByte_usesBoundaryWell (b : Byte) : UsesBoundaryWell (exec (.hwRxByte b) s) := by
  refine .guarded fun _ => ?_
  split
  · unfold overrun
    split
    · exact usesBoundaryWell_refused (by decide)
    · exact usesBoundaryWell_next
    · exact usesBoundaryWell_next
    · exact usesBoundaryWell_next
  · exact usesBoundaryWell_next

theorem exec_usesBoundaryWell (h : s.UartInv) (i : Instr) : UsesBoundaryWell (exec i s) := by
  cases i with
  | nop | enq | deq | enqdeq | init => exact .guarded fun _ => usesBoundaryWell_next
  | wNop | wEnq | rNop | rDeq => exact .guarded fun _ => unlessHeld_usesBoundaryWell _ _ _
  | aRun => exact .guarded fun _ => usesBoundaryWell_next
  | aInit => exact raiseReset_usesBoundaryWell false
  | isEmpty p | isFull p => exact statusGuard_usesBoundaryWell p
  | tNop => exact .guarded fun _ => .guarded_uart h fun _ => usesBoundaryWell_next
  | send d => exact execSend_usesBoundaryWell h d
  | receive => exact execReceive_usesBoundaryWell h
  | uartInit => exact .guarded fun _ => uartInitBody_usesBoundaryWell
  | prime => exact .guarded fun _ => .guarded_uart h fun hinv => primeBody_usesBoundaryWell hinv.outReg_free
  | tReserved5 | tReserved6 | tReserved7 => exact usesBoundaryWell_refused (by decide)
  | txIrq => exact execTxIrq_usesBoundaryWell h
  | rxIrq => exact execRxIrq_usesBoundaryWell h
  | hwTxDone =>
    rw [exec, execHwTxDone]
    split
    · exact usesBoundaryWell_refused (by decide)
    · exact usesBoundaryWell_next
  | hwRxByte b => exact execHwRxByte_usesBoundaryWell b
  | clk =>
    rw [exec, execClk]
    split
    · exact usesBoundaryWell_refused (by decide)
    · exact usesBoundaryWell_next

theorem startForeground_usesBoundaryWell (i : Instr) : UsesBoundaryWell (startForeground i s) := by
  refine .guarded fun _ => ?_
  split
  · exact usesBoundaryWell_next
  · exact usesBoundaryWell_refused (by decide)

/-- P7 is the only micro-step that writes, and rests on the output register being empty. -/
theorem fgMicroStep_usesBoundaryWell (hs : s.uart.FgInv) : UsesBoundaryWell (fgMicroStep s) := by
  unfold fgMicroStep
  cases hfg : s.uart.fg with
  | idle => exact usesBoundaryWell_refused (by decide)
  | uartInit => exact uartInitBody_usesBoundaryWell
  | primeP7 b =>
    rw [Transport.FgInv, hfg] at hs
    obtain ⟨-, hout, -⟩ := hs
    dsimp only
    rw [writeOutputRegister_next.2 ⟨hout, rfl⟩]
    exact usesBoundaryWell_next
  | _ => exact usesBoundaryWell_next

theorem foregroundStep_usesBoundaryWell (h : s.UartInv) : UsesBoundaryWell (foregroundStep s) := by
  by_cases hidle : s.uart.fg = .idle
  · simp [foregroundStep, fgStepGuard, fgMicroStep, hidle, UsesBoundaryWell, boundaryRefusals]
  by_cases hinit : s.uart.fg = .uartInit
  · rw [foregroundStep_uartInit hinit]
    exact uartInitBody_usesBoundaryWell
  · rw [foregroundStep_eq_guarded hidle hinit]
    refine .guarded_uart h fun hinv => ?_
    obtain ⟨-, -, -, hlocals⟩ := hinv
    exact fgMicroStep_usesBoundaryWell hlocals

theorem runEvent_usesBoundaryWell (h : s.UartInv) (e : Event) : UsesBoundaryWell (runEvent e s) := by
  cases e with
  | word p w =>
    simp only [runEvent]
    split
    · exact exec_usesBoundaryWell h _
    · exact usesBoundaryWell_next
    · exact usesBoundaryWell_refused (by decide)
  | startFg w =>
    simp only [runEvent]
    split
    · exact startForeground_usesBoundaryWell _
    · exact usesBoundaryWell_next
    · exact usesBoundaryWell_refused (by decide)
  | fgStep => exact foregroundStep_usesBoundaryWell h
  | holdReset => exact raiseReset_usesBoundaryWell true

theorem step_usesBoundaryWell (h : s.UartInv) : UsesBoundaryWell (step s) := by
  unfold step fetch
  cases s.pending with
  | nil => nofun
  | cons e rest => exact runEvent_usesBoundaryWell (s := { s with pending := rest }) h e

end

/-- Settles O47: TXH and RXH run on a condition that is 1, and FG writes while Idle or at P7. -/
theorem busyWriteAndEmptyReadAreUnreachable : Obligations.BusyWriteAndEmptyReadAreUnreachable := by
  unfold Obligations.BusyWriteAndEmptyReadAreUnreachable
  intro s h
  have hstep := step_usesBoundaryWell h
  exact ⟨hstep _ (by decide), hstep _ (by decide)⟩

end Sys2Proof.Machine

namespace Sys2Proof.Machine

/-! ### R239 item 7: the bytes of the transmit path -/

section

variable {r r' : Ring} (q : FifoId)

theorem contents_congr (hcap : r'.cap = r.cap) (hhead : r'.head = r.head) (htail : r'.tail = r.tail)
    (hcell : ∀ a, r'.cell q a = r.cell q a) : r'.contents q = r.contents q := by
  simp only [Ring.contents, Ring.occ, hcap, hhead, htail, hcell]

/-- The cell that E3 writes is not live yet. -/
theorem contents_store (hr : r.inRange = true) (b : Byte) : (r.store b).contents q = r.contents q := by
  obtain ⟨-, -, -, -, -, -, hother⟩ := push_accepts q r b
  exact List.map_congr_left fun k hk => hother _ (live_ne_tail hr (List.mem_range.1 hk))

/-- E4 makes the cell `tail` live, whatever it holds. -/
theorem contents_advance (hcap : 2 ≤ r.cap) (hr : r.inRange = true) (hfull : r.full = false) :
    r.advance.contents q = r.contents q ++ [r.cell q r.tail] := by
  obtain ⟨-, -, -, -, -, hbyte, hother⟩ := push_accepts q r (r.cell q r.tail)
  have hcell (a : Nat) : r.advance.cell q a = (r.push (r.cell q r.tail)).cell q a := by
    by_cases ha : a = r.tail
    · rw [ha, hbyte]
      rfl
    · rw [hother a ha]
      rfl
  rw [← contents_push q _ hcap hr hfull]
  exact contents_congr q rfl rfl rfl hcell

end

section

variable {s t : State} {i : Instr} {e : Event}

theorem inHand_of_idle (h : s.uart.fg = .idle) : s.uart.inHand = [] := inHand_of_onlyTurns (h ▸ rfl)

/-- FG holds no byte while the completion of another is pending. -/
theorem Transport.Inv.inHand_of_txCond (hs : s.uart.Inv) (hcond : s.uart.tx.cond = true) : s.uart.inHand = [] := by
  obtain ⟨-, -, ⟨-, -, -, hpending, -⟩, hlocals⟩ := hs
  obtain ⟨-, hst⟩ := hpending hcond
  unfold Transport.inHand
  split
  · next b hfg => simp [Transport.FgInv, hfg, hst] at hlocals
  · next b hfg => simp [Transport.FgInv, hfg, hcond] at hlocals
  · rfl

theorem OnlyFg.stream (h : OnlyFg s t) (hhand : t.uart.inHand = s.uart.inHand) :
    t.uart.stream = s.uart.stream := by
  unfold Transport.stream
  rw [hhand, h]

theorem respond_stream (a : Answer) (hhand : s.uart.inHand = []) : (respond a s).uart.stream = s.uart.stream :=
  OnlyFg.stream rfl hhand.symm

theorem acceptByte_stream (hs : s.uart.Inv) (hfull : s.uart.txq.full = false) (d : Byte) :
    (acceptByte d s).uart.stream = s.uart.stream ++ [d] := by
  obtain ⟨htxq, -⟩ := hs
  have hcontents := contents_push .tx d htxq.two_le_cap htxq.inRange hfull
  have hhand : (acceptByte d s).uart.inHand = s.uart.inHand := rfl
  simp only [Transport.stream, hhand]
  simp only [acceptByte, hcontents, List.append_assoc]

/-- The oldest byte of TXQ is the next one of the stream when nothing is before it. -/
theorem sendOldest_stream (htxq : s.uart.txq.Inv) (hempty : s.uart.txq.empty = false)
    (hout : s.uart.outReg = none) (hhand : s.uart.inHand = []) (st : TxState) :
    (sendOldest st s).uart.stream = s.uart.stream := by
  have hcontents := contents_pop .tx htxq.two_le_cap htxq.inRange hempty
  have hhand' : (sendOldest st s).uart.inHand = [] := hhand
  simp only [Transport.stream, hhand, hhand', hout, hcontents]
  simp [sendOldest]

/-- The byte a whole operation adds to the transmit path. -/
def sentBytes (s : State) : Instr → List Byte
  | .send d => if s.uart.txq.full then [] else [d]
  | _ => []

theorem acceptedBytes_of_command (h : e.command = some i) : acceptedBytes e s = sentBytes s i := by
  obtain ⟨p, w, rfl, -⟩ := (command_eq_some_iff e i).1 h
  unfold acceptedBytes
  rw [h]
  cases i <;> simp [sentBytes]

theorem acceptedBytes_of_no_command (h : e.command = none) :
    acceptedBytes e s =
      if e = .fgStep ∧ s.uart.fg = .sendE4 then [s.uart.txq.cell .tx s.uart.txq.tail] else [] := by
  simp [acceptedBytes, h]

theorem UartEffect.stream (h : UartEffect s i t) (hs : s.uart.Inv) (hinit : i ≠ .uartInit) :
    t.uart.stream = s.uart.stream ++ sentBytes s i := by
  have ⟨htxq, _, hbound, _⟩ := hs
  have hand (h : FgReady s) : s.uart.inHand = [] := by
    obtain ⟨-, hfg⟩ := h
    exact inHand_of_idle hfg
  cases h with
  | elsewhere hi huart =>
    rw [huart]
    cases i with
    | send d => simp [commandMoves] at hi
    | _ => simp [sentBytes]
  | tNop h | primeNothing h | receiveEmpty h => simp [respond_stream _ (hand h), sentBytes]
  | sendFull h hfull => simp [respond_stream _ (hand h), sentBytes, hfull]
  | sendBehind h hfull =>
    rw [respond_stream (s := acceptByte _ s) _ (hand h), acceptByte_stream hs hfull]
    simp [sentBytes, hfull]
  | @sendPrimes d h hfull hidle hout =>
    have htxq' : (acceptByte d s).uart.txq.Inv := htxq.push hfull d
    have hnonempty : (acceptByte d s).uart.txq.empty = false :=
      push_not_empty htxq.two_le_cap htxq.inRange hfull d
    rw [respond_stream (s := sendOldest _ (acceptByte d s)) _ (hand h),
      sendOldest_stream htxq' hnonempty hout (hand h), acceptByte_stream hs hfull]
    simp [sentBytes, hfull]
  | primeSends h hidle hempty =>
    rw [respond_stream (s := sendOldest _ s) _ (hand h),
      sendOldest_stream htxq hempty (hs.outReg_free hidle) (hand h)]
    simp [sentBytes]
  | uartInit => exact absurd rfl hinit
  | txSends _ hreq hempty hout =>
    obtain ⟨hcond, -, -⟩ := hbound.txCond_of_req hreq
    rw [sendOldest_stream htxq hempty hout (hs.inHand_of_txCond hcond)]
    simp [sentBytes]
  | takesOutput hout =>
    have hhand : ∀ b, (takeOutput b s).uart.inHand = s.uart.inHand := fun _ => rfl
    simp only [Transport.stream, hhand, hout]
    simp [takeOutput, sentBytes]
  | receiveTakes h =>
    have hhand : (respondByte (s.uart.rxq.cell .rx s.uart.rxq.head) (takeReceived s)).uart.inHand = s.uart.inHand :=
      (hand h).symm
    simp only [Transport.stream, hhand]
    simp [takeReceived, sentBytes]
  | arrives _ huart | arrivesInVain _ huart => rw [huart]; exact (List.append_nil _).symm
  | txPauses | rxStores | rxDrops | clk => exact (List.append_nil _).symm

theorem FgEffect.stream (h : FgEffect s t) (hs : s.uart.Inv) (hinit : s.uart.fg ≠ .uartInit) :
    t.uart.stream =
      s.uart.stream ++ if s.uart.fg = .sendE4 then [s.uart.txq.cell .tx s.uart.txq.tail] else [] := by
  have ⟨htxq, _, _, hlocals⟩ := hs
  cases h with
  | turns hturns honly hhand =>
    have hstep : s.uart.fg ≠ .sendE4 := by
      intro hfg
      rw [hfg] at hturns
      cases hturns
    rw [if_neg hstep, List.append_nil]
    exact honly.stream (hhand.trans (inHand_of_onlyTurns hturns).symm)
  | initialises hfg => exact absurd hfg hinit
  | @stores d hfg =>
    have hcontents := contents_store .tx htxq.inRange d
    simp only [Transport.stream, sendStore_txq, hcontents]
    simp [sendStore, Transport.inHand, hfg]
  | advances hfg =>
    rw [Transport.FgInv, hfg] at hlocals
    obtain ⟨-, hfull, -⟩ := hlocals
    have hcontents := contents_advance .tx htxq.two_le_cap htxq.inRange hfull
    simp only [Transport.stream, sendAdvance_txq, hcontents]
    simp [sendAdvance, Transport.inHand, hfg]
  | @pops b hfg =>
    rw [Transport.FgInv, hfg] at hlocals
    obtain ⟨-, -, hempty, rfl⟩ := hlocals
    have hcontents := contents_pop .tx htxq.two_le_cap htxq.inRange hempty
    simp only [Transport.stream, hcontents]
    simp [primeAdvance, Transport.inHand, hfg]
  | marks hfg => simp [Transport.stream, primeMark, Transport.inHand, hfg]
  | writes hfg hout => simp [Transport.stream, Transport.inHand, hfg, hout]
  | delivers hfg => simp [Transport.stream, receiveAdvance, Transport.inHand, hfg]

/-- Taking up an operation puts no byte into FG's hand. -/
theorem fgStart_inHand {f : Fg} (hf : fgStart i = some f) : (fgGoto f s).uart.inHand = [] := by
  cases i with
  | tNop | send | receive | uartInit | prime => cases hf; rfl
  | _ => cases hf

theorem runEvent_stream (hs : s.uart.Inv) (hflush : ¬ flushes e s) (ht : runEvent e s = .next t) :
    t.uart.stream = s.uart.stream ++ acceptedBytes e s := by
  obtain ⟨i, hi, heffect⟩ | ⟨rfl, heffect⟩ | ⟨hnone, hstep, hrest⟩ := runEvent_uart_cases ht
  · rw [acceptedBytes_of_command hi]
    exact heffect.stream hs fun hinit => hflush (.inl (hinit ▸ hi))
  · rw [acceptedBytes_of_no_command rfl, heffect.stream hs fun hinit => hflush (.inr ⟨rfl, hinit⟩)]
    simp
  · rw [acceptedBytes_of_no_command hnone, if_neg fun ⟨he, _⟩ => hstep he, List.append_nil]
    obtain huart | ⟨hidle, i, f, hf, rfl⟩ := hrest
    · rw [huart]
    · exact OnlyFg.stream rfl ((fgStart_inHand hf).trans (inHand_of_idle hidle).symm)

end

/-- Settles O48: each step appends its accepted byte to the stream, or moves the stream's bytes on in their order. -/
theorem transmissionLosesNothing : Obligations.TransmissionLosesNothing := by
  unfold Obligations.TransmissionLosesNothing
  intro s t e h hirq hflush ht
  obtain ⟨-, -, -, -, hinv⟩ := h
  obtain ⟨hinv, -⟩ := hinv hirq
  exact runEvent_stream hinv hflush ht

end Sys2Proof.Machine

namespace Sys2Proof.Machine

/-! ### R239 item 9: the bytes of the receive path -/

section

variable {s t : State} {i : Instr} {e : Event} {b : Byte}

/-! What each list of bytes is at an event of its own, and that it is empty at the others. -/

theorem ne_fgStep_of_command (h : e.command = some i) : e ≠ .fgStep := by
  rintro rfl
  cases h

theorem not_fgTakes_of_command {f : Fg} (h : e.command = some i) : ¬ fgTakes e s f := by
  rintro ⟨he, -⟩
  exact ne_fgStep_of_command h he

theorem arrivedBytes_rxIrq (h : e.command = some .rxIrq) :
    arrivedBytes e s = if s.uart.rxq.full then [] else [s.uart.inReg] := by simp [arrivedBytes, h]

theorem arrivedBytes_eq_nil (h : e.command ≠ some .rxIrq) : arrivedBytes e s = [] := by
  unfold arrivedBytes
  split
  · exact absurd ‹_› h
  · rfl

theorem lineBytes_hwRxByte (h : e.command = some (.hwRxByte b)) : lineBytes e = [b] := by simp [lineBytes, h]

theorem lineBytes_eq_nil (h : ∀ b, e.command ≠ some (.hwRxByte b)) : lineBytes e = [] := by
  unfold lineBytes
  split
  · exact absurd ‹_› (h _)
  · rfl

theorem droppedBytes_rxIrq (h : e.command = some .rxIrq) :
    droppedBytes e s t = if s.uart.rxq.full then [s.uart.inReg] else [] := by simp [droppedBytes, h]

theorem droppedBytes_hwRxByte (h : e.command = some (.hwRxByte b)) :
    droppedBytes e s t = if s.uart.rx.cond && t.uart.inReg != s.uart.inReg then [s.uart.inReg] else [] := by
  simp [droppedBytes, h]

theorem droppedBytes_eq_nil (hrx : e.command ≠ some .rxIrq) (hline : ∀ b, e.command ≠ some (.hwRxByte b)) :
    droppedBytes e s t = [] := by
  unfold droppedBytes
  split
  · exact absurd ‹_› hrx
  · exact absurd ‹_› (hline _)
  · rfl

theorem lostArrivals_hwRxByte (h : e.command = some (.hwRxByte b)) :
    lostArrivals e s t = if s.uart.rx.cond && t.uart.inReg == s.uart.inReg then [b] else [] := by
  simp [lostArrivals, h]

theorem lostArrivals_eq_nil (h : ∀ b, e.command ≠ some (.hwRxByte b)) : lostArrivals e s t = [] := by
  unfold lostArrivals
  split
  · exact absurd ‹_› (h _)
  · rfl

theorem deliveredBytes_receive (h : e.command = some .receive) :
    deliveredBytes e s t = if s.uart.rxq.empty then [] else [t.uart.rdata] := by simp [deliveredBytes, h]

theorem deliveredBytes_recvD4 (h : fgTakes e s (.recvD4 b)) : deliveredBytes e s t = [t.uart.rdata] := by
  obtain ⟨rfl, hfg⟩ := h
  simp [deliveredBytes, Event.command, hfg]

theorem deliveredBytes_eq_nil (hreceive : e.command ≠ some .receive) (hstep : ∀ b, ¬ fgTakes e s (.recvD4 b)) :
    deliveredBytes e s t = [] := by
  unfold deliveredBytes
  split
  · exact absurd ‹_› hreceive
  · split
    · exact absurd ⟨rfl, ‹_›⟩ (hstep _)
    · rfl

/-- What an event does with the bytes of the receive path: at RXQ's two ends, on the line, and at the input register. -/
def ReceptionLaw (e : Event) (s t : State) : Prop :=
  s.uart.rxq.contents .rx ++ arrivedBytes e s = deliveredBytes e s t ++ t.uart.rxq.contents .rx ∧
    t.uart.wireRx = s.uart.wireRx ++ lineBytes e ∧
    s.uart.unread ++ lineBytes e =
      arrivedBytes e s ++ droppedBytes e s t ++ t.uart.unread ++ lostArrivals e s t

/-- The bytes of the receive path stay where they are. -/
def RxBytesSame (s t : State) : Prop :=
  t.uart.rxq = s.uart.rxq ∧ t.uart.wireRx = s.uart.wireRx ∧ t.uart.unread = s.uart.unread

theorem RxBytesSame.receptionLaw (h : RxBytesSame s t) (hreceive : e.command ≠ some .receive)
    (hstep : ∀ b, ¬ fgTakes e s (.recvD4 b)) (hrx : e.command ≠ some .rxIrq)
    (hline : ∀ b, e.command ≠ some (.hwRxByte b)) : ReceptionLaw e s t := by
  obtain ⟨hrxq, hwire, hunread⟩ := h
  simp [ReceptionLaw, hrxq, hwire, hunread, deliveredBytes_eq_nil hreceive hstep, arrivedBytes_eq_nil hrx,
    lineBytes_eq_nil hline, droppedBytes_eq_nil hrx hline, lostArrivals_eq_nil hline]

theorem receptionLaw_receive (hrxq : s.uart.rxq.Inv) (he : e.command = some .receive)
    (h : UartEffect s .receive t) : ReceptionLaw e s t := by
  have hrx : e.command ≠ some .rxIrq := by simp [he]
  have hline (b : Byte) : e.command ≠ some (.hwRxByte b) := by simp [he]
  rw [ReceptionLaw, deliveredBytes_receive he, arrivedBytes_eq_nil hrx, lineBytes_eq_nil hline,
    droppedBytes_eq_nil hrx hline, lostArrivals_eq_nil hline]
  cases h with
  | elsewhere hi => simp [commandMoves] at hi
  | receiveEmpty _ hempty =>
    have hunread : (respond .bufferEmpty s).uart.unread = s.uart.unread := rfl
    simp [hempty, hunread]
  | receiveTakes _ hempty =>
    have hunread (b : Byte) : (respondByte b (takeReceived s)).uart.unread = s.uart.unread := rfl
    rw [hunread, contents_pop .rx hrxq.two_le_cap hrxq.inRange hempty]
    simp [hempty, takeReceived]

theorem receptionLaw_rxIrq (hrxq : s.uart.rxq.Inv) (he : e.command = some .rxIrq)
    (h : UartEffect s .rxIrq t) : ReceptionLaw e s t := by
  have hreceive : e.command ≠ some .receive := by simp [he]
  have hstep (b : Byte) : ¬ fgTakes e s (.recvD4 b) := not_fgTakes_of_command he
  have hline (b : Byte) : e.command ≠ some (.hwRxByte b) := by simp [he]
  rw [ReceptionLaw, deliveredBytes_eq_nil hreceive hstep, arrivedBytes_rxIrq he, lineBytes_eq_nil hline,
    droppedBytes_rxIrq he, lostArrivals_eq_nil hline]
  cases h with
  | elsewhere hi => simp [commandMoves] at hi
  | rxStores _ hcond hfull =>
    have hcontents : (storeUnread s).uart.rxq.contents .rx = _ :=
      contents_push .rx _ hrxq.two_le_cap hrxq.inRange hfull
    rw [hcontents]
    simp [hfull, hcond, Transport.unread, storeUnread]
  | rxDrops _ hcond hfull => simp [hfull, hcond, Transport.unread, dropUnread]

/-- At an overrun one of the two bytes is lost, which are the same byte where the register does not show which. -/
theorem receptionLaw_hwRxByte (he : e.command = some (.hwRxByte b)) (h : UartEffect s (.hwRxByte b) t) :
    ReceptionLaw e s t := by
  have hreceive : e.command ≠ some .receive := by simp [he]
  have hstep (b : Byte) : ¬ fgTakes e s (.recvD4 b) := not_fgTakes_of_command he
  have hrx : e.command ≠ some .rxIrq := by simp [he]
  rw [ReceptionLaw, deliveredBytes_eq_nil hreceive hstep, arrivedBytes_eq_nil hrx, lineBytes_hwRxByte he,
    droppedBytes_hwRxByte he, lostArrivals_hwRxByte he]
  cases h with
  | elsewhere hi => simp [commandMoves] at hi
  | arrives _ huart =>
    rw [huart]
    by_cases hsame : b = s.uart.inReg <;> cases hcond : s.uart.rx.cond <;>
      simp [deliver, Transport.unread, rise_cond, hcond, hsame]
  | arrivesInVain _ huart hcond =>
    rw [huart]
    simp [loseArrival, Transport.unread, hcond]

theorem receptionLaw_recvD4 (hs : s.uart.Inv) (he : fgTakes e s (.recvD4 b)) :
    ReceptionLaw e s (receiveAdvance b s) := by
  have ⟨hevent, hfg⟩ := he
  have hunread (b : Byte) : (receiveAdvance b s).uart.unread = s.uart.unread := rfl
  have hnone : e.command = none := by rw [hevent]; rfl
  have hrx : e.command ≠ some .rxIrq := by simp [hnone]
  have hline (b : Byte) : e.command ≠ some (.hwRxByte b) := by simp [hnone]
  obtain ⟨-, hrxq, -, hlocals⟩ := hs
  rw [Transport.FgInv, hfg] at hlocals
  obtain ⟨-, hempty, rfl⟩ := hlocals
  rw [ReceptionLaw, deliveredBytes_recvD4 he, arrivedBytes_eq_nil hrx, lineBytes_eq_nil hline,
    droppedBytes_eq_nil hrx hline, lostArrivals_eq_nil hline, contents_pop .rx hrxq.two_le_cap hrxq.inRange hempty]
  rw [hunread]
  simp [receiveAdvance]

theorem UartEffect.rxBytesSame (h : UartEffect s i t) (hinit : i ≠ .uartInit) (hreceive : i ≠ .receive)
    (hrx : i ≠ .rxIrq) (hline : ∀ b, i ≠ .hwRxByte b) : RxBytesSame s t := by
  cases h with
  | elsewhere hi huart => rw [RxBytesSame, huart]; exact ⟨rfl, rfl, rfl⟩
  | uartInit => exact absurd rfl hinit
  | receiveEmpty | receiveTakes => exact absurd rfl hreceive
  | rxStores | rxDrops => exact absurd rfl hrx
  | arrives | arrivesInVain => exact absurd rfl (hline _)
  | tNop | sendFull | sendBehind | sendPrimes | primeNothing | primeSends | txSends | txPauses | takesOutput | clk =>
    exact ⟨rfl, rfl, rfl⟩

theorem runEvent_receptionLaw (hs : s.uart.Inv) (hflush : ¬ flushes e s) (ht : runEvent e s = .next t) :
    ReceptionLaw e s t := by
  have ⟨_, hrxq, _⟩ := hs
  have quiet (hnone : e.command = none) (hstep : ∀ b, ¬ fgTakes e s (.recvD4 b)) (h : RxBytesSame s t) :
      ReceptionLaw e s t :=
    h.receptionLaw (by simp [hnone]) hstep (by simp [hnone]) (by simp [hnone])
  obtain ⟨i, hi, heffect⟩ | ⟨rfl, heffect⟩ | ⟨hnone, hstep, hrest⟩ := runEvent_uart_cases ht
  · by_cases hreceive : i = .receive
    · subst hreceive
      exact receptionLaw_receive hrxq hi heffect
    by_cases hrx : i = .rxIrq
    · subst hrx
      exact receptionLaw_rxIrq hrxq hi heffect
    by_cases hline : ∃ b, i = .hwRxByte b
    · obtain ⟨b, rfl⟩ := hline
      exact receptionLaw_hwRxByte hi heffect
    · have hinit : i ≠ .uartInit := fun hinit => hflush (.inl (hinit ▸ hi))
      exact (heffect.rxBytesSame hinit hreceive hrx (not_exists.1 hline)).receptionLaw (by simpa [hi] using hreceive)
        (fun _ => not_fgTakes_of_command hi) (by simpa [hi] using hrx) (by simpa [hi] using hline)
  · cases heffect with
    | turns hturns honly =>
      refine quiet rfl (fun b ⟨_, hfg⟩ => ?_) ?_
      · rw [hfg] at hturns
        cases hturns
      · rw [RxBytesSame, Transport.unread, honly]
        exact ⟨rfl, rfl, rfl⟩
    | initialises hfg => exact absurd (.inr ⟨rfl, hfg⟩) hflush
    | delivers hfg => exact receptionLaw_recvD4 hs ⟨rfl, hfg⟩
    | stores hfg | advances hfg | pops hfg | marks hfg | writes hfg =>
      exact quiet rfl (fun b ⟨_, hb⟩ => by simp [hfg] at hb) ⟨rfl, rfl, rfl⟩
  · refine quiet hnone (fun b ⟨he, _⟩ => hstep he) ?_
    obtain huart | ⟨-, i, f, -, rfl⟩ := hrest
    · rw [RxBytesSame, huart]
      exact ⟨rfl, rfl, rfl⟩
    · exact ⟨rfl, rfl, rfl⟩

/-- With RX_OVERRUN = none no byte arrives on an unread one (R246). -/
theorem rxCond_low_of_arrival (h : UartEffect s (.hwRxByte b) t) (hnone : s.params.rxOverrun = .none) :
    s.uart.rx.cond = false := by
  by_contra hcond
  cases h with
  | elsewhere hi => simp [commandMoves] at hi
  | arrives _ _ hover => simpa [hnone] using hover (by simpa using hcond)
  | arrivesInVain _ _ _ hover => simp [hnone] at hover

/-- With RX_OVERRUN = none, a byte is lost by RXH at a full RXQ alone. -/
theorem losses_without_overrun (hnone : s.params.rxOverrun = .none) (ht : runEvent e s = .next t) :
    lostArrivals e s t = [] ∧ (droppedBytes e s t ≠ [] → e.command = some .rxIrq ∧ s.uart.rxq.full = true) := by
  by_cases hline : ∃ b, e.command = some (.hwRxByte b)
  · obtain ⟨b, hb⟩ := hline
    rw [runEvent_command hb] at ht
    have hcond := rxCond_low_of_arrival (exec_uartEffect _ t ht) hnone
    simp [lostArrivals_hwRxByte hb, droppedBytes_hwRxByte hb, hcond]
  · have hline := not_exists.1 hline
    refine ⟨lostArrivals_eq_nil hline, fun hdropped => ?_⟩
    by_cases hrx : e.command = some .rxIrq
    · rw [droppedBytes_rxIrq hrx] at hdropped
      exact ⟨hrx, by simpa using hdropped⟩
    · exact absurd (droppedBytes_eq_nil hrx hline) hdropped

end

/-- Settles O49: RXQ loses bytes at its head and gains them at its tail, and the unread byte and the arriving one go to
RXQ, stay, or are lost. -/
theorem receptionKeepsOrder : Obligations.ReceptionKeepsOrder := by
  unfold Obligations.ReceptionKeepsOrder
  intro s t e h hirq hflush ht
  have ⟨_, _, _, _, hinv⟩ := h
  obtain ⟨hinv, -⟩ := hinv hirq
  obtain ⟨-, -, -, -, hinv'⟩ := runEvent_uartInv h e t ht
  obtain ⟨-, hlast⟩ := hinv' ((runEvent_keepsParameters e s t ht).irqEnabled hirq)
  obtain ⟨hqueue, hwire, hline⟩ := runEvent_receptionLaw hinv hflush ht
  refine ⟨hqueue, hwire, ?_, fun hnone => losses_without_overrun hnone ht, hlast⟩
  calc s.uart.rxq.contents .rx ++ s.uart.unread ++ lineBytes e
    _ = s.uart.rxq.contents .rx ++ arrivedBytes e s ++
          (droppedBytes e s t ++ t.uart.unread ++ lostArrivals e s t) := by
      rw [List.append_assoc, hline]
      simp only [List.append_assoc]
    _ = _ := by
      rw [hqueue]
      simp only [List.append_assoc]

end Sys2Proof.Machine

namespace Sys2Proof.Machine

/-! ### R239 item 8: a round of the transmit chain for each byte -/

section

variable {s t u : State} {e : Event} {i : Instr}

theorem runEvents_cons (h : runEvent e s = .next t) (es : List Event) : runEvents (e :: es) s = runEvents es t := by
  rw [runEvents, h, andThen_next]

/-- FG is at rest, and the invariant holds (R239). -/
def AtRest (s : State) : Prop := s.UartInv ∧ s.uart.irqEnabled = true ∧ s.uart.fg = .idle

/-- What a part of the chain keeps: FG at rest, the parameters, and every byte of the stream. -/
def ChainKeeps (s t : State) : Prop := AtRest t ∧ t.params = s.params ∧ t.uart.stream = s.uart.stream

theorem ChainKeeps.trans (h : ChainKeeps s t) (h' : ChainKeeps t u) : ChainKeeps s u := by
  obtain ⟨-, hparams, hstream⟩ := h
  obtain ⟨hrest, hparams', hstream'⟩ := h'
  exact ⟨hrest, hparams'.trans hparams, hstream'.trans hstream⟩

theorem AtRest.inv (h : AtRest s) : s.uart.Inv := by
  obtain ⟨⟨-, -, -, -, hinv⟩, hirq, -⟩ := h
  obtain ⟨hinv, -⟩ := hinv hirq
  exact hinv

theorem AtRest.ready (h : AtRest s) : UartReady s := by
  have hinv := h.inv
  obtain ⟨-, hirq, -⟩ := h
  exact hinv.ready hirq

/-- An event that takes no byte in and leaves FG where it stands. -/
theorem AtRest.step (hs : AtRest s) (hi : e.command = some i) (ht : runEvent e s = .next t)
    (hfg : t.uart.fg = s.uart.fg) (hsent : sentBytes s i = []) (hinit : i ≠ .uartInit) : ChainKeeps s t := by
  have hinv := hs.inv
  obtain ⟨huart, hirq, hidle⟩ := hs
  obtain ⟨hparams, -, -, -, -, hirq', -⟩ := runEvent_keepsParameters e s t ht
  have hflush : ¬ flushes e s := by
    rintro (h | ⟨rfl, -⟩)
    · exact hinit (Option.some.inj (hi.symm.trans h))
    · cases hi
  have hstream := runEvent_stream hinv hflush ht
  rw [acceptedBytes_of_command hi, hsent, List.append_nil] at hstream
  exact ⟨⟨runEvent_uartInv huart e t ht, hirq' hirq, hfg.trans hidle⟩, hparams, hstream⟩

/-! The three events of a round. -/

theorem clk_step (hs : AtRest s) (hsync : s.params.flagSync = .two) :
    runEvent (.word .clk 0) s = .next (clkEdge s) ∧ ChainKeeps s (clkEdge s) :=
  have ht : runEvent (.word .clk 0) s = .next (clkEdge s) := exec_clk hsync
  ⟨ht, hs.step (i := .clk) rfl ht rfl rfl nofun⟩

theorem hwTxDone_step (hs : AtRest s) {b : Byte} (hout : s.uart.outReg = some b) :
    runEvent (.word .hwTxDone 0) s = .next (takeOutput b s) ∧ ChainKeeps s (takeOutput b s) :=
  have ht : runEvent (.word .hwTxDone 0) s = .next (takeOutput b s) := exec_hwTxDone hout
  ⟨ht, hs.step (i := .hwTxDone) rfl ht rfl rfl nofun⟩

theorem txIrq_sends_step (hs : AtRest s) (hreq : s.txReq = true) (hempty : s.uart.txq.empty = false) :
    runEvent (.word (.e .tx) 0b01) s = .next (sendOldest s.uart.txState s) ∧
      ChainKeeps s (sendOldest s.uart.txState s) := by
  obtain ⟨-, -, hbound, -⟩ := hs.inv
  obtain ⟨-, hout, -⟩ := hbound.txCond_of_req hreq
  have ht : runEvent (.word (.e .tx) 0b01) s = .next (sendOldest s.uart.txState s) :=
    (takeInterrupt_enabled hs.ready hreq _).trans (txHandler_sends hempty hout)
  exact ⟨ht, hs.step (i := .txIrq) rfl ht rfl rfl nofun⟩

theorem txIrq_pauses_step (hs : AtRest s) (hreq : s.txReq = true) (hempty : s.uart.txq.empty = true) :
    runEvent (.word (.e .tx) 0b01) s = .next (pauseTransmit s) ∧ ChainKeeps s (pauseTransmit s) :=
  have ht : runEvent (.word (.e .tx) 0b01) s = .next (pauseTransmit s) :=
    (takeInterrupt_enabled hs.ready hreq _).trans (txHandler_pauses hempty)
  ⟨ht, hs.step (i := .txIrq) rfl ht rfl rfl nofun⟩

/-- The first edge may draw the value before the rise; the second samples 1, and the third brings it to the line. -/
theorem clk_three_edges (hcond : s.uart.tx.cond = true) : (clkEdge (clkEdge (clkEdge s))).uart.tx.f2 = true := hcond

/-- The condition reaches the request line with TXQ as it was, whatever the draws (R249). -/
theorem request_arrives (hs : AtRest s) (hcond : s.uart.tx.cond = true) :
    ∃ u, (∀ es, runEvents (requestRound s.params.flagSync ++ es) s = runEvents (.word (.e .tx) 0b01 :: es) u) ∧
      ChainKeeps s u ∧ u.txReq = true ∧ u.uart.txq = s.uart.txq := by
  cases hsync : s.params.flagSync with
  | none =>
    refine ⟨s, fun es => rfl, ⟨hs, rfl, rfl⟩, ?_, rfl⟩
    rw [State.txReq, hsync]
    exact hcond
  | two =>
    obtain ⟨h1, k1⟩ := clk_step hs hsync
    have ⟨hs1, hparams1, _⟩ := k1
    obtain ⟨h2, k2⟩ := clk_step hs1 (hparams1 ▸ hsync)
    have ⟨hs2, hparams2, _⟩ := k1.trans k2
    obtain ⟨h3, k3⟩ := clk_step hs2 (hparams2 ▸ hsync)
    have keeps := (k1.trans k2).trans k3
    have ⟨_, hparams3, _⟩ := keeps
    refine ⟨_, fun es => ?_, keeps, ?_, rfl⟩
    · exact (runEvents_cons h1 _).trans ((runEvents_cons h2 _).trans (runEvents_cons h3 _))
    · rw [State.txReq, hparams3, hsync]
      exact clk_three_edges hcond

/-- From a completion on, one round for each byte of TXQ and the end of the first bring the path to Idle. -/
theorem chain_drains (n : Nat) (hs : AtRest s) (hcond : s.uart.tx.cond = true) (hocc : s.uart.txq.occ = n) :
    ∃ t, runEvents (requestRound s.params.flagSync ++
        (List.replicate n (transmitRound s.params.flagSync)).flatten) s = .next t ∧
      ChainKeeps s t ∧ t.uart.txState = .idle := by
  induction n generalizing s with
  | zero =>
    obtain ⟨u, hrun, keeps, hreq, htxq⟩ := request_arrives hs hcond
    have ⟨hu, _, _⟩ := keeps
    have ⟨hinvU, _⟩ := hu.inv
    have hempty : u.uart.txq.empty = true := (occ_eq_zero_iff hinvU.inRange).1 (htxq ▸ hocc)
    obtain ⟨hirq, keeps'⟩ := txIrq_pauses_step hu hreq hempty
    exact ⟨_, (hrun _).trans (runEvents_cons hirq _), keeps.trans keeps', rfl⟩
  | succ n ih =>
    obtain ⟨u, hrun, keeps, hreq, htxq⟩ := request_arrives hs hcond
    have ⟨hu, _, _⟩ := keeps
    have ⟨hinvU, _⟩ := hu.inv
    have hempty : u.uart.txq.empty = false := by
      rw [← Bool.not_eq_true, ← occ_eq_zero_iff hinvU.inRange, htxq, hocc]
      omega
    obtain ⟨hirq, keepsIrq⟩ := txIrq_sends_step hu hreq hempty
    have ⟨hsent, _, _⟩ := keepsIrq
    obtain ⟨hdone, keepsDone⟩ := hwTxDone_step hsent rfl
    have keepsRound := (keeps.trans keepsIrq).trans keepsDone
    have ⟨hrest, hparams, _⟩ := keepsRound
    have hocc' : u.uart.txq.pop.occ = n := by
      have := occ_pop hinvU.two_le_cap hinvU.inRange hempty
      rw [htxq, hocc] at this
      rw [htxq]
      omega
    obtain ⟨t, hrun', keeps', hidle⟩ := ih hrest (rise_cond _) hocc'
    refine ⟨t, ?_, keepsRound.trans keeps', hidle⟩
    rw [hrun, runEvents_cons hirq, List.replicate_succ, List.flatten_cons, transmitRound, List.cons_append,
      runEvents_cons hdone]
    rwa [hparams] at hrun'

theorem contents_eq_nil (q : FifoId) {r : Ring} (hr : r.inRange = true) (hempty : r.empty = true) :
    r.contents q = [] := by
  rw [← List.length_eq_zero_iff, contents_length, (occ_eq_zero_iff hr).2 hempty]

/-- The path Idle with FG at rest: every byte of the stream is on the wire. -/
theorem AtRest.idle_stream (hs : AtRest s) (hst : s.uart.txState = .idle) :
    s.uart.txq.empty = true ∧ s.uart.outReg = none ∧ s.uart.stream = s.uart.wireTx := by
  have hout := hs.inv.outReg_free hst
  obtain ⟨htxq, -, -, hsettled⟩ := hs.inv
  obtain ⟨-, -, hfg⟩ := hs
  rw [Transport.FgInv, hfg] at hsettled
  have hempty := hsettled hst
  refine ⟨hempty, hout, ?_⟩
  simp [Transport.stream, hout, inHand_of_idle hfg, contents_eq_nil .tx htxq.inRange hempty]

/-- While Transmitting, the schedule ends Idle, from the byte in the output register or from its completion. -/
theorem transmitting_drains (hs : AtRest s) (hst : s.uart.txState = .transmitting) :
    ∃ t, runEvents (drainSchedule s) s = .next t ∧ ChainKeeps s t ∧ t.uart.txState = .idle := by
  cases hout : s.uart.outReg with
  | some b =>
    obtain ⟨hdone, keeps⟩ := hwTxDone_step hs hout
    have ⟨hrest, _, _⟩ := keeps
    obtain ⟨t, hrun, keeps', hidle⟩ := chain_drains s.uart.txq.occ hrest (rise_cond _) rfl
    refine ⟨t, ?_, keeps.trans keeps', hidle⟩
    rw [drainSchedule, hst, hout]
    exact (runEvents_cons hdone _).trans hrun
  | none =>
    have hcond : s.uart.tx.cond = true := by
      obtain ⟨-, -, ⟨-, -, -, -, -, hbusy⟩, -⟩ := hs.inv
      obtain ⟨-, -, hfg⟩ := hs
      simpa [hout, hfg] using hbusy hst
    obtain ⟨t, hrun, keeps, hidle⟩ := chain_drains s.uart.txq.occ hs hcond rfl
    refine ⟨t, ?_, keeps, hidle⟩
    rw [drainSchedule, hst, hout]
    exact hrun

end

/-- Settles O50: the rounds keep the stream, and when the path is Idle again all of it is on the wire. -/
theorem transmitterDrains : Obligations.TransmitterDrains := by
  unfold Obligations.TransmitterDrains
  intro s huart hirq hfg
  have hs : AtRest s := ⟨huart, hirq, hfg⟩
  cases hst : s.uart.txState with
  | idle =>
    obtain ⟨hempty, hout, hstream⟩ := hs.idle_stream hst
    exact ⟨s, by rw [drainSchedule, hst]; rfl, hstream.symm, hempty, hout, hst⟩
  | transmitting =>
    obtain ⟨t, hrun, ⟨ht, -, hstream⟩, hidle⟩ := transmitting_drains hs hst
    obtain ⟨hempty, hout, hwire⟩ := ht.idle_stream hidle
    exact ⟨t, hrun, hwire.symm.trans hstream, hempty, hout, hidle⟩

end Sys2Proof.Machine

namespace Sys2Proof.Machine

/-! ### The order of the two handler runs (R268)

Each handler reads and writes its own path of the transport controller alone (R235, R236), so a run of it does the same
whatever stands in the other path. -/

/-- The state with the transmit path of `u`, `wire_tx` aside, which no handler writes. -/
def withTxPath (u : Transport) (s : State) : State :=
  { s with uart := { s.uart with txq := u.txq, txState := u.txState, outReg := u.outReg, tx := u.tx } }

/-- The state with the receive path of `u`, `in_reg` and `wire_rx` aside, which no handler writes. -/
def withRxPath (u : Transport) (s : State) : State :=
  { s with uart := { s.uart with rxq := u.rxq, rx := u.rx } }

theorem withTxPath_withRxPath (u v : Transport) (s : State) :
    withTxPath u (withRxPath v s) = withRxPath v (withTxPath u s) := rfl

section

variable {s t : State}

theorem UartReady.push_rxq (h : UartReady s) (b : Byte) :
    UartReady { s with uart := { s.uart with rxq := s.uart.rxq.push b } } := by
  obtain ⟨htx, hrx, hirq, htxHead, htxTail, hhead, -⟩ := h
  exact ⟨htx, hrx, hirq, htxHead, htxTail, hhead, next_lt hrx _⟩

/-- TXH sends or pauses; neither its request line nor what it reads is in the receive path. -/
theorem execTxIrq_usesTxPathAlone (ht : exec .txIrq s = .next t) :
    UartReady t ∧ t = withTxPath t.uart s ∧
      ∀ u, UartReady (withRxPath u s) →
        exec .txIrq (withRxPath u s) = .next (withTxPath t.uart (withRxPath u s)) := by
  cases execTxIrq_uartEffect t ht with
  | elsewhere hi => simp [commandMoves] at hi
  | txSends h hreq hempty hout =>
    exact ⟨h.pop_txq, rfl, fun _ hu => (takeInterrupt_enabled hu hreq _).trans (txHandler_sends hempty hout)⟩
  | txPauses h hreq hempty =>
    exact ⟨h, rfl, fun _ hu => (takeInterrupt_enabled hu hreq _).trans (txHandler_pauses hempty)⟩

/-- RXH stores or drops; neither its request line nor what it reads is in the transmit path. -/
theorem execRxIrq_usesRxPathAlone (ht : exec .rxIrq s = .next t) :
    UartReady t ∧ t = withRxPath t.uart s ∧
      ∀ u, UartReady (withTxPath u s) →
        exec .rxIrq (withTxPath u s) = .next (withRxPath t.uart (withTxPath u s)) := by
  obtain ⟨-, hreq, -⟩ := takeInterrupt_next.1 ht
  cases execRxIrq_uartEffect t ht with
  | elsewhere hi => simp [commandMoves] at hi
  | rxStores h hcond hfull =>
    exact ⟨h.push_rxq _, rfl, fun _ hu => (takeInterrupt_enabled hu hreq _).trans (rxHandler_stores hcond hfull)⟩
  | rxDrops h hcond hfull =>
    exact ⟨h, rfl, fun _ hu => (takeInterrupt_enabled hu hreq _).trans (rxHandler_drops hcond hfull)⟩

end

/-- Settles O44: the two runs write different paths, and each finds its own path as it was. -/
theorem handlerOrderIsUnobservable : Obligations.HandlerOrderIsUnobservable := by
  unfold Obligations.HandlerOrderIsUnobservable
  intro s t u ht hu
  obtain ⟨htReady, htx, txAgain⟩ := execTxIrq_usesTxPathAlone ht
  obtain ⟨huReady, hrx, rxAgain⟩ := execRxIrq_usesRxPathAlone hu
  refine ⟨withRxPath u.uart (withTxPath t.uart s), ?_, ?_⟩
  · have hrun := rxAgain t.uart (htx ▸ htReady)
    rwa [← htx] at hrun ⊢
  · have hrun := txAgain u.uart (hrx ▸ huReady)
    rwa [withTxPath_withRxPath, ← hrx] at hrun

end Sys2Proof.Machine

namespace Sys2Proof.Machine

/-! ### Before the first reset event of a block (R303, R159) -/

section

variable {s : State}

theorem syncGuard_notReset (hcap : 2 ≤ s.sync.ring.cap) (hup : s.sync.up = false) : syncGuard s = some .notReset := by
  simp [syncGuard, firstRefusal_cons, capOk_iff.2 hcap, hup]

theorem asyncGuard_notReset (hcap : 2 ≤ s.async.ring.cap) (heven : s.async.ring.cap % 2 = 0)
    (hup : s.async.up = false) : asyncGuard s = some .notReset := by
  simp [asyncGuard, firstRefusal_cons, asyncCapOk_iff.2 ⟨hcap, heven⟩, hup]

theorem uartGuard_notReset (htx : 2 ≤ s.uart.txq.cap) (hrx : 2 ≤ s.uart.rxq.cap) (hirq : s.uart.irqEnabled = false) :
    uartGuard s = some .notReset := by
  simp [uartGuard, firstRefusal_cons, capOk_iff.2 htx, capOk_iff.2 hrx, hirq]

/-- An arrival checks the first UART_INIT alone (R244), and not the queues. -/
theorem exec_hwRxByte_notReset (hirq : s.uart.irqEnabled = false) (b : Byte) :
    exec (.hwRxByte b) s = .refused .notReset :=
  guarded_refused (by simp [firstRefusal_cons, hirq]) _

end

/-- Settles O51: before the first reset the guard of each block gives that reason, and every operation of the block
begins with that guard; only the arrival of a byte makes a check of its own. -/
theorem nothingRunsBeforeTheFirstReset : Obligations.NothingRunsBeforeTheFirstReset := by
  unfold Obligations.NothingRunsBeforeTheFirstReset
  intro s d
  refine ⟨fun hcap hup => ?_, fun hcap heven hup => ?_, fun htx hrx hirq => ?_⟩
  · exact exec_refused_of_syncGuard (syncGuard_notReset hcap hup)
  · exact exec_refused_of_asyncGuard (asyncGuard_notReset hcap heven hup)
  · have hguard := uartGuard_notReset htx hrx hirq
    exact ⟨List.forall_mem_cons.2 ⟨exec_hwRxByte_notReset hirq d, exec_refused_of_uartGuard hguard⟩,
      fun hidle => exec_fg_refused_of_uartGuard hidle hguard⟩

/-! ### A transaction presented while one is in progress (R310) -/

theorem fgGuard_fgBusy {s : State} (h : s.uart.fg ≠ .idle) : fgGuard s = some .fgBusy := by
  simp [fgGuard, firstRefusal_cons, h]

/-- Settles O60: every operation of FG, run whole or taken up micro-step by micro-step, begins with the check that
none is in progress. -/
theorem oneForegroundThread : Obligations.OneForegroundThread := by
  unfold Obligations.OneForegroundThread
  intro s d hbusy i hi
  have hguard := fgGuard_fgBusy hbusy
  refine ⟨?_, guarded_refused hguard _⟩
  simp only [List.mem_cons, List.not_mem_nil, or_false] at hi
  rcases hi with rfl | rfl | rfl | rfl | rfl <;> exact guarded_refused hguard _

end Sys2Proof.Machine
